-- ==== Sys2Proof/Word.lean ====
section
/-! DEFINITION. Bytes and the three buffer spaces (spec 00_scope R8; 20_memory R60). A length, capacity or
cursor is a natural number: R237 says that no arithmetic on one wraps and that a model may use natural
numbers and prove the bound `2^AW` as an invariant, as this one does (log 1). -/

namespace Sys2Proof

/-- A byte, 0 to 255, bit 7 the most significant (R8). -/
abbrev Byte := BitVec 8

/-- The three buffer spaces, the only memory there is; an address is `space:index` (R8, R34, R60). -/
inductive Space where
  | src
  | mid
  | dst
deriving DecidableEq, Repr

end Sys2Proof
end

