-- ==== Sys2Proof/Config.lean ====
section
/-! DEFINITION. The parameters of the hardware (spec 00_scope R6, R7; 40 R110 to R114, R119; 10 R35):
fixed constants, the four markers, the engine's two functions, and the environment's draws. -/

namespace Sys2Proof

/-- The four marker bytes `M0..M3` (R6). -/
structure Config.Markers where
  m0 : Byte
  m1 : Byte
  m2 : Byte
  m3 : Byte
deriving DecidableEq, Repr

/-- `Mi` for a bucket index `i`. -/
def Config.Markers.nth (k : Config.Markers) : Fin 4 → Byte
  | 0 => k.m0
  | 1 => k.m1
  | 2 => k.m2
  | 3 => k.m3

/-- What R7 asks of any assignment of the markers: each in 192..255 and the four contiguous and
ascending (pairwise distinct follows). -/
abbrev Config.Markers.Admissible (k : Config.Markers) : Prop :=
  192 ≤ k.m0.toNat ∧ k.m1.toNat = k.m0.toNat + 1 ∧ k.m2.toNat = k.m0.toNat + 2
    ∧ k.m3.toNat = k.m0.toNat + 3

/-- The markers of this hardware: 245, 246, 247, 248 (R6). The machine uses these (log 2). -/
def Config.markers : Config.Markers := ⟨0xF5, 0xF6, 0xF7, 0xF8⟩

/-- `NUL` (R6). -/
def Config.nul : Byte := 0x00
/-- `QUOTE`, the character `"` (R6). -/
def Config.quote : Byte := 0x22
/-- `BACKSLASH` (R6). -/
def Config.backslash : Byte := 0x5C
/-- `TERM`, the terminator written after escaped output (R6). -/
def Config.term : Byte := 0x00
/-- `PAYLOAD_BIAS` (R6). -/
def Config.payloadBias : Nat := 128
/-- `BASE(i)`, added at decode for marker `Mi` (R6). -/
def Config.base (i : Fin 4) : Nat := 64 * i.val

/-- `AW` less one (log 1). -/
opaque Config.widthBeyondOne : Nat

/-- `AW`, the width in bits of every length, capacity and cursor register: OPEN, at least 1 (R6, log 1). -/
def Config.aw : Nat := Config.widthBeyondOne + 1

/-- `DEFLATE` (R110): total, deterministic, values not specified (log 3). -/
opaque Config.deflate : List Byte → List Byte

/-- `INFLATE` (R111): total to an option, deterministic, values not specified (log 3). -/
opaque Config.inflate : List Byte → Option (List Byte)

/-- FREE VALUE (log 4): the draw `init_ok` of the engine stage with this draw number (R114). -/
opaque Config.initOk : Nat → Bool

/-- FREE VALUE (log 4): the draw `step_ok` of the compress stage with this draw number (R114). -/
opaque Config.stepOk : Nat → Bool

/-- FREE VALUE (log 5): the arbitrary byte that draw `n` leaves at an index of a space (R119, R72, R230). -/
opaque Config.anyByte : Nat → Space → Nat → Byte

/-- FREE VALUE (log 7): what read number `n` of a result register returns while `BUSY` (R42),
cut to the register's width where it is used. -/
opaque Config.anyRead : Nat → Nat

/-- The parameters and draws as one argument, so that a statement can speak of every engine and
every choice of the environment, and a test can use the spec's own test engines. -/
structure Config.Environment where
  aw      : Nat
  deflate : List Byte → List Byte
  inflate : List Byte → Option (List Byte)
  initOk  : Nat → Bool
  stepOk  : Nat → Bool
  anyByte : Nat → Space → Nat → Byte
  anyRead : Nat → Nat

/-- The environment of the hardware: every entry uninterpreted. -/
def Config.environment : Config.Environment where
  aw      := Config.aw
  deflate := Config.deflate
  inflate := Config.inflate
  initOk  := Config.initOk
  stepOk  := Config.stepOk
  anyByte := Config.anyByte
  anyRead := Config.anyRead

/-- Law P1 (R112): what was compressed decompresses to itself. -/
def Config.Environment.Lossless (env : Config.Environment) : Prop :=
  ∀ x, env.inflate (env.deflate x) = some x

/-- Law P3 (R112), optional: no proper prefix of a compressed stream decompresses. -/
def Config.Environment.PrefixesUnfinished (env : Config.Environment) : Prop :=
  ∀ x k, k < (env.deflate x).length → env.inflate ((env.deflate x).take k) = none

/-- The premise EngineHealthy (R114): every `init_ok` and `step_ok` is true. -/
def Config.Environment.Healthy (env : Config.Environment) : Prop :=
  ∀ n, env.initOk n = true ∧ env.stepOk n = true

end Sys2Proof
end

