-- ==== Sys2Proof/Syntax.lean ====
section
/-! DEFINITION. The instructions: one constructor for each row of spec/opcode_table.json (30_encoding R97). -/

namespace Sys2Proof

/-- The six commands a host can start (R80). -/
inductive Command where
  | compress
  | decompress
  | escape
  | unescape
  | encode
  | decode
deriving DecidableEq, Repr

/-- The fifteen rows of the table: six commands, five code units of the safe-text stream, four input
classes of the escape encoder. A pair's payload byte is `hi` (bits 7..6) and `low6` (bits 5..0). -/
inductive Instr where
  /-- R117 -/
  | compress
  /-- R118 -/
  | decompress
  /-- R139 -/
  | escape
  /-- R159 -/
  | unescape
  /-- R171 -/
  | encode
  /-- R172 -/
  | decode
  /-- R83, R151 -/
  | lit (v : Byte)
  /-- R85, R152 -/
  | esc0 (hi : BitVec 2) (low6 : BitVec 6)
  /-- R86, R153 -/
  | esc1 (hi : BitVec 2) (low6 : BitVec 6)
  /-- R87, R154 -/
  | esc2 (hi : BitVec 2) (low6 : BitVec 6)
  /-- R88, R155 -/
  | esc3 (hi : BitVec 2) (low6 : BitVec 6)
  /-- R91, R132 -/
  | eQ0 (b : Byte)
  /-- R91, R133 -/
  | eBs (b : Byte)
  /-- R91, R134 -/
  | eMk (b : Byte)
  /-- R91, R135 -/
  | eLit (b : Byte)
deriving DecidableEq, Repr

/-- The row of a command. -/
def Command.instr : Command → Instr
  | .compress => .compress
  | .decompress => .decompress
  | .escape => .escape
  | .unescape => .unescape
  | .encode => .encode
  | .decode => .decode

end Sys2Proof
end

