-- ==== Sys2Proof/WellFormed.lean ====
section
/-! DEFINITION. Which operands an instruction may carry: the `ranges` and `values` of the rows of
spec/opcode_table.json (30_encoding R83, R91, R97). -/

namespace Sys2Proof

/-- `v` lies in one of the table's inclusive ranges. -/
def inRanges (rs : List (Nat × Nat)) (v : Byte) : Bool :=
  rs.any fun r => r.1 ≤ v.toNat && v.toNat ≤ r.2

/-- The row LIT's ranges. -/
def litRanges : List (Nat × Nat) := [(0, 244), (249, 255)]

/-- The row E.LIT's ranges. -/
def literalInputRanges : List (Nat × Nat) := [(1, 33), (35, 91), (93, 244), (249, 255)]

/-- The operand of the instruction is one its row admits. A command has no operand field, and a pair
admits every payload (R93). -/
def Instr.wellFormed : Instr → Bool
  | .compress => true
  | .decompress => true
  | .escape => true
  | .unescape => true
  | .encode => true
  | .decode => true
  | .lit v => inRanges litRanges v
  | .esc0 _ _ => true
  | .esc1 _ _ => true
  | .esc2 _ _ => true
  | .esc3 _ _ => true
  | .eQ0 b => [0, 34].contains b.toNat
  | .eBs b => [92].contains b.toNat
  | .eMk b => [245, 246, 247, 248].contains b.toNat
  | .eLit b => inRanges literalInputRanges b

end Sys2Proof
end

