-- ==== Sys2Proof/Decode.lean ====
section
/-! DEFINITION. Decoding of commands, code units and input bytes (spec 30_encoding R80 to R94), the
encoder, and the host's view of the opcode table. -/

namespace Sys2Proof

/-- An encoded instruction in one of the table's three formats: the 3-bit command code (CMD, R80), the
bytes of a code unit, lower index first (U1, U2, R83, R84), or an input byte of the encoder (IN, R91). -/
inductive Coded where
  | cmd (op : BitVec 3)
  | unit (bytes : List Byte)
  | input (b : Byte)
deriving DecidableEq, Repr

/-- Why bits are no instruction. -/
inductive Reject where
  /-- Command codes 0 and 7 select no command (R81). -/
  | reservedCommand (op : BitVec 3)
  /-- There is no byte left to read. -/
  | emptyStream
  /-- A marker with no second byte encodes nothing (R89). -/
  | loneMarker (m : Byte)
  /-- Bytes follow the one unit that was asked for. -/
  | trailingBytes
deriving DecidableEq, Repr

/-! ### Helper functions of R9 -/

/-- `is_marker(b)`, for any assignment of the markers. -/
def isMarkerIn (k : Config.Markers) (b : Byte) : Bool :=
  b == k.m0 || b == k.m1 || b == k.m2 || b == k.m3

/-- `is_marker(b)`. -/
def isMarker (b : Byte) : Bool := isMarkerIn Config.markers b

/-- `bucket(m)`; the spec defines it only for a marker, and it is asked only of one. -/
def bucketIn (k : Config.Markers) (m : Byte) : Fin 4 :=
  if m = k.m0 then 0 else if m = k.m1 then 1 else if m = k.m2 then 2 else 3

/-- `bucket(m)`. -/
def bucket (m : Byte) : Fin 4 := bucketIn Config.markers m

/-- `payload_of(b) = 128 + (b mod 64)` (R92). -/
def payloadOf (b : Byte) : Byte := BitVec.ofNat 8 (Config.payloadBias + b.toNat % 64)

/-- `BASE(i) + (p mod 64)`: the byte a pair with marker `Mi` and payload `p` stands for (R92). -/
def pairValue (i : Fin 4) (p : Byte) : Byte := BitVec.ofNat 8 (Config.base i + p.toNat % 64)

/-- `unbias(m, p)`. -/
def unbiasIn (k : Config.Markers) (m p : Byte) : Byte := pairValue (bucketIn k m) p

/-- `needs_escape(b)`: the seven reserved values. -/
def needsEscapeIn (k : Config.Markers) (b : Byte) : Bool :=
  b == Config.nul || b == Config.quote || b == Config.backslash || isMarkerIn k b

/-- `needs_escape(b)`. -/
def needsEscape (b : Byte) : Bool := needsEscapeIn Config.markers b

/-- The payload byte of the fields `hi` (bits 7..6) and `low6` (bits 5..0) (R84). -/
def payloadByte (hi : BitVec 2) (low6 : BitVec 6) : Byte := hi ++ low6

/-- Bits 7..6 of a payload. -/
def payloadHi (p : Byte) : BitVec 2 := p.extractLsb' 6 2

/-- Bits 5..0 of a payload. -/
def payloadLow6 (p : Byte) : BitVec 6 := p.extractLsb' 0 6

/-! ### Commands -/

/-- The command codes (R80). -/
def Command.code : Command → BitVec 3
  | .compress => 1
  | .decompress => 2
  | .escape => 3
  | .unescape => 4
  | .encode => 5
  | .decode => 6

/-- The command a code selects; 0 and 7 select none (R80, R81). -/
def commandOf (op : BitVec 3) : Option Command :=
  match op.toNat with
  | 1 => some .compress
  | 2 => some .decompress
  | 3 => some .escape
  | 4 => some .unescape
  | 5 => some .encode
  | 6 => some .decode
  | _ => none

/-- Decode the register `OP`. -/
def decodeCommand (op : BitVec 3) : Except Reject Instr :=
  match commandOf op with
  | some c => .ok c.instr
  | none => .error (.reservedCommand op)

/-! ### Code units of the stream -/

/-- The pair whose marker is `Mi`. -/
def pairUnit (i : Fin 4) (hi : BitVec 2) (low6 : BitVec 6) : Instr :=
  match i with
  | 0 => .esc0 hi low6
  | 1 => .esc1 hi low6
  | 2 => .esc2 hi low6
  | 3 => .esc3 hi low6

/-- Read one code unit from the front of a stream: the first byte alone decides its length (R82, R90). -/
def decodeUnit : List Byte → Except Reject (Instr × List Byte)
  | [] => .error .emptyStream
  | m :: rest =>
    if isMarker m then
      match rest with
      | [] => .error (.loneMarker m)
      | p :: rest' => .ok (pairUnit (bucket m) (payloadHi p) (payloadLow6 p), rest')
    else .ok (.lit m, rest)

/-! ### Input classes of the encoder -/

/-- The four input classes (R91). -/
inductive InputClass where
  | q0
  | bs
  | mk
  | lit
deriving DecidableEq, Repr

/-- The class of an input byte, tested in the order of R91. -/
def classOf (b : Byte) : InputClass :=
  if b = Config.nul ∨ b = Config.quote then .q0
  else if b = Config.backslash then .bs
  else if isMarker b then .mk
  else .lit

/-- An input byte as an instruction of its class. -/
def decodeInput (b : Byte) : Instr :=
  match classOf b with
  | .q0 => .eQ0 b
  | .bs => .eBs b
  | .mk => .eMk b
  | .lit => .eLit b

/-! ### All formats -/

/-- Decode an encoded instruction. -/
def decode : Coded → Except Reject Instr
  | .cmd op => decodeCommand op
  | .unit bytes =>
    match decodeUnit bytes with
    | .ok (i, []) => .ok i
    | .ok (_, _ :: _) => .error .trailingBytes
    | .error e => .error e
  | .input b => .ok (decodeInput b)

/-- The words of an instruction, from the encodings of R80, R83 to R88 and R91. -/
def encode : Instr → Coded
  | .compress => .cmd 0b001
  | .decompress => .cmd 0b010
  | .escape => .cmd 0b011
  | .unescape => .cmd 0b100
  | .encode => .cmd 0b101
  | .decode => .cmd 0b110
  | .lit v => .unit [v]
  | .esc0 hi low6 => .unit [0b11110101, payloadByte hi low6]
  | .esc1 hi low6 => .unit [0b11110110, payloadByte hi low6]
  | .esc2 hi low6 => .unit [0b11110111, payloadByte hi low6]
  | .esc3 hi low6 => .unit [0b11111000, payloadByte hi low6]
  | .eQ0 b => .input b
  | .eBs b => .input b
  | .eMk b => .input b
  | .eLit b => .input b

/-- The bytes of a code unit (none for the other formats). -/
def Coded.bytes : Coded → List Byte
  | .cmd _ => []
  | .unit bytes => bytes
  | .input _ => []

/-- The greedy parse of a stream into code units; `none` exactly when a lone marker is left at its
end (R82, R89). -/
def parseUnits : List Byte → Option (List Instr)
  | [] => some []
  | [m] => if isMarker m then none else some [.lit m]
  | m :: p :: rest =>
    if isMarker m then
      (parseUnits rest).map (pairUnit (bucket m) (payloadHi p) (payloadLow6 p) :: ·)
    else (parseUnits (p :: rest)).map (.lit m :: ·)

/-- The pseudo-instruction `ESC b`: the canonical pair of a reserved byte, `M(b div 64)` then
`128 + b mod 64`; no other byte has one (R96, R98). -/
def assembleEsc (b : Byte) : Option (List Byte) :=
  if needsEscape b then
    some [Config.markers.nth ⟨b.toNat / 64, by have := b.isLt; omega⟩, payloadOf b]
  else none

/-- A pair is canonical when it is one of the seven the encoder emits (R92, R93). -/
def isCanonicalPair (m p : Byte) : Bool :=
  [Config.nul, Config.quote, Config.backslash, 0xF5, 0xF6, 0xF7, 0xF8].any
    fun b => assembleEsc b == some [m, p]

/-! ### The host's view of the table -/

/-- How a word of the table is laid out. The three formats share 8-bit words, so the model reads a
word of one byte as a command code if it is 1..6, as an input byte of the encoder if it is one of the
seven reserved values, and as a literal unit otherwise (log 15). In a 16-bit word the first byte of
the unit is bits 15..8 (R97). -/
def codedOfTable (nbits w : Nat) : Option Coded :=
  if nbits = 16 then some (.unit [BitVec.ofNat 8 (w / 256), BitVec.ofNat 8 w])
  else if nbits = 3 then some (.cmd (BitVec.ofNat 3 w))
  else if nbits = 8 then
    if 1 ≤ w ∧ w ≤ 6 then some (.cmd (BitVec.ofNat 3 w))
    else if needsEscape (BitVec.ofNat 8 w) then some (.input (BitVec.ofNat 8 w))
    else some (.unit [BitVec.ofNat 8 w])
  else none

/-- The instruction the decoder reads from a word of the opcode table. -/
def decodeTableWord (nbits w : Nat) : Option Instr :=
  match codedOfTable nbits w with
  | some c => (decode c).toOption
  | none => none

end Sys2Proof
end

