-- ==== Sys2Proof/Machine/State.lean ====
section
/-! DEFINITION. The state of the block (spec 10_state R20 to R36), the host's moves (R38), the state
after reset (R36), and the reasons a step can stop. -/

namespace Sys2Proof.Machine

/-- The bytes of a space whose value is known: (index, byte), indices strictly rising. An index not
listed holds a free value, so no entry equals what an unlisted index reads as (log 5). -/
abbrev Memory := List Host.Cell

/-- A range of indices `[lo, hi)` whose unlisted bytes hold the arbitrary values of one draw (R119). -/
structure Region where
  lo : Nat
  hi : Nat
  draw : Nat
deriving DecidableEq, Repr

/-- One buffer space: its known bytes, and the draws its other bytes come from: the newest region that
holds the index, else the draw of the last reset (R34, R72, R230). -/
structure Buffer where
  cells : Memory
  arbitrary : List Region
  base : Nat
deriving DecidableEq, Repr

/-- `PHASE` (R25); value 3 is never produced. -/
inductive Phase where
  | idle
  | busy
  | done
deriving DecidableEq, Repr

/-- `STAGE` (R26); values 5..7 are never produced. -/
inductive Stage where
  | none
  | compress
  | escape
  | unescape
  | decompress
deriving DecidableEq, Repr

/-- `STATUS` (R27, R200); codes 9..15 are never produced. -/
inductive Status where
  | ok
  | compEngineInitFailed
  | compEngineStepFailed
  | compBufferTooSmall
  | decEngineInitFailed
  | decTruncated
  | malformedEscape
  | badCommand
  | badCapacity
deriving DecidableEq, Repr

/-- What the host may write to a register (R39); a length or capacity is cut to `AW` bits when it is
written (log 19). -/
inductive RegWrite where
  | op (v : BitVec 3)
  | srcLen (v : Nat)
  | dstCap (v : Nat)
  | midCap (v : Nat)
deriving DecidableEq, Repr

/-- The registers the host may name in a read; `STAGE` is never readable (R42). -/
inductive ReadReg where
  | op
  | srcLen
  | dstCap
  | midCap
  | phase
  | status
  | trunc
  | len
  | rp
  | wp
  | midLen
deriving DecidableEq, Repr

/-- The buffers the host may read; it has no access to `MID` (R40). -/
inductive ReadBuf where
  | src
  | dst
deriving DecidableEq, Repr

/-- The six things the host can do (R38). An index is cut to `AW` bits when it is used (log 19). -/
inductive HostMove where
  | writeReg (r : RegWrite)
  | writeSrc (i : Nat) (v : Byte)
  | readReg (r : ReadReg)
  | readBuf (b : ReadBuf) (i : Nat)
  | start
  | reset
deriving DecidableEq, Repr

/-- Whose turn it is: a host move, one step of the sequencer, or a START and its whole command as one
step (R45, R189). Model's own: the interleaving the spec leaves free, as data (log 8, log 9). -/
inductive Turn where
  | host (m : HostMove)
  | sequencer
  | command
deriving DecidableEq, Repr

/-- What a host read returned, at the width of what was read (R40, R42; log 10). -/
inductive Reply where
  | op (v : BitVec 3)
  | phase (v : BitVec 2)
  | status (v : BitVec 4)
  | trunc (v : BitVec 1)
  | word (v : Nat)
  | byte (v : Byte)
deriving DecidableEq, Repr

/-- All the state there is (R20), and four fields of the model's own. -/
structure State where
  /-- `OP` (R21) -/
  op : BitVec 3
  /-- `SRC_LEN` (R22) -/
  srcLen : Nat
  /-- `DST_CAP` (R23) -/
  dstCap : Nat
  /-- `MID_CAP` (R24) -/
  midCap : Nat
  /-- `PHASE` (R25) -/
  phase : Phase
  /-- `STAGE` (R26) -/
  stage : Stage
  /-- `RP`, the program counter (R30) -/
  rp : Nat
  /-- `WP` (R31) -/
  wp : Nat
  /-- `MID_LEN` (R32) -/
  midLen : Nat
  /-- `STATUS` (R27) -/
  status : Status
  /-- `TRUNC` (R28) -/
  trunc : Bool
  /-- `LEN` (R29) -/
  len : Nat
  /-- `SRC` (R34) -/
  src : Buffer
  /-- `MID` (R34) -/
  mid : Buffer
  /-- `DST` (R34) -/
  dst : Buffer
  /-- Model's own: how many draws the environment has made (log 4). -/
  draws : Nat
  /-- Model's own: the moves still to come (log 8). -/
  turns : List Turn
  /-- Model's own: what the host's last read returned (log 10). -/
  reply : Option Reply
deriving DecidableEq, Repr

/-- A buffer every byte of which holds a value of one draw: nothing is known of it (R36, R230). -/
def Buffer.unknown (draw : Nat) : Buffer := ⟨[], [], draw⟩

/-- The machine right after reset (R36): registers as the spec says, every buffer byte unspecified.
The draw of the buffers and the last three fields are DESIGN CHOICE (log 17). -/
def State.reset : State where
  op := 0
  srcLen := 0
  dstCap := 0
  midCap := 0
  phase := .idle
  stage := .none
  rp := 0
  wp := 0
  midLen := 0
  status := .ok
  trunc := false
  len := 0
  src := Buffer.unknown 0
  mid := Buffer.unknown 0
  dst := Buffer.unknown 0
  draws := 1
  turns := []
  reply := none

/-- Why the machine stops. No reachable state of the block does (R45, R67). -/
inductive Fault where
  /-- Raised by a read or write outside the running stage's extent, which R61 calls a state the
  hardware cannot reach. Safe (log 12). -/
  | outsideExtent (sp : Space) (i : Nat)
  /-- Raised by the sequencer in a `BUSY` state whose `STAGE` is no stage of the command in `OP`, which
  no START produces (R41, R45). Safe (log 14). -/
  | noStageRunning
  /-- Raised by a whole command that did not end within the bound of R247, which every command does.
  Safe (log 14). -/
  | stepBound
deriving DecidableEq, Repr

/-- Why something has no meaning. -/
inductive Refusal where
  /-- Raised by `exec` for an instruction without a meaning; no arm does. Safe. -/
  | notModelled (mnemonic : String)
  /-- Raised by a code unit or an input byte while no scan of its kind is running: R45 enables no such
  step. Safe (log 13). -/
  | noScanRunning
  /-- Raised by a host buffer access while `BUSY`: the host has no such move (R40). The spec says this
  errs toward proving. Unsafe (log 11). -/
  | hostBufferMoveWhileBusy
deriving DecidableEq, Repr

/-- The outcome of a step of this machine. -/
abbrev Result := Host.Outcome State Fault Refusal

end Sys2Proof.Machine
end

