-- ==== Sys2Proof/Machine/Operands.lean ====
section
/-! DEFINITION. Operand forms: what a stage reads and writes (spec 43 R170), START validation (R179),
the numeric codes of PHASE and STATUS (10 R25, 60 R200), the memory accesses of a stage (20 R61, R66). -/

namespace Sys2Proof.Machine

/-- The parameters `(S, N, D, C)` of a stage (R170). -/
structure Binding where
  src : Space
  len : Nat
  dst : Space
  cap : Nat
deriving DecidableEq, Repr

/-- `(SRC, SRC_LEN, DST, DST_CAP)`. -/
def State.srcToDst (s : State) : Binding := ⟨.src, s.srcLen, .dst, s.dstCap⟩

/-- `(SRC, SRC_LEN, MID, MID_CAP)`. -/
def State.srcToMid (s : State) : Binding := ⟨.src, s.srcLen, .mid, s.midCap⟩

/-- `(MID, MID_LEN, DST, DST_CAP)`. -/
def State.midToDst (s : State) : Binding := ⟨.mid, s.midLen, .dst, s.dstCap⟩

/-- The table of R170: the parameters of a stage of a command, none if the command has no such stage. -/
def binding (c : Command) (st : Stage) (s : State) : Option Binding :=
  match c, st with
  | .compress, .compress => some s.srcToDst
  | .decompress, .decompress => some s.srcToDst
  | .escape, .escape => some s.srcToDst
  | .unescape, .unescape => some s.srcToDst
  | .encode, .compress => some s.srcToMid
  | .encode, .escape => some s.midToDst
  | .decode, .unescape => some s.srcToMid
  | .decode, .decompress => some s.midToDst
  | _, _ => none

/-- The parameters of the stage, if it is the one running (R45). -/
def runningStage (c : Command) (st : Stage) (s : State) : Option Binding :=
  if s.phase = .busy ∧ s.stage = st then binding c st s else none

/-- The first stage of a command (R170). -/
def firstStage : Command → Stage
  | .compress => .compress
  | .decompress => .decompress
  | .escape => .escape
  | .unescape => .unescape
  | .encode => .compress
  | .decode => .unescape

/-- Tests 2 to 4 of START's validation (R179): the status a capacity is refused with, if it is. -/
def startRefusal (c : Command) (s : State) : Option Status :=
  match c with
  | .compress => none
  | .decompress => none
  | .escape => if s.dstCap = 0 then some .badCapacity else none
  | .unescape => if s.dstCap < s.srcLen then some .badCapacity else none
  | .encode => if s.dstCap = 0 then some .badCapacity else none
  | .decode => if s.midCap < s.srcLen then some .badCapacity else none

/-- The value of `PHASE` (R25). -/
def Phase.code : Phase → BitVec 2
  | .idle => 0
  | .busy => 1
  | .done => 2

/-- The value of `STATUS` (R200). -/
def Status.code : Status → BitVec 4
  | .ok => 0
  | .compEngineInitFailed => 1
  | .compEngineStepFailed => 2
  | .compBufferTooSmall => 3
  | .decEngineInitFailed => 4
  | .decTruncated => 5
  | .malformedEscape => 6
  | .badCommand => 7
  | .badCapacity => 8

/-- The value of `STAGE` (R26). -/
def Stage.code : Stage → BitVec 3
  | .none => 0
  | .compress => 1
  | .escape => 2
  | .unescape => 3
  | .decompress => 4

/-! ### The bytes of a space -/

/-- Addresses strictly rise: the canonical form of a memory (log 5). -/
abbrev Memory.wf (m : Memory) : Prop := m.Pairwise fun p q => p.1 < q.1

/-- Every listed address is one of a space of `n` indices (R60). -/
abbrev Memory.within (n : Nat) (m : Memory) : Prop := ∀ p ∈ m, p.1 < n

/-- The byte listed at an index. -/
def cellAt : Memory → Nat → Option Byte
  | [], _ => none
  | (k, v) :: m, i => if k = i then some v else cellAt m i

/-- The draw that covers an index: the newest region holding it, else the draw of the last reset. -/
def drawAt (base : Nat) : List Region → Nat → Nat
  | [], _ => base
  | r :: rs, i => if r.lo ≤ i ∧ i < r.hi then r.draw else drawAt base rs i

/-- The buffer of a space. -/
def State.buffer (s : State) : Space → Buffer
  | .src => s.src
  | .mid => s.mid
  | .dst => s.dst

/-- `MemRead(space:i, 1)`: the byte listed there, else the free value its draw gives it: the same at
every read until something writes it (R72). -/
def State.readByte (env : Config.Environment) (s : State) (sp : Space) (i : Nat) : Byte :=
  match cellAt (s.buffer sp).cells i with
  | some v => v
  | none => env.anyByte (drawAt (s.buffer sp).base (s.buffer sp).arbitrary i) sp i

/-- `space[0..n)` as a byte sequence (R8). -/
def State.readBytes (env : Config.Environment) (s : State) (sp : Space) (n : Nat) : List Byte :=
  (List.range n).map fun i => s.readByte env sp i

/-- A byte sequence laid out from an index upward. -/
def place : Nat → List Byte → Memory
  | _, [] => []
  | i, b :: bs => (i, b) :: place (i + 1) bs

/-- Write a byte sequence at consecutive indices from `i`. -/
def splice (m : Memory) (i : Nat) (bs : List Byte) : Memory :=
  m.filter (fun c => decide (c.1 < i)) ++ place i bs
    ++ m.filter (fun c => decide (i + bs.length ≤ c.1))

/-- Write bytes into a buffer. -/
def Buffer.write (b : Buffer) (i : Nat) (bs : List Byte) : Buffer :=
  { b with cells := splice b.cells i bs }

/-- `havoc D[lo..hi)` (R119): those bytes hold the arbitrary values of a draw. -/
def Buffer.havoc (b : Buffer) (lo hi draw : Nat) : Buffer :=
  { b with
    cells := b.cells.filter (fun c => decide (c.1 < lo ∨ hi ≤ c.1)),
    arbitrary := ⟨lo, hi, draw⟩ :: b.arbitrary }

end Sys2Proof.Machine
end

