-- ==== Sys2Proof/Machine/Flags.lean ====
section
/-! DEFINITION. The only flag, TRUNC (spec 10_state R28), and the capacity check that sets it
(41 R136). -/

namespace Sys2Proof.Machine

/-- The capacity check of the escape stage passes: `WP + n ≤ C - 1`, in natural numbers (R136, R237). -/
def unitFits (wp cap : Nat) (n : Nat) : Bool := decide (wp + n ≤ cap - 1)

/-- `TRUNC <- 1`: the check failed and the scan stops early (R136). -/
def State.truncated (s : State) : State := { s with trunc := true }

/-- The soft condition EncodeTruncated: `STATUS = OK` and `TRUNC = 1` (R177, R209). -/
def State.encodeTruncated (s : State) : Bool := decide (s.status = .ok) && s.trunc

end Sys2Proof.Machine
end

