-- ==== Sys2Proof/Machine/Ops.lean ====
section
/-! DEFINITION. The named operations: buffer writes, cursors, draws, completion (spec 10 R43), raising an
error (60 R210), going on to a second stage (43 R170), START (10 R41) and reset (70 R230). -/

namespace Sys2Proof.Machine

/-- Replace the buffer of a space. -/
def State.setBuffer (s : State) (sp : Space) (b : Buffer) : State :=
  match sp with
  | .src => { s with src := b }
  | .mid => { s with mid := b }
  | .dst => { s with dst := b }

/-- `MemWrite` of consecutive bytes from `space:i` (R62, R66). -/
def State.store (s : State) (sp : Space) (i : Nat) (bs : List Byte) : State :=
  s.setBuffer sp ((s.buffer sp).write i bs)

/-- `havoc space[lo..hi)` with the values of a draw (R119). -/
def State.havoc (s : State) (sp : Space) (lo hi draw : Nat) : State :=
  s.setBuffer sp ((s.buffer sp).havoc lo hi draw)

/-- `RP <- RP + r; WP <- WP + w` (R37, R66). -/
def State.advance (s : State) (r w : Nat) : State :=
  { s with rp := s.rp + r, wp := s.wp + w }

/-- The environment makes a draw. -/
def State.drawn (s : State) : State := { s with draws := s.draws + 1 }

/-- Completion without error: `LEN <- n; STATUS <- OK`, then `STAGE <- ST_NONE; PHASE <- DONE` (R43). -/
def State.complete (s : State) (n : Nat) : State :=
  { s with len := n, status := .ok, stage := .none, phase := .done }

/-- `raise code` in a command: the error-completion sequence (R210). -/
def State.raise (s : State) (c : Command) (code : Status) : State :=
  { s with
    status := code
    len := if code = .malformedEscape ∧ c = .unescape then s.wp else 0
    midLen := if code = .malformedEscape ∧ c = .decode then s.wp else s.midLen
    stage := .none
    phase := .done }

/-- A stage returned `n`: the first stage of a composite command hands over to the second, `MID_LEN`
taking its length (R170, R171, R172); any other completes the command. A scan that begins sets its
cursors and `TRUNC` to 0 (R130); the decompress stage leaves the cursors alone (R30, R31). -/
def State.stageReturn (s : State) (c : Command) (st : Stage) (n : Nat) : State :=
  match c, st with
  | .encode, .compress =>
    { s with midLen := n, stage := .escape, rp := 0, wp := 0, trunc := false }
  | .decode, .unescape => { s with midLen := n, stage := .decompress }
  | _, _ => s.complete n

/-- The clearing START begins with (R41). -/
def State.clearResults (s : State) : State :=
  { s with status := .ok, trunc := false, len := 0, rp := 0, wp := 0, midLen := 0 }

/-- START's end when the command is refused (R41, R179). -/
def State.refuse (s : State) (code : Status) : State :=
  { s with status := code, phase := .done, stage := .none }

/-- START's end when the command is accepted (R41). -/
def State.accept (s : State) (c : Command) : State :=
  { s with phase := .busy, stage := firstStage c }

/-- START with a command selected, in a block that is not `BUSY` (R41, R179). -/
def beginCommand (c : Command) (s : State) : State :=
  match startRefusal c s with
  | some code => s.clearResults.refuse code
  | none => s.clearResults.accept c

/-- START with a reserved code in `OP`, in a block that is not `BUSY` (R81, R207). -/
def refuseReserved (s : State) : State := s.clearResults.refuse .badCommand

/-- `host_start` (R41); ignored while `BUSY` (R44). -/
def hostStart (s : State) : State :=
  if s.phase = .busy then s
  else
    match commandOf s.op with
    | some c => beginCommand c s
    | none => refuseReserved s

/-- `host_reset` (R230, R231): the registers of R36, every buffer byte unspecified. The host's own
queue and last reply, and the count of draws, are no state of the block and stay (log 16). -/
def hostReset (s : State) : State :=
  { State.reset with
    src := Buffer.unknown s.draws
    mid := Buffer.unknown s.draws
    dst := Buffer.unknown s.draws
    draws := s.draws + 1
    turns := s.turns
    reply := s.reply }

/-- A code unit or input byte executed by itself: under the command that `OP` selects. -/
def underCommand (s : State) (k : Command → Result) : Result :=
  match commandOf s.op with
  | some c => k c
  | none => .refused .noScanRunning

end Sys2Proof.Machine
end

