-- ==== Sys2Proof/Machine/Engine.lean ====
section
/-! DEFINITION. The compress and decompress stages: one atomic step each over the engine's two functions
and its draws (spec 40 R110 to R119, R122, R123; 60 R212). -/

namespace Sys2Proof.Machine

/-- An engine stage delivers its output: `D[0..n)` holds it, `D[n..C)` is arbitrary (R119). -/
def State.deliver (s : State) (b : Binding) (out : List Byte) (draw : Nat) : State :=
  (s.store b.dst 0 out).havoc b.dst out.length b.cap draw

/-- An engine stage fails after initialisation: `D[0..C)` is arbitrary and the error is raised (R119). -/
def engineFailure (c : Command) (b : Binding) (code : Status) (draw : Nat) (s : State) : Result :=
  .next ((s.havoc b.dst 0 b.cap draw).raise c code)

/-- `compress_stage` (R115), one step. One draw number serves the stage's `init_ok`, `step_ok` and
arbitrary bytes, each a function of its own (log 4). -/
def compressStep (env : Config.Environment) (c : Command) (s : State) : Result :=
  match runningStage c .compress s with
  | none => .fault .noStageRunning
  | some b =>
    if !env.initOk s.draws then .next (s.drawn.raise c .compEngineInitFailed)
    else
      let z := env.deflate (s.readBytes env b.src b.len)
      if b.cap < z.length then engineFailure c b .compBufferTooSmall s.draws s.drawn
      else if !env.stepOk s.draws then engineFailure c b .compEngineStepFailed s.draws s.drawn
      else
        .next ((s.drawn.deliver b z s.draws).stageReturn c .compress z.length)

/-- `decompress_stage` (R116), one step. -/
def decompressStep (env : Config.Environment) (c : Command) (s : State) : Result :=
  match runningStage c .decompress s with
  | none => .fault .noStageRunning
  | some b =>
    if !env.initOk s.draws then .next (s.drawn.raise c .decEngineInitFailed)
    else
      match env.inflate (s.readBytes env b.src b.len) with
      | none => engineFailure c b .decTruncated s.draws s.drawn
      | some x =>
        if b.cap < x.length then engineFailure c b .decTruncated s.draws s.drawn
        else
          .next ((s.drawn.deliver b x s.draws).stageReturn c .decompress x.length)

end Sys2Proof.Machine
end

