-- ==== Sys2Proof/Machine/Escape.lean ====
section
/-! DEFINITION. The escape stage and its four input classes (spec 41 R130 to R138). -/

namespace Sys2Proof.Machine

/-- The finish of the escape scan: the terminator at `D:WP`, not counted in the returned length, and
the command completes (R137, R139, R171). -/
def escapeFinish (c : Command) (b : Binding) (s : State) : Result :=
  if s.wp < b.cap then
    .next ((s.store b.dst s.wp [Config.term]).stageReturn c .escape s.wp)
  else .fault (.outsideExtent b.dst s.wp)

/-- What an input byte that becomes the bytes `out` does: if they fit below the terminator's slot they
are written, `WP + n`, `RP + 1`; if not, `TRUNC <- 1`, nothing is written and the scan finishes (R132
to R136). -/
def emitUnit (c : Command) (out : List Byte) (s : State) : Result :=
  match runningStage c .escape s with
  | none => .refused .noScanRunning
  | some b =>
    if b.len ≤ s.rp then .fault (.outsideExtent b.src s.rp)
    else if unitFits s.wp b.cap out.length then
      .next ((s.store b.dst s.wp out).advance 1 out.length)
    else escapeFinish c b s.truncated

/-- Class `E.Q0` (R132): `M0`, then the payload. -/
def inputQ0 (c : Command) (b : Byte) (s : State) : Result :=
  emitUnit c [Config.markers.m0, payloadOf b] s

/-- Class `E.BS` (R133): `M1`, then the payload. -/
def inputBs (c : Command) (b : Byte) (s : State) : Result :=
  emitUnit c [Config.markers.m1, payloadOf b] s

/-- Class `E.MK` (R134): `M3`, then the payload. -/
def inputMk (c : Command) (b : Byte) (s : State) : Result :=
  emitUnit c [Config.markers.m3, payloadOf b] s

/-- Class `E.LIT` (R135): the byte unchanged. -/
def inputLit (c : Command) (b : Byte) (s : State) : Result := emitUnit c [b] s

/-- The escape loop's body for an input byte, by its class (R131). -/
def inputByte (c : Command) (b : Byte) (s : State) : Result :=
  match classOf b with
  | .q0 => inputQ0 c b s
  | .bs => inputBs c b s
  | .mk => inputMk c b s
  | .lit => inputLit c b s

/-- One `escape_step`: one pass through the loop of R138, or the finish of R137. -/
def escapeStep (env : Config.Environment) (c : Command) (s : State) : Result :=
  match runningStage c .escape s with
  | none => .fault .noStageRunning
  | some b =>
    if s.rp = b.len then escapeFinish c b s
    else if b.len < s.rp then .fault (.outsideExtent b.src s.rp)
    else inputByte c (s.readByte env b.src s.rp) s

/-- `E.Q0` (R132). -/
def execEQ0 (b : Byte) (s : State) : Result := underCommand s fun c => inputQ0 c b s

/-- `E.BS` (R133). -/
def execEBs (b : Byte) (s : State) : Result := underCommand s fun c => inputBs c b s

/-- `E.MK` (R134). -/
def execEMk (b : Byte) (s : State) : Result := underCommand s fun c => inputMk c b s

/-- `E.LIT` (R135). -/
def execELit (b : Byte) (s : State) : Result := underCommand s fun c => inputLit c b s

end Sys2Proof.Machine
end

