-- ==== Sys2Proof/Machine/Unescape.lean ====
section
/-! DEFINITION. The unescape stage and its five code units (spec 42 R150 to R161). -/

namespace Sys2Proof.Machine

/-- The lone marker: `raise MALFORMED_ESCAPE(RP)`, the payload position not read (R156). -/
def loneMarker (c : Command) (s : State) : Result := .next (s.raise c .malformedEscape)

/-- What a code unit of `size` bytes that stands for byte `v` does: `MemWrite(D:WP, 1, v)`, `WP + 1`,
`RP + size`; a marker that is the last byte of the source raises instead (R151 to R156). -/
def consumeUnit (c : Command) (size : Nat) (v : Byte) (s : State) : Result :=
  match runningStage c .unescape s with
  | none => .refused .noScanRunning
  | some b =>
    if b.len ≤ s.rp then .fault (.outsideExtent b.src s.rp)
    else if b.len < s.rp + size then loneMarker c s
    else if b.cap ≤ s.wp then .fault (.outsideExtent b.dst s.wp)
    else .next ((s.store b.dst s.wp [v]).advance size 1)

/-- Unit `LIT` (R151). -/
def unitLit (c : Command) (v : Byte) (s : State) : Result := consumeUnit c 1 v s

/-- Unit `ESC0` (R152): base 0. -/
def unitEsc0 (c : Command) (p : Byte) (s : State) : Result := consumeUnit c 2 (pairValue 0 p) s

/-- Unit `ESC1` (R153): base 64. -/
def unitEsc1 (c : Command) (p : Byte) (s : State) : Result := consumeUnit c 2 (pairValue 1 p) s

/-- Unit `ESC2` (R154): base 128; accepted although no encoder emits it. -/
def unitEsc2 (c : Command) (p : Byte) (s : State) : Result := consumeUnit c 2 (pairValue 2 p) s

/-- Unit `ESC3` (R155): base 192. -/
def unitEsc3 (c : Command) (p : Byte) (s : State) : Result := consumeUnit c 2 (pairValue 3 p) s

/-- The unescape loop's body for a pair (R152 to R155). -/
def unitPair (c : Command) (i : Fin 4) (p : Byte) (s : State) : Result :=
  match i with
  | 0 => unitEsc0 c p s
  | 1 => unitEsc1 c p s
  | 2 => unitEsc2 c p s
  | 3 => unitEsc3 c p s

/-- One `unescape_step`: one pass through the loop of R158, or the finish of R157, which writes nothing. -/
def unescapeStep (env : Config.Environment) (c : Command) (s : State) : Result :=
  match runningStage c .unescape s with
  | none => .fault .noStageRunning
  | some b =>
    if s.rp = b.len then .next (s.stageReturn c .unescape s.wp)
    else if b.len < s.rp then .fault (.outsideExtent b.src s.rp)
    else
      let m := s.readByte env b.src s.rp
      if !isMarker m then unitLit c m s
      else if s.rp + 1 = b.len then loneMarker c s
      else unitPair c (bucket m) (s.readByte env b.src (s.rp + 1)) s

/-- `LIT` (R151). -/
def execLit (v : Byte) (s : State) : Result := underCommand s fun c => unitLit c v s

/-- `ESC0` (R152). -/
def execEsc0 (hi : BitVec 2) (low6 : BitVec 6) (s : State) : Result :=
  underCommand s fun c => unitEsc0 c (payloadByte hi low6) s

/-- `ESC1` (R153). -/
def execEsc1 (hi : BitVec 2) (low6 : BitVec 6) (s : State) : Result :=
  underCommand s fun c => unitEsc1 c (payloadByte hi low6) s

/-- `ESC2` (R154). -/
def execEsc2 (hi : BitVec 2) (low6 : BitVec 6) (s : State) : Result :=
  underCommand s fun c => unitEsc2 c (payloadByte hi low6) s

/-- `ESC3` (R155). -/
def execEsc3 (hi : BitVec 2) (low6 : BitVec 6) (s : State) : Result :=
  underCommand s fun c => unitEsc3 c (payloadByte hi low6) s

end Sys2Proof.Machine
end

