-- ==== Sys2Proof/Machine/Framer.lean ====
section
/-! DEFINITION. The sequencer and the six commands (spec 10 R45; 43 R170 to R189; 40 R117, R118;
41 R139; 42 R159; 70 R247). -/

namespace Sys2Proof.Machine

/-- The one sequencer step a `BUSY` block has enabled (R45). -/
def sequencerStep (env : Config.Environment) (c : Command) (s : State) : Result :=
  match s.stage with
  | .none => .fault .noStageRunning
  | .compress => compressStep env c s
  | .escape => escapeStep env c s
  | .unescape => unescapeStep env c s
  | .decompress => decompressStep env c s

/-- Sequencer steps until the block is no longer `BUSY`, at most `n` of them. -/
def runToDone (env : Config.Environment) (c : Command) : Nat → State → Result
  | 0, s => if s.phase = .busy then .fault .stepBound else .next s
  | n + 1, s =>
    if s.phase = .busy then
      match sequencerStep env c s with
      | .next s' => runToDone env c n s'
      | .fault f => .fault f
      | .refused r => .refused r
    else .next s

/-- At least the number of sequencer steps any command takes from START (R247). -/
def stepLimit (s : State) : Nat := s.srcLen + s.midCap + 2

/-- A whole command: START, then the sequencer until `DONE` (R189); ignored while `BUSY` (R44). -/
def runCommand (env : Config.Environment) (c : Command) (s : State) : Result :=
  if s.phase = .busy then .next s
  else runToDone env c (stepLimit s) (beginCommand c s)

/-- `COMPRESS` (R117). -/
def execCompress (s : State) : Result := runCommand Config.environment .compress s

/-- `DECOMPRESS` (R118). -/
def execDecompress (s : State) : Result := runCommand Config.environment .decompress s

/-- `ESCAPE` (R139). -/
def execEscape (s : State) : Result := runCommand Config.environment .escape s

/-- `UNESCAPE` (R159). -/
def execUnescape (s : State) : Result := runCommand Config.environment .unescape s

/-- `ENCODE` (R171). -/
def execEncode (s : State) : Result := runCommand Config.environment .encode s

/-- `DECODE` (R172). -/
def execDecode (s : State) : Result := runCommand Config.environment .decode s

end Sys2Proof.Machine
end

