-- ==== Sys2Proof/Machine/Dispatch.lean ====
section
/-! DEFINITION. The meaning of each instruction, one arm a constructor. -/

namespace Sys2Proof.Machine

/-- What an instruction does. -/
def exec (i : Instr) (s : State) : Host.Outcome State Fault Refusal :=
  match i with
  | .compress => Sys2Proof.Machine.execCompress s
  | .decompress => Sys2Proof.Machine.execDecompress s
  | .escape => Sys2Proof.Machine.execEscape s
  | .unescape => Sys2Proof.Machine.execUnescape s
  | .encode => Sys2Proof.Machine.execEncode s
  | .decode => Sys2Proof.Machine.execDecode s
  | .lit v => Sys2Proof.Machine.execLit v s
  | .esc0 hi low6 => Sys2Proof.Machine.execEsc0 hi low6 s
  | .esc1 hi low6 => Sys2Proof.Machine.execEsc1 hi low6 s
  | .esc2 hi low6 => Sys2Proof.Machine.execEsc2 hi low6 s
  | .esc3 hi low6 => Sys2Proof.Machine.execEsc3 hi low6 s
  | .eQ0 b => Sys2Proof.Machine.execEQ0 b s
  | .eBs b => Sys2Proof.Machine.execEBs b s
  | .eMk b => Sys2Proof.Machine.execEMk b s
  | .eLit b => Sys2Proof.Machine.execELit b s

end Sys2Proof.Machine
end

