-- ==== Sys2Proof/Machine/HostMoves.lean ====
section
/-! DEFINITION. The host's six moves (spec 10_state R38 to R44; 70 R230). -/

namespace Sys2Proof.Machine

/-- A number as the interface passes it on: cut to `AW` bits (R39, R40). -/
def cutToWidth (env : Config.Environment) (v : Nat) : Nat := v % 2 ^ env.aw

/-- `host_write_reg` (R39): ignored while `BUSY`. -/
def hostWriteReg (env : Config.Environment) (r : RegWrite) (s : State) : State :=
  if s.phase = .busy then s
  else
    match r with
    | .op v => { s with op := v }
    | .srcLen v => { s with srcLen := cutToWidth env v }
    | .dstCap v => { s with dstCap := cutToWidth env v }
    | .midCap v => { s with midCap := cutToWidth env v }

/-- The value of a register, at its width (R42). -/
def regValue (r : ReadReg) (s : State) : Reply :=
  match r with
  | .op => .op s.op
  | .srcLen => .word s.srcLen
  | .dstCap => .word s.dstCap
  | .midCap => .word s.midCap
  | .phase => .phase s.phase.code
  | .status => .status s.status.code
  | .trunc => .trunc (BitVec.ofBool s.trunc)
  | .len => .word s.len
  | .rp => .word s.rp
  | .wp => .word s.wp
  | .midLen => .word s.midLen

/-- Any value at the width of a result register, from a draw; none for a register that is readable at
any time (R42). -/
def unspecifiedValue (env : Config.Environment) (r : ReadReg) (n : Nat) : Option Reply :=
  match r with
  | .op => none
  | .srcLen => none
  | .dstCap => none
  | .midCap => none
  | .phase => none
  | .status => some (.status (BitVec.ofNat 4 n))
  | .trunc => some (.trunc (BitVec.ofNat 1 n))
  | .len => some (.word (cutToWidth env n))
  | .rp => some (.word (cutToWidth env n))
  | .wp => some (.word (cutToWidth env n))
  | .midLen => some (.word (cutToWidth env n))

/-- `host_read_reg` (R42): a result register read while `BUSY` returns an unspecified value. -/
def hostReadReg (env : Config.Environment) (r : ReadReg) (s : State) : State :=
  if s.phase = .busy then
    match unspecifiedValue env r (env.anyRead s.draws) with
    | some v => { s.drawn with reply := some v }
    | none => { s with reply := some (regValue r s) }
  else { s with reply := some (regValue r s) }

/-- The space a buffer read names. -/
def ReadBuf.space : ReadBuf → Space
  | .src => .src
  | .dst => .dst

/-- One host move. A buffer access while `BUSY` is no move of the host (R40, log 11). -/
def hostMove (env : Config.Environment) (m : HostMove) (s : State) : Result :=
  match m with
  | .writeReg r => .next (hostWriteReg env r s)
  | .writeSrc i v =>
    if s.phase = .busy then .refused .hostBufferMoveWhileBusy
    else .next (s.store .src (cutToWidth env i) [v])
  | .readReg r => .next (hostReadReg env r s)
  | .readBuf b i =>
    if s.phase = .busy then .refused .hostBufferMoveWhileBusy
    else .next { s with reply := some (.byte (s.readByte env b.space (cutToWidth env i))) }
  | .start => .next (hostStart s)
  | .reset => .next (hostReset s)

end Sys2Proof.Machine
end

