-- ==== Sys2Proof/Machine/Fetch.lean ====
section
/-! DEFINITION. Fetching: which instruction a step runs (spec 10 R21, R30, R41, R45; 20 R66; 30 R82), and
placing one where the next step fetches it. -/

namespace Sys2Proof.Machine

/-- The source bytes the unescape scan may look at: the byte at `RP`, and the one after it if the
source has one (R66, R156). -/
def unitBytes (env : Config.Environment) (b : Binding) (s : State) : List Byte :=
  if s.rp + 1 < b.len then
    [s.readByte env b.src s.rp, s.readByte env b.src (s.rp + 1)]
  else [s.readByte env b.src s.rp]

/-- The code unit or input byte at `RP` of the running scan. There is none at the end of the source,
at a lone marker, and in an engine stage. -/
def fetchUnit (env : Config.Environment) (s : State) : Option Instr :=
  match commandOf s.op with
  | none => none
  | some c =>
    match runningStage c s.stage s with
    | none => none
    | some b =>
      if b.len ≤ s.rp then none
      else
        match s.stage with
        | .escape => some (decodeInput (s.readByte env b.src s.rp))
        | .unescape =>
          match decodeUnit (unitBytes env b s) with
          | .ok (i, _) => some i
          | .error _ => none
        | .none => none
        | .compress => none
        | .decompress => none

/-- A sequencer step by itself: run the unit fetched; where there is none to fetch, take the step's
finish, lone marker or engine call (R45). A block that is not `BUSY` has no step enabled and waits. -/
def sequencerMove (env : Config.Environment) (s : State) : Result :=
  if s.phase = .busy then
    match fetchUnit env s with
    | some i => exec i s
    | none =>
      match commandOf s.op with
      | some c => sequencerStep env c s
      | none => .fault .noStageRunning
  else .next s

/-- START and the whole command in one step: run the command that `OP` selects; a reserved code is
refused (R81, R189), and START is ignored while `BUSY` (R44). -/
def commandMove (s : State) : Result :=
  match decodeCommand s.op with
  | .ok i => exec i s
  | .error _ => .next (hostStart s)

/-- One move of whoever's turn it is. With no turn queued a `BUSY` block takes its step (R247's
fairness) and any other block waits (R230). -/
def nextMove (env : Config.Environment) (s : State) : Result :=
  match s.turns with
  | [] => sequencerMove env s
  | .host m :: ts => hostMove env m { s with turns := ts }
  | .sequencer :: ts => sequencerMove env { s with turns := ts }
  | .command :: ts => commandMove { s with turns := ts }

/-- Bytes in `SRC` at the cursor, and a scan of them about to take its next step. -/
def placeScan (s : State) (op : BitVec 3) (st : Stage) (bytes : List Byte) : State :=
  { s.store .src 0 bytes with
    op := op
    srcLen := bytes.length
    dstCap := 4
    phase := .busy
    stage := st
    rp := 0
    wp := 0
    turns := .sequencer :: s.turns }

/-- An instruction stored where the next step fetches it (log 16): a command code in `OP` of a block
that is not `BUSY`, with START next; a code unit or input byte in `SRC` under a running scan. -/
def placeWord (s : State) (nbits w : Nat) : State :=
  match codedOfTable nbits w with
  | none => s
  | some (.cmd op) =>
    { s with
      op := op
      phase := if s.phase = .busy then .idle else s.phase
      stage := .none
      turns := .command :: s.turns }
  | some (.unit bytes) => placeScan s 4 .unescape bytes
  | some (.input b) => placeScan s 3 .escape [b]

end Sys2Proof.Machine
end

