-- ==== Sys2Proof/Machine/Step.lean ====
section
/-! DEFINITION. One step of the machine (spec 10_state R45). -/

namespace Sys2Proof.Machine

/-- One step: the move of whoever's turn it is. -/
def step (s : State) : Host.Outcome State Fault Refusal := nextMove Config.environment s

/-- `s` with an instruction of the opcode table where the next step fetches it. -/
def State.withFetchWord (s : State) (nbits w : Nat) : State := placeWord s nbits w

end Sys2Proof.Machine
end

