-- ==== Sys2Proof/Machine/Results.lean ====
section
/-! DEFINITION. What a completed command returns in the terms of B252's signatures (spec 60 R220; the
error types of R200's third column). -/

namespace Sys2Proof.Machine

/-- `CompressError`: codes 1 to 3 (R200). -/
inductive CompressError where
  | engineInitFailed
  | engineStepFailed
  | bufferTooSmall
deriving DecidableEq, Repr

/-- `DecompressError`: codes 4 and 5 (R200). -/
inductive DecompressError where
  | engineInitFailed
  | truncated
deriving DecidableEq, Repr

/-- What `decode` fails with: code 6, or a failure of its decompress stage (R200, R220). -/
inductive DecodeError where
  | malformedEscape
  | decompress (e : DecompressError)
deriving DecidableEq, Repr

/-- The `CompressError` of a status, if it is one. -/
def Status.compressError : Status → Option CompressError
  | .compEngineInitFailed => some .engineInitFailed
  | .compEngineStepFailed => some .engineStepFailed
  | .compBufferTooSmall => some .bufferTooSmall
  | .ok => none
  | .decEngineInitFailed => none
  | .decTruncated => none
  | .malformedEscape => none
  | .badCommand => none
  | .badCapacity => none

/-- The `DecompressError` of a status, if it is one. -/
def Status.decompressError : Status → Option DecompressError
  | .decEngineInitFailed => some .engineInitFailed
  | .decTruncated => some .truncated
  | .ok => none
  | .compEngineInitFailed => none
  | .compEngineStepFailed => none
  | .compBufferTooSmall => none
  | .malformedEscape => none
  | .badCommand => none
  | .badCapacity => none

/-- The `DecodeError` of a status, if it is one. -/
def Status.decodeError (code : Status) : Option DecodeError :=
  if code = .malformedEscape then some .malformedEscape
  else code.decompressError.map .decompress

/-- `DST[0..LEN)`: the only bytes of `DST` a host may rely on (R238, R246). -/
def State.output (env : Config.Environment) (s : State) : List Byte :=
  s.readBytes env .dst s.len

/-- `Ok` with a value where the command ended `OK`, `Err` where its status is an error of the call, and
nothing where it has no counterpart: a refused START (codes 7 and 8, R220). -/
def State.callResult {ε α : Type} (s : State) (value : α) (err : Option ε) : Option (Except ε α) :=
  if s.status = .ok then some (.ok value) else err.map .error

/-- What `compress` returns (R220). -/
def State.compressResult (env : Config.Environment) (s : State) :
    Option (Except CompressError (List Byte)) :=
  s.callResult (s.output env) s.status.compressError

/-- What `decompress` returns (R220). -/
def State.decompressResult (env : Config.Environment) (s : State) :
    Option (Except DecompressError (List Byte)) :=
  s.callResult (s.output env) s.status.decompressError

/-- What `encode` returns: the text and its length, with the truncated bit of B252 §9 (R220). -/
def State.encodeResult (env : Config.Environment) (s : State) :
    Option (Except CompressError (List Byte × Nat × Bool)) :=
  s.callResult (s.output env, s.len, s.trunc) s.status.compressError

/-- What `decode` returns: the bytes and their length (R220). -/
def State.decodeResult (env : Config.Environment) (s : State) :
    Option (Except DecodeError (List Byte × Nat)) :=
  s.callResult (s.output env, s.len) s.status.decodeError

end Sys2Proof.Machine
end

