-- ==== Sys2Proof/Safety.lean ====
section
/-! DEFINITION. The terms of the claims: the closed forms of the two transforms (spec 41 R142, 42 R163),
the safe-text invariant (43 R180), what a step leaves unchanged, and the machine's invariant (10 R26;
41 R138; 42 R162; 70 R237; 60 R213). -/

namespace Sys2Proof

/-! ### Closed forms, for any assignment of the markers -/

/-- `esc1(b)` (R142). -/
def escapeOneIn (k : Config.Markers) (b : Byte) : List Byte :=
  if needsEscapeIn k b then [k.nth ⟨b.toNat / 64, by have := b.isLt; omega⟩, payloadOf b] else [b]

/-- `escape_fn(x)` (R142). -/
def escapeFnIn (k : Config.Markers) (x : List Byte) : List Byte := x.flatMap (escapeOneIn k)

/-- `unescape_fn(t)` (R163); `none` is `malformed`. -/
def unescapeFnIn (k : Config.Markers) : List Byte → Option (List Byte)
  | [] => some []
  | [m] => if isMarkerIn k m then none else some [m]
  | m :: p :: t =>
    if isMarkerIn k m then (unescapeFnIn k t).map (unbiasIn k m p :: ·)
    else (unescapeFnIn k (p :: t)).map (m :: ·)

/-- `esc1(b)`, with the markers of this hardware. -/
def escapeOne (b : Byte) : List Byte := escapeOneIn Config.markers b

/-- `escape_fn(x)`, with the markers of this hardware. -/
def escapeFn (x : List Byte) : List Byte := escapeFnIn Config.markers x

/-- `unescape_fn(t)`, with the markers of this hardware. -/
def unescapeFn (t : List Byte) : Option (List Byte) := unescapeFnIn Config.markers t

/-- `full_len(x)` (R142). -/
def fullLen (x : List Byte) : Nat := (escapeFn x).length

/-- `k` is the largest number of input bytes whose escape takes at most `room` bytes (R142). -/
def LongestFit (x : List Byte) (room k : Nat) : Prop :=
  k ≤ x.length ∧ fullLen (x.take k) ≤ room ∧ (k < x.length → room < fullLen (x.take (k + 1)))

/-! ### The safe-text invariant -/

/-- A unit is no pair with a payload outside 128..191 (R180, clause 3). -/
def unitInBand : Instr → Bool
  | .esc0 hi _ => hi == 0b10
  | .esc1 hi _ => hi == 0b10
  | .esc2 hi _ => hi == 0b10
  | .esc3 hi _ => hi == 0b10
  | .lit _ => true
  | .compress => true
  | .decompress => true
  | .escape => true
  | .unescape => true
  | .encode => true
  | .decode => true
  | .eQ0 _ => true
  | .eBs _ => true
  | .eMk _ => true
  | .eLit _ => true

/-- `SafeText(t)` (R180). -/
def safeText (t : List Byte) : Bool :=
  t.all (fun b => b != Config.nul && b != Config.quote && b != Config.backslash)
    && match parseUnits t with
       | none => false
       | some us => us.all unitInBand

/-- `EncoderImage(t)` (R180). -/
def EncoderImage (t : List Byte) : Prop := ∃ x, t = escapeFn x

namespace Machine

/-- `SRC[0..SRC_LEN)`: the input of a command (R22). -/
def State.input (env : Config.Environment) (s : State) : List Byte :=
  s.readBytes env .src s.srcLen

/-! ### What is left unchanged -/

/-- The operand registers are the same. -/
def SameOperands (s t : State) : Prop :=
  t.op = s.op ∧ t.srcLen = s.srcLen ∧ t.dstCap = s.dstCap ∧ t.midCap = s.midCap

/-- The model's own host fields are the same. -/
def SameHost (s t : State) : Prop := t.turns = s.turns ∧ t.reply = s.reply

/-- Every byte of memory but those at the listed places reads as before, whatever the environment. -/
def BytesKept (s t : State) (changed : Space → Nat → Prop) : Prop :=
  ∀ env sp i, ¬ changed sp i → t.readByte env sp i = s.readByte env sp i

/-- Every byte of memory reads as before. -/
def AllBytesKept (s t : State) : Prop := BytesKept s t fun _ _ => False

/-- The block has completed a command or refused it: `PHASE = DONE`, no stage running. -/
def Completed (t : State) : Prop := t.phase = .done ∧ t.stage = .none

/-- `RP`, `WP` and `MID_LEN` are 0. -/
def CursorsZero (t : State) : Prop := t.rp = 0 ∧ t.wp = 0 ∧ t.midLen = 0

/-- The next state of a refused START (R41, R179, R207, R208): every result register 0 but `STATUS`,
no byte of memory changed, nothing else changed. -/
def RefusedWith (s t : State) (code : Status) : Prop :=
  t.status = code ∧ Completed t ∧ t.len = 0 ∧ t.trunc = false ∧ CursorsZero t
    ∧ SameOperands s t ∧ SameHost s t ∧ t.draws = s.draws ∧ AllBytesKept s t

/-! ### The machine's invariant -/

/-- What holds of the cursors and lengths of a command while one of its stages runs: the loop
invariants of R138, R158 and R162, the preconditions R130 and R150, and R31, R32 for the engine stages. -/
def StageInv (c : Command) (s : State) : Prop :=
  match s.stage with
  | .none => False
  | .compress =>
    (c = .compress ∨ c = .encode) ∧ (c = .encode → 1 ≤ s.dstCap) ∧ CursorsZero s
  | .escape =>
    ∃ b, binding c .escape s = some b ∧ 1 ≤ b.cap ∧ s.rp ≤ b.len
      ∧ s.wp ≤ b.cap - 1 ∧ s.rp ≤ s.wp ∧ s.wp ≤ 2 * s.rp
      ∧ s.midLen ≤ s.midCap ∧ (c = .escape → s.midLen = 0)
  | .unescape =>
    ∃ b, binding c .unescape s = some b ∧ b.len ≤ b.cap ∧ s.rp ≤ b.len
      ∧ s.wp ≤ s.rp ∧ s.rp ≤ 2 * s.wp ∧ s.midLen = 0
  | .decompress =>
    (c = .decompress ∧ CursorsZero s)
      ∨ (c = .decode ∧ s.rp = s.srcLen ∧ s.wp = s.midLen ∧ s.midLen ≤ s.midCap)

/-- Every length, capacity and cursor is a number of `aw` bits (R8, R237). -/
structure State.WordsFit (aw : Nat) (s : State) : Prop where
  srcLen : s.srcLen < 2 ^ aw
  dstCap : s.dstCap < 2 ^ aw
  midCap : s.midCap < 2 ^ aw
  rp : s.rp < 2 ^ aw
  wp : s.wp < 2 ^ aw
  midLen : s.midLen < 2 ^ aw
  len : s.len < 2 ^ aw

/-- The invariant of the machine with registers of `aw` bits. -/
structure State.Inv (aw : Nat) (s : State) : Prop where
  /-- Each memory is in its canonical form. -/
  wf : ∀ sp, Memory.wf (s.buffer sp).cells
  /-- Each listed byte lies in its space (R60). -/
  within : ∀ sp, Memory.within (2 ^ aw) (s.buffer sp).cells
  /-- No length, capacity or cursor exceeds its register (R237). -/
  fit : s.WordsFit aw
  /-- `STAGE = ST_NONE` exactly when `PHASE ≠ BUSY` (R26). -/
  stage_iff : s.stage = .none ↔ s.phase ≠ .busy
  /-- `TRUNC = 1` implies `STATUS = OK` (R213). -/
  trunc_ok : s.trunc = true → s.status = .ok
  /-- `LEN` is 0 on every error and refusal but MALFORMED_ESCAPE (R178). -/
  len_zero : s.status ≠ .ok → s.status ≠ .malformedEscape → s.len = 0
  /-- In `IDLE` no command has run: the results have their reset values (R25, R36). -/
  idle_clear : s.phase = .idle → s.status = .ok ∧ s.trunc = false ∧ s.len = 0 ∧ CursorsZero s
  /-- While `BUSY` the results are as START cleared them and the running stage is one of the command's
  (R41, R45). -/
  busy_stage : s.phase = .busy → s.status = .ok ∧ s.trunc = false ∧ s.len = 0
    ∧ ∃ c, commandOf s.op = some c ∧ StageInv c s

/-- The move at the head of the queue is a buffer access. -/
def nextIsBufferMove (s : State) : Bool :=
  match s.turns with
  | .host (.writeSrc _ _) :: _ => true
  | .host (.readBuf _ _) :: _ => true
  | _ => false

/-- The next move is the host's. -/
def nextIsHostMove (s : State) : Bool :=
  match s.turns with
  | .host _ :: _ => true
  | _ => false

/-- Two states that differ at most in what earlier commands left: `STATUS`, `TRUNC`, `LEN`, the cursors,
which of `IDLE` and `DONE` the block waits in, and the contents of `MID` and `DST` (R41, R176, R239). -/
def SameButResults (s t : State) : Prop :=
  SameOperands s t ∧ SameHost s t ∧ t.draws = s.draws ∧ t.src = s.src

/-- Every register has the same value. -/
def SameRegisters (s t : State) : Prop :=
  SameOperands s t ∧ t.phase = s.phase ∧ t.stage = s.stage ∧ t.rp = s.rp ∧ t.wp = s.wp
    ∧ t.midLen = s.midLen ∧ t.status = s.status ∧ t.trunc = s.trunc ∧ t.len = s.len

end Machine

end Sys2Proof
end

