-- ==== Sys2Proof/Certificates/Slice0/Obligations.lean ====
section
/-! DEFINITION. The statements for the provers. Each docstring names the rule of spec/ it formalises; "an
inference of the spec" is a rule the spec itself marks derived. -/

namespace Sys2Proof.Claims

open Sys2Proof.Machine

/-- Nothing but the cursors changes among the registers and the model's own fields. -/
def OnlyCursorsMove (s t : State) : Prop :=
  SameOperands s t ∧ SameHost s t ∧ t.draws = s.draws ∧ t.phase = s.phase ∧ t.stage = s.stage
    ∧ t.midLen = s.midLen ∧ t.status = s.status ∧ t.trunc = s.trunc ∧ t.len = s.len

/-- In a running unescape scan with the whole unit inside the source and room in the destination, the
unit writes the byte with value `v` at `D:WP`, moves `RP` by its size and `WP` by one, and changes
nothing else. -/
def UnitRuns (i : Instr) (size v : Nat) : Prop :=
  ∀ s c b, commandOf s.op = some c → runningStage c .unescape s = some b →
    s.rp + size ≤ b.len → s.wp < b.cap →
    ∃ t, exec i s = .next t ∧ t.rp = s.rp + size ∧ t.wp = s.wp + 1
      ∧ (∀ env, (t.readByte env b.dst s.wp).toNat = v)
      ∧ BytesKept s t (fun sp j => sp = b.dst ∧ j = s.wp)
      ∧ OnlyCursorsMove s t

/-- MALFORMED_ESCAPE raised at the cursor: what it records and what it leaves (R156, R206, R210). -/
def RaisedMalformed (c : Command) (s t : State) : Prop :=
  t.status = .malformedEscape ∧ Completed t ∧ t.rp = s.rp ∧ t.wp = s.wp ∧ t.trunc = s.trunc
    ∧ (c = .unescape → t.len = s.wp ∧ t.midLen = s.midLen)
    ∧ (c = .decode → t.len = 0 ∧ t.midLen = s.wp)
    ∧ SameOperands s t ∧ SameHost s t ∧ t.draws = s.draws ∧ AllBytesKept s t

/-- In a running unescape scan, the unit at the last byte of the source raises MALFORMED_ESCAPE. -/
def UnitTrapsAtEnd (i : Instr) : Prop :=
  ∀ s c b, commandOf s.op = some c → runningStage c .unescape s = some b →
    s.rp + 1 = b.len → ∃ t, exec i s = .next t ∧ RaisedMalformed c s t

/-- In a running escape scan, where the bytes `out` fit below the terminator's slot, the input byte is
consumed: `out` is written at `D:WP`, `RP` moves by one and `WP` by the number of bytes, and nothing
else changes. -/
def InputRuns (i : Instr) (out : List Byte) : Prop :=
  ∀ s c b, commandOf s.op = some c → runningStage c .escape s = some b →
    s.rp < b.len → s.wp + out.length ≤ b.cap - 1 →
    ∃ t, exec i s = .next t ∧ t.rp = s.rp + 1 ∧ t.wp = s.wp + out.length
      ∧ (∀ env k, k < out.length → t.readByte env b.dst (s.wp + k) = out.getD k 0)
      ∧ BytesKept s t (fun sp j => sp = b.dst ∧ s.wp ≤ j ∧ j < s.wp + out.length)
      ∧ OnlyCursorsMove s t

/-- The escape scan has finished at the cursors: the terminator at `D:WP`, `LEN = WP`, `OK`, `DONE`.
-/
def ScanFinished (b : Binding) (s t : State) : Prop :=
  t.status = .ok ∧ Completed t ∧ t.rp = s.rp ∧ t.wp = s.wp ∧ t.len = s.wp ∧ t.midLen = s.midLen
    ∧ (∀ env, t.readByte env b.dst s.wp = 0x00)
    ∧ BytesKept s t (fun sp j => sp = b.dst ∧ j = s.wp)
    ∧ SameOperands s t ∧ SameHost s t ∧ t.draws = s.draws

/-- In a running escape scan, where `n` bytes do not fit below the terminator's slot, the input byte
is not consumed: `TRUNC = 1` and the scan finishes. -/
def InputTruncates (i : Instr) (n : Nat) : Prop :=
  ∀ s c b, commandOf s.op = some c → runningStage c .escape s = some b →
    s.rp < b.len → s.wp < b.cap → b.cap - 1 < s.wp + n →
    ∃ t, exec i s = .next t ∧ t.trunc = true ∧ ScanFinished b s t

/-- The parts of an outcome every command shares. -/
def CommandFrame (s t : State) : Prop :=
  Completed t ∧ SameOperands s t ∧ SameHost s t ∧ t.src = s.src

/-- An engine failure of a compress stage leaves these (R178). -/
def FailedWith (t : State) (code : Status) : Prop :=
  t.status = code ∧ t.len = 0 ∧ t.trunc = false

/-- The output of an escape stage over the input `x` with capacity `cap` (R137, R142, R178). -/
def EscapedOutput (env : Config.Environment) (x : List Byte) (cap : Nat) (t : State) : Prop :=
  t.status = .ok ∧ t.wp = t.len ∧ LongestFit x (cap - 1) t.rp
    ∧ t.len = fullLen (x.take t.rp)
    ∧ t.output env = escapeFn (x.take t.rp)
    ∧ (t.trunc = true ↔ t.rp < x.length)
    ∧ t.readByte env .dst t.len = 0x00

/-- The most sequencer steps a command takes from START to `DONE`, given the `DONE` state (R247). -/
def stepsAtMost (c : Command) (s t : State) : Nat :=
  match c with
  | .compress => 1
  | .decompress => 1
  | .escape => s.srcLen + 1
  | .unescape => s.srcLen + 1
  | .encode => t.midLen + 2
  | .decode => s.srcLen + 2

end Sys2Proof.Claims

open Sys2Proof Sys2Proof.Machine Sys2Proof.Claims

/-! ### Encoding -/

/-- R80, R83 to R88, R91: decoding the encoded form of a well-formed instruction gives it back. -/
def Obligations.DecodeEncodeRoundTrip : Prop :=
  ∀ i : Instr, i.wellFormed = true → Sys2Proof.decode (Sys2Proof.encode i) = .ok i

/-- The other direction: bits that decode at all are the encoded form of what they decode to, which is
well-formed. No two instructions of a format share a word. -/
def Obligations.EncodeDecodeRoundTrip : Prop :=
  ∀ (w : Coded) (i : Instr), Sys2Proof.decode w = .ok i → i.wellFormed = true ∧ Sys2Proof.encode i = w

/-- R81: exactly the codes 0 and 7 select no command. -/
def Obligations.ReservedCodesSelectNothing : Prop :=
  ∀ op : BitVec 3, decodeCommand op = .error (.reservedCommand op) ↔ op = 0 ∨ op = 7

/-- Sanity: words written out from the spec's encodings decode to what they stand for. -/
def Obligations.WordsDecode : Prop :=
  decodeCommand 0b001 = .ok .compress ∧ decodeCommand 0b110 = .ok .decode
    ∧ Sys2Proof.decode (.unit [0x41]) = .ok (.lit 0x41)
    ∧ Sys2Proof.decode (.unit [0xF5, 0xA2]) = .ok (.esc0 0b10 0b100010)
    ∧ Sys2Proof.decode (.unit [0xF8, 0xB7]) = .ok (.esc3 0b10 0b110111)
    ∧ Sys2Proof.decode (.input 0x5C) = .ok (.eBs 0x5C)
    ∧ Sys2Proof.decode (.input 0xF7) = .ok (.eMk 0xF7)

/-- R90: the first-byte map. The four markers take the next byte as payload, whatever it is; every
other byte is a literal of one byte. -/
def Obligations.FirstByteDecidesUnit : Prop :=
  ∀ (m : Byte) (rest : List Byte),
    (m.toNat ≤ 244 ∨ 249 ≤ m.toNat → decodeUnit (m :: rest) = .ok (.lit m, rest))
    ∧ ∀ (hi : BitVec 2) (low6 : BitVec 6),
      (m.toNat = 245 → decodeUnit (m :: payloadByte hi low6 :: rest) = .ok (.esc0 hi low6, rest))
      ∧ (m.toNat = 246 → decodeUnit (m :: payloadByte hi low6 :: rest) = .ok (.esc1 hi low6, rest))
      ∧ (m.toNat = 247 → decodeUnit (m :: payloadByte hi low6 :: rest) = .ok (.esc2 hi low6, rest))
      ∧ (m.toNat = 248 → decodeUnit (m :: payloadByte hi low6 :: rest) = .ok (.esc3 hi low6, rest))

/-- R89, an inference of the spec: a stream fails to parse exactly when, after units that parse, one
marker is left as its last byte. -/
def Obligations.OnlyLoneMarkerFailsToParse : Prop :=
  ∀ t : List Byte, parseUnits t = none
    ↔ ∃ front m, t = front ++ [m] ∧ isMarker m = true ∧ (parseUnits front).isSome = true

/-- R98, an inference of the spec: for a reserved byte the encoder emits the marker of the byte's
own bucket, which is never bucket 2, and the payload `128 + b mod 64`; the decoder makes the byte
out of that pair again. -/
def Obligations.ReservedByteEmitsItsBucketsMarker : Prop :=
  ∀ b : Byte, needsEscape b = true →
    let m : Byte := BitVec.ofNat 8 (245 + b.toNat / 64)
    let p : Byte := BitVec.ofNat 8 (128 + b.toNat % 64)
    b.toNat / 64 ≠ 2 ∧ unbiasIn Config.markers m p = b ∧ ∀ c s, inputByte c b s = emitUnit c [m, p] s

/-! ### Reset and the invariant -/

/-- R36: the register values after reset. -/
def Obligations.ResetRegisters : Prop :=
  State.reset.op = 0 ∧ State.reset.srcLen = 0 ∧ State.reset.dstCap = 0 ∧ State.reset.midCap = 0
    ∧ State.reset.phase = .idle ∧ State.reset.stage = .none ∧ State.reset.rp = 0
    ∧ State.reset.wp = 0 ∧ State.reset.midLen = 0 ∧ State.reset.status = .ok
    ∧ State.reset.trunc = false ∧ State.reset.len = 0

/-- The state after reset meets the invariant. -/
def Obligations.ResetMeetsInvariant : Prop := State.Inv Config.aw State.reset

/-- Every step, of the block or of the host, keeps the invariant: no length, capacity or cursor
exceeds `AW` bits (R237), canonical memories inside their spaces, `STAGE` and `PHASE` in agreement
(R26), the cursor bounds of both scans (R138, R162), `TRUNC = 1` only with `OK` (R213), and the rest
of `Inv`. -/
def Obligations.StepKeepsInvariant : Prop :=
  ∀ s t, State.Inv Config.aw s → step s = .next t → State.Inv Config.aw t

/-- R45, R67, inferences of the spec: from a state that meets the invariant a step never stops, and
so never makes an access outside an extent; only a host buffer access queued while `BUSY`, a move
the host does not have (R40), is refused. -/
def Obligations.StepNeverStops : Prop :=
  ∀ s, State.Inv Config.aw s → ¬ (s.phase = .busy ∧ nextIsBufferMove s = true) → ∃ t, step s = .next t

/-- R40 gives the host no such move: a host buffer access queued while `BUSY` is refused by name (the
model's choice, log 11). -/
def Obligations.BufferMoveWhileBusyRefused : Prop :=
  ∀ s, s.phase = .busy → nextIsBufferMove s = true → step s = .refused .hostBufferMoveWhileBusy

/-! ### Steps -/

/-- A step runs the decoded instruction: a queued command move runs the command `OP` decodes to; a
sequencer step of a running scan runs the unit that the bytes at `RP` decode to, or the input byte
at `RP` as an instruction of its class. A queued sequencer turn is taken off the queue and does the
same. -/
def Obligations.StepRunsDecodedInstruction : Prop :=
  (∀ s ts i, s.turns = .command :: ts → decodeCommand s.op = .ok i →
    step s = exec i { s with turns := ts })
  ∧ (∀ s c b i, s.turns = [] → commandOf s.op = some c → runningStage c .unescape s = some b →
      s.rp + 1 < b.len →
      (∃ rest, decodeUnit [s.readByte Config.environment b.src s.rp,
        s.readByte Config.environment b.src (s.rp + 1)] = .ok (i, rest)) →
      step s = exec i s)
  ∧ (∀ s c b i, s.turns = [] → commandOf s.op = some c → runningStage c .unescape s = some b →
      s.rp + 1 = b.len →
      Sys2Proof.decode (.unit [s.readByte Config.environment b.src s.rp]) = .ok i →
      step s = exec i s)
  ∧ (∀ s c b, s.turns = [] → commandOf s.op = some c → runningStage c .escape s = some b →
      s.rp < b.len →
      step s = exec (decodeInput (s.readByte Config.environment b.src s.rp)) s)
  ∧ (∀ s ts, s.turns = .sequencer :: ts →
      step s = sequencerMove Config.environment { s with turns := ts })

/-- R230: with no move queued and no command running the block does nothing. -/
def Obligations.IdleBlockWaits : Prop :=
  ∀ s, s.turns = [] → s.phase ≠ .busy → step s = .next s

/-- R156: at a lone marker the step raises MALFORMED_ESCAPE. -/
def Obligations.StepRaisesAtLoneMarker : Prop :=
  ∀ s c b, s.turns = [] → commandOf s.op = some c → runningStage c .unescape s = some b →
    s.rp + 1 = b.len →
    isMarker (s.readByte Config.environment b.src s.rp) = true →
    ∃ t, step s = .next t ∧ RaisedMalformed c s t

/-- R137: at the end of the source the escape scan finishes with the terminator, `TRUNC` as it was. -/
def Obligations.EscapeScanFinishes : Prop :=
  ∀ s c b, s.turns = [] → commandOf s.op = some c → runningStage c .escape s = some b →
    s.rp = b.len → s.wp < b.cap →
    ∃ t, step s = .next t ∧ t.trunc = s.trunc ∧ ScanFinished b s t

/-- R157, R159, R172: at the end of the source the unescape scan finishes and writes nothing; UNESCAPE
is done with `LEN = WP`, DECODE goes on to its decompress stage with `MID_LEN = WP`. -/
def Obligations.UnescapeScanFinishes : Prop :=
  ∀ s c b, s.turns = [] → commandOf s.op = some c → runningStage c .unescape s = some b →
    s.rp = b.len →
    ∃ t, step s = .next t ∧ AllBytesKept s t ∧ t.rp = s.rp ∧ t.wp = s.wp ∧ t.trunc = s.trunc
      ∧ SameOperands s t ∧ SameHost s t ∧ t.draws = s.draws
      ∧ (c = .unescape → Completed t ∧ t.status = .ok ∧ t.len = s.wp ∧ t.midLen = s.midLen)
      ∧ (c = .decode → t.phase = .busy ∧ t.stage = .decompress ∧ t.midLen = s.wp
          ∧ t.status = s.status ∧ t.len = s.len)

/-! ### Code units and input classes -/

/-- R151: the unit LIT, of a byte that is no marker, copies its byte and advances by one. -/
def Obligations.LitCopies : Prop :=
  ∀ v : Byte, isMarker v = false → UnitRuns (.lit v) 1 v.toNat

/-- R152 to R155: each pair writes its marker's base plus the low six bits, whatever the two high
bits, and advances by two; where its marker is the last byte of the source it raises
MALFORMED_ESCAPE (R156). -/
def Obligations.PairsRebuild : Prop :=
  ∀ (hi : BitVec 2) (low6 : BitVec 6),
    (UnitRuns (.esc0 hi low6) 2 (0 + low6.toNat) ∧ UnitTrapsAtEnd (.esc0 hi low6))
      ∧ (UnitRuns (.esc1 hi low6) 2 (64 + low6.toNat) ∧ UnitTrapsAtEnd (.esc1 hi low6))
      ∧ (UnitRuns (.esc2 hi low6) 2 (128 + low6.toNat) ∧ UnitTrapsAtEnd (.esc2 hi low6))
      ∧ (UnitRuns (.esc3 hi low6) 2 (192 + low6.toNat) ∧ UnitTrapsAtEnd (.esc3 hi low6))

/-- R132, R133, R134: the three classes that become a pair, each on its own bytes. -/
def Obligations.EscapedClassesEmitPair : Prop :=
  ∀ b : Byte,
    (b = 0x00 ∨ b = 0x22 → InputRuns (.eQ0 b) [0xF5, BitVec.ofNat 8 (128 + b.toNat % 64)])
      ∧ (b = 0x5C → InputRuns (.eBs b) [0xF6, BitVec.ofNat 8 (128 + b.toNat % 64)])
      ∧ (245 ≤ b.toNat ∧ b.toNat ≤ 248 →
        InputRuns (.eMk b) [0xF8, BitVec.ofNat 8 (128 + b.toNat % 64)])

/-- R135: the class E.LIT, every byte that is none of the seven reserved ones, emits its byte
unchanged. -/
def Obligations.LiteralClassEmitsByte : Prop :=
  ∀ b : Byte, needsEscape b = false → InputRuns (.eLit b) [b]

/-- R136, R137: a unit that does not fit below the terminator's slot is not written at all; `TRUNC`
is set and the scan finishes with `OK`. A pair needs two bytes, a literal one. -/
def Obligations.UnitsThatDoNotFitTruncate : Prop :=
  ∀ b : Byte,
    (b = 0x00 ∨ b = 0x22 → InputTruncates (.eQ0 b) 2)
      ∧ (b = 0x5C → InputTruncates (.eBs b) 2)
      ∧ (245 ≤ b.toNat ∧ b.toNat ≤ 248 → InputTruncates (.eMk b) 2)
      ∧ (needsEscape b = false → InputTruncates (.eLit b) 1)

/-- A code unit or an input byte while no scan of its kind is running is refused by name: R45 enables
no such step (the model's choice, log 13). -/
def Obligations.UnitsOutsideTheirScanRefused : Prop :=
  ∀ s (v : Byte) (hi : BitVec 2) (low6 : BitVec 6),
    (¬ (s.phase = .busy ∧ s.stage = .unescape) →
      exec (.lit v) s = .refused .noScanRunning ∧ exec (.esc0 hi low6) s = .refused .noScanRunning
        ∧ exec (.esc1 hi low6) s = .refused .noScanRunning
        ∧ exec (.esc2 hi low6) s = .refused .noScanRunning
        ∧ exec (.esc3 hi low6) s = .refused .noScanRunning)
    ∧ (¬ (s.phase = .busy ∧ s.stage = .escape) →
      exec (.eQ0 v) s = .refused .noScanRunning ∧ exec (.eBs v) s = .refused .noScanRunning
        ∧ exec (.eMk v) s = .refused .noScanRunning
        ∧ exec (.eLit v) s = .refused .noScanRunning)

/-! ### Commands -/

/-- R117, R115, R119, R178: COMPRESS from a block that is not `BUSY`, in every outcome of the
engine. -/
def Obligations.CompressCompletes : Prop :=
  ∀ s, s.phase ≠ .busy →
    let env := Config.environment
    let z := env.deflate (s.input env)
    ∃ t, exec .compress s = .next t ∧ CommandFrame s t ∧ t.trunc = false ∧ CursorsZero t
      ∧ t.draws = s.draws + 1 ∧ t.mid = s.mid
      ∧ BytesKept s t (fun sp i => sp = .dst ∧ i < s.dstCap)
      ∧ if env.initOk s.draws = false then FailedWith t .compEngineInitFailed ∧ t.dst = s.dst
        else if s.dstCap < z.length then FailedWith t .compBufferTooSmall
        else if env.stepOk s.draws = false then FailedWith t .compEngineStepFailed
        else t.status = .ok ∧ t.len = z.length ∧ t.output env = z

/-- R118, R116, R119, R178: DECOMPRESS from a block that is not `BUSY`, in every outcome. -/
def Obligations.DecompressCompletes : Prop :=
  ∀ s, s.phase ≠ .busy →
    let env := Config.environment
    ∃ t, exec .decompress s = .next t ∧ CommandFrame s t ∧ t.trunc = false ∧ CursorsZero t
      ∧ t.draws = s.draws + 1 ∧ t.mid = s.mid
      ∧ BytesKept s t (fun sp i => sp = .dst ∧ i < s.dstCap)
      ∧ if env.initOk s.draws = false then FailedWith t .decEngineInitFailed ∧ t.dst = s.dst
        else
          match env.inflate (s.input env) with
          | none => FailedWith t .decTruncated
          | some x =>
            if s.dstCap < x.length then FailedWith t .decTruncated
            else t.status = .ok ∧ t.len = x.length ∧ t.output env = x

/-- R139, R142: ESCAPE with at least one byte of capacity. The output is the escape of the longest
prefix of the input that fits below the terminator's slot. -/
def Obligations.EscapeCompletes : Prop :=
  ∀ s, s.phase ≠ .busy → s.dstCap ≠ 0 →
    let env := Config.environment
    ∃ t, exec .escape s = .next t ∧ CommandFrame s t ∧ t.midLen = 0 ∧ t.draws = s.draws
      ∧ t.mid = s.mid ∧ EscapedOutput env (s.input env) s.dstCap t
      ∧ BytesKept s t (fun sp i => sp = .dst ∧ i ≤ t.len)

/-- R159, R163: UNESCAPE with capacity for the length of its input. Either the whole input decodes, or
its last byte is a lone marker and everything before it is decoded and kept. -/
def Obligations.UnescapeCompletes : Prop :=
  ∀ s, s.phase ≠ .busy → s.srcLen ≤ s.dstCap →
    let env := Config.environment
    ∃ t, exec .unescape s = .next t ∧ CommandFrame s t ∧ t.midLen = 0 ∧ t.draws = s.draws
      ∧ t.trunc = false ∧ t.mid = s.mid ∧ t.wp = t.len
      ∧ BytesKept s t (fun sp i => sp = .dst ∧ i < t.len)
      ∧ match unescapeFn (s.input env) with
        | some x => t.status = .ok ∧ t.rp = s.srcLen ∧ t.output env = x
        | none => t.status = .malformedEscape ∧ t.rp + 1 = s.srcLen
            ∧ unescapeFn ((s.input env).take (s.srcLen - 1)) = some (t.output env)

/-- R171, R178: ENCODE with at least one byte of capacity, in every outcome of the engine. A failed
compress stage leaves `DST` alone and runs no escape stage. -/
def Obligations.EncodeCompletes : Prop :=
  ∀ s, s.phase ≠ .busy → s.dstCap ≠ 0 →
    let env := Config.environment
    let z := env.deflate (s.input env)
    ∃ t, exec .encode s = .next t ∧ CommandFrame s t ∧ t.draws = s.draws + 1
      ∧ BytesKept s t (fun sp i =>
          sp = .mid ∧ i < s.midCap ∨ sp = .dst ∧ t.status = .ok ∧ i ≤ t.len)
      ∧ if env.initOk s.draws = false then
          FailedWith t .compEngineInitFailed ∧ CursorsZero t ∧ t.mid = s.mid
        else if s.midCap < z.length then FailedWith t .compBufferTooSmall ∧ CursorsZero t
        else if env.stepOk s.draws = false then FailedWith t .compEngineStepFailed ∧ CursorsZero t
        else t.midLen = z.length ∧ t.readBytes env .mid z.length = z
          ∧ EscapedOutput env z s.dstCap t

/-- R172, R178: DECODE with `MID_CAP` at least the length of the text, in every outcome. A lone marker
ends it with `LEN = 0` and `DST` untouched. -/
def Obligations.DecodeCompletes : Prop :=
  ∀ s, s.phase ≠ .busy → s.srcLen ≤ s.midCap →
    let env := Config.environment
    ∃ t, exec .decode s = .next t ∧ CommandFrame s t ∧ t.trunc = false ∧ t.wp = t.midLen
      ∧ BytesKept s t (fun sp i =>
          sp = .mid ∧ i < t.midLen ∨ sp = .dst ∧ i < s.dstCap)
      ∧ match unescapeFn (s.input env) with
        | none => t.status = .malformedEscape ∧ t.len = 0 ∧ t.dst = s.dst ∧ t.draws = s.draws
            ∧ t.rp + 1 = s.srcLen
            ∧ unescapeFn ((s.input env).take (s.srcLen - 1))
                = some (t.readBytes env .mid t.midLen)
        | some y => t.draws = s.draws + 1 ∧ t.rp = s.srcLen ∧ t.midLen = y.length
            ∧ t.readBytes env .mid y.length = y
            ∧ if env.initOk s.draws = false then FailedWith t .decEngineInitFailed ∧ t.dst = s.dst
              else
                match env.inflate y with
                | none => FailedWith t .decTruncated
                | some x =>
                  if s.dstCap < x.length then FailedWith t .decTruncated
                  else t.status = .ok ∧ t.len = x.length ∧ t.output env = x

/-- R208, R179: START with a capacity the command cannot work with is refused with BAD_CAPACITY, no
byte written and every other result 0, as a whole command or as a host move. -/
def Obligations.BadCapacityRefused : Prop :=
  ∀ (c : Command) s, s.phase ≠ .busy →
    (c = .escape ∨ c = .encode) ∧ s.dstCap = 0
      ∨ c = .unescape ∧ s.dstCap < s.srcLen
      ∨ c = .decode ∧ s.midCap < s.srcLen →
    (∃ t, exec c.instr s = .next t ∧ RefusedWith s t .badCapacity)
    ∧ ∀ ts, s.op = c.code → s.turns = .host .start :: ts →
        ∃ t, step s = .next t ∧ RefusedWith { s with turns := ts } t .badCapacity

/-- R81, R207: START with a reserved code in `OP` completes at once with BAD_COMMAND and no memory
access, as a host move or as a whole command. -/
def Obligations.BadCommandRefused : Prop :=
  ∀ s ts, s.phase ≠ .busy → s.op = 0 ∨ s.op = 7 →
    s.turns = .host .start :: ts ∨ s.turns = .command :: ts →
    ∃ t, step s = .next t ∧ RefusedWith { s with turns := ts } t .badCommand

/-- R44: a command started while `BUSY` changes nothing. -/
def Obligations.CommandWhileBusyIgnored : Prop :=
  ∀ (c : Command) s, s.phase = .busy → exec c.instr s = .next s

/-- R189, an inference of the spec: a command taken as one big step is the same as START followed by
sequencer steps. -/
def Obligations.BigStepIsUnitSteps : Prop :=
  ∀ (c : Command) s, s.phase ≠ .busy → s.op = c.code → s.turns = [] →
    exec c.instr s = core.run (stepLimit s) (hostStart s)

/-- R247: every command started reaches `DONE` within its number of sequencer steps. -/
def Obligations.CommandTerminates : Prop :=
  ∀ (c : Command) s, s.phase ≠ .busy → s.op = c.code → s.turns = [] →
    ∃ t : State, core.run (stepsAtMost c s t) (hostStart s) = .next t ∧ t.phase = .done

/-- R214 and R176, and R239, an inference of the spec: nothing an earlier command left influences a
command. States that differ in the results a START discards and in all of `MID` and `DST` give the
same registers, the same output bytes and the same bytes of `MID[0..MID_LEN)`. -/
def Obligations.EarlierResultsDiscarded : Prop :=
  ∀ (c : Command) s s' t, s.phase ≠ .busy → s'.phase ≠ .busy → SameButResults s s' →
    exec c.instr s = .next t →
    let env := Config.environment
    ∃ t', exec c.instr s' = .next t' ∧ SameRegisters t t' ∧ SameHost t t' ∧ t'.draws = t.draws
      ∧ t'.src = t.src ∧ t'.output env = t.output env
      ∧ t'.readBytes env .mid t.midLen = t.readBytes env .mid t.midLen

/-- R67, R185, inferences of the spec: no command reads `SRC` at or above `SRC_LEN`: with other
bytes there its next state is the same in everything but `SRC`. -/
def Obligations.SourceBeyondLengthNotRead : Prop :=
  ∀ (c : Command) s t src', exec c.instr s = .next t →
    (∀ i, i < s.srcLen → ({ s with src := src' } : State).readByte Config.environment .src i
      = s.readByte Config.environment .src i) →
    exec c.instr { s with src := src' } = .next { t with src := src' }

/-! ### Whole-machine rules -/

/-- R21 to R24: the block never writes an operand register. -/
def Obligations.BlockKeepsOperands : Prop :=
  ∀ s t, nextIsHostMove s = false → step s = .next t → SameOperands s t

/-- R67, R73, inferences of the spec: the block never writes `SRC`. -/
def Obligations.BlockKeepsSource : Prop :=
  ∀ s t, nextIsHostMove s = false → step s = .next t → t.src = s.src

/-- R73, an inference of the spec: bytes of `DST` at or above `DST_CAP` and of `MID` at or above
`MID_CAP` are never changed by anything the block does. -/
def Obligations.BlockKeepsBytesAboveCapacity : Prop :=
  ∀ s t, nextIsHostMove s = false → step s = .next t →
    BytesKept s t (fun sp i => sp = .dst ∧ i < s.dstCap ∨ sp = .mid ∧ i < s.midCap)

/-- R72, R64: a byte stored is the byte read, and every other byte of every space reads as before. -/
def Obligations.ReadAfterStore : Prop :=
  ∀ env (s : State) sp i v,
    (s.store sp i [v]).readByte env sp i = v
      ∧ ∀ sp' j, ¬ (sp' = sp ∧ j = i) →
        (s.store sp i [v]).readByte env sp' j = s.readByte env sp' j

/-! ### The host -/

/-- R39: a register write, truncated to the register's width, takes effect while the block is not
`BUSY` and changes nothing else; while `BUSY` it is ignored. -/
def Obligations.HostWritesRegisters : Prop :=
  ∀ (s : State) r ts, s.turns = .host (.writeReg r) :: ts →
    let s' := { s with turns := ts }
    (s.phase = .busy → step s = .next s')
    ∧ (s.phase ≠ .busy → step s = .next (match r with
        | .op v => { s' with op := v }
        | .srcLen v => { s' with srcLen := v % 2 ^ Config.aw }
        | .dstCap v => { s' with dstCap := v % 2 ^ Config.aw }
        | .midCap v => { s' with midCap := v % 2 ^ Config.aw }))

/-- R40: a host write to an index of `SRC` while the block is not `BUSY` writes that byte and no
other. -/
def Obligations.HostWritesSource : Prop :=
  ∀ (s : State) i v ts, s.turns = .host (.writeSrc i v) :: ts → s.phase ≠ .busy →
    i < 2 ^ Config.aw →
    ∃ t, step s = .next t ∧ (∀ env, t.readByte env .src i = v)
      ∧ BytesKept s t (fun sp j => sp = .src ∧ j = i)
      ∧ t.turns = ts ∧ { t with src := s.src, turns := s.turns } = s

/-- R42: an operand register or `PHASE` read at any time, or a result register read while the block
is not `BUSY`, returns its value, `PHASE` and `STATUS` as R25 and R200 number them; a read changes
nothing but the reply. -/
def Obligations.HostReadsRegisters : Prop :=
  ∀ (s : State) r ts, s.turns = .host (.readReg r) :: ts →
    s.phase ≠ .busy ∨ r = .op ∨ r = .srcLen ∨ r = .dstCap ∨ r = .midCap ∨ r = .phase →
    step s = .next { s with turns := ts, reply := some (match r with
      | .op => .op s.op
      | .srcLen => .word s.srcLen
      | .dstCap => .word s.dstCap
      | .midCap => .word s.midCap
      | .phase => .phase (match s.phase with | .idle => 0 | .busy => 1 | .done => 2)
      | .status => .status (match s.status with
        | .ok => 0
        | .compEngineInitFailed => 1
        | .compEngineStepFailed => 2
        | .compBufferTooSmall => 3
        | .decEngineInitFailed => 4
        | .decTruncated => 5
        | .malformedEscape => 6
        | .badCommand => 7
        | .badCapacity => 8)
      | .trunc => .trunc (if s.trunc then 1 else 0)
      | .len => .word s.len
      | .rp => .word s.rp
      | .wp => .word s.wp
      | .midLen => .word s.midLen) }

/-- R42: a result register read while `BUSY` completes with some reply, and nothing but the reply and
the count of draws changes. The value is a free value: no statement rests on it. -/
def Obligations.HostReadWhileBusyUnspecified : Prop :=
  ∀ (s : State) r ts, s.turns = .host (.readReg r) :: ts → s.phase = .busy →
    r = .status ∨ r = .trunc ∨ r = .len ∨ r = .rp ∨ r = .wp ∨ r = .midLen →
    ∃ v, step s = .next { s with turns := ts, reply := some v, draws := s.draws + 1 }

/-- R40: a host read of an index of `SRC` or `DST` while the block is not `BUSY` returns the byte
and changes nothing but the reply. -/
def Obligations.HostReadsBuffers : Prop :=
  ∀ (s : State) i ts, s.phase ≠ .busy → i < 2 ^ Config.aw →
    (s.turns = .host (.readBuf .src i) :: ts → step s = .next { s with
      turns := ts, reply := some (.byte (s.readByte Config.environment .src i)) })
    ∧ (s.turns = .host (.readBuf .dst i) :: ts → step s = .next { s with
      turns := ts, reply := some (.byte (s.readByte Config.environment .dst i)) })

/-- R41: START of a selected command that is not refused clears every result and goes to `BUSY` with
the command's first stage; no byte of memory and no operand changes. -/
def Obligations.StartBeginsCommand : Prop :=
  ∀ (s : State) c ts, s.turns = .host .start :: ts → s.phase ≠ .busy → commandOf s.op = some c →
    (c = .escape ∨ c = .encode → s.dstCap ≠ 0) →
    (c = .unescape → s.srcLen ≤ s.dstCap) →
    (c = .decode → s.srcLen ≤ s.midCap) →
    ∃ t, step s = .next t ∧ t.phase = .busy ∧ t.stage = firstStage c ∧ t.status = .ok
      ∧ t.trunc = false ∧ t.len = 0 ∧ CursorsZero t ∧ SameOperands s t ∧ t.draws = s.draws
      ∧ t.turns = ts ∧ t.reply = s.reply ∧ t.src = s.src ∧ t.mid = s.mid ∧ t.dst = s.dst

/-- R44: START while `BUSY` is ignored. -/
def Obligations.StartWhileBusyIgnored : Prop :=
  ∀ (s : State) ts, s.turns = .host .start :: ts → s.phase = .busy →
    step s = .next { s with turns := ts }

/-- R230, R231: reset is enabled in every state, `BUSY` too, gives every register its reset value,
and leaves every byte of every buffer a value of the draw made for this reset (log 5, log 6). -/
def Obligations.ResetFromAnyState : Prop :=
  ∀ (s : State) ts, s.turns = .host .reset :: ts →
    ∃ t, step s = .next t ∧ t.op = 0 ∧ t.srcLen = 0 ∧ t.dstCap = 0 ∧ t.midCap = 0
      ∧ t.phase = .idle ∧ t.stage = .none ∧ t.rp = 0 ∧ t.wp = 0 ∧ t.midLen = 0
      ∧ t.status = .ok ∧ t.trunc = false ∧ t.len = 0 ∧ t.turns = ts
      ∧ t.draws = s.draws + 1 ∧ (∀ sp, (t.buffer sp).cells = [])
      ∧ ∀ env sp i, t.readByte env sp i = env.anyByte s.draws sp i

/-! ### The two transforms -/

/-- R164, an inference of the spec: unescaping inverts escaping, for every assignment of the markers
that R7 admits. -/
def Obligations.UnescapeInvertsEscape : Prop :=
  ∀ k : Config.Markers, k.Admissible → ∀ x, unescapeFnIn k (escapeFnIn k x) = some x

/-- R183, an inference of the spec: each pair of the encoder decodes to its own byte and no two
bytes share one; the escape is injective on all sequences; the decoder is not. -/
def Obligations.EscapeInjective : Prop :=
  (∀ b, needsEscape b = true →
      ∃ m p, escapeOne b = [m, p] ∧ isMarker m = true ∧ unescapeFn [m, p] = some [b])
    ∧ (∀ b b', needsEscape b = true → needsEscape b' = true → escapeOne b = escapeOne b' → b = b')
    ∧ Function.Injective escapeFn
    ∧ ∃ t t' x, t ≠ t' ∧ unescapeFn t = some x ∧ unescapeFn t' = some x

/-- R140, an inference of the spec: the escape is at least as long as its input and at most twice as
long. -/
def Obligations.EscapeSizeBounds : Prop :=
  ∀ x, x.length ≤ fullLen x ∧ fullLen x ≤ 2 * x.length

/-- R141: 0xF7 occurs nowhere in escape output. -/
def Obligations.EscapeNeverEmitsM2 : Prop := ∀ x, (0xF7 : Byte) ∉ escapeFn x

/-- R160, R93: the two high bits of a payload do not matter, in any state. -/
def Obligations.PayloadHighBitsIgnored : Prop :=
  ∀ (hi hi' : BitVec 2) (low6 : BitVec 6) s,
    exec (.esc0 hi low6) s = exec (.esc0 hi' low6) s ∧ exec (.esc1 hi low6) s = exec (.esc1 hi' low6) s
      ∧ exec (.esc2 hi low6) s = exec (.esc2 hi' low6) s
      ∧ exec (.esc3 hi low6) s = exec (.esc3 hi' low6) s

/-- R181, an inference of the spec: after an ESCAPE or ENCODE that ends `OK`, truncated or not, the
text meets the safe-text invariant, is an image of the encoder, and is followed by the first zero
byte. For every environment; `exec` is `runCommand` at `Config.environment`. -/
def Obligations.OutputIsSafeText : Prop :=
  ∀ (env : Config.Environment) s t, s.phase ≠ .busy →
    runCommand env .escape s = .next t ∨ runCommand env .encode s = .next t → t.status = .ok →
    safeText (t.output env) = true ∧ EncoderImage (t.output env)
      ∧ t.readByte env .dst t.len = 0x00
      ∧ ∀ i, i < t.len → t.readByte env .dst i ≠ 0x00

/-- R184, R140, inferences of the spec: ESCAPE is truncated exactly when the destination is smaller
than the full expansion of its input plus one; then the length is short of the full one by what did
not fit, at most one byte of room below the terminator's slot is left, and otherwise the length is
the full one. -/
def Obligations.TruncationThreshold : Prop :=
  ∀ s t, s.phase ≠ .busy → s.dstCap ≠ 0 → exec .escape s = .next t →
    let n := fullLen (s.input Config.environment)
    (s.dstCap - 1 < n → t.trunc = true ∧ t.len < n
        ∧ s.dstCap ≤ t.len + 2 ∧ t.len + 1 ≤ s.dstCap)
    ∧ (n ≤ s.dstCap - 1 → t.trunc = false ∧ t.len = n)

/-- R143, an inference of the spec, with R177 and R209: how a host sees that an output is truncated.
After ESCAPE the soft condition EncodeTruncated, `RP` short of `SRC_LEN`, and `LEN` short of the full
length say the same; after an ENCODE that ends `OK`, the condition and `RP` short of `MID_LEN` do. For
every environment. -/
def Obligations.TruncationIsDetectable : Prop :=
  ∀ (env : Config.Environment) s t, s.phase ≠ .busy → s.dstCap ≠ 0 →
    (runCommand env .escape s = .next t →
      (t.encodeTruncated = true ↔ t.rp < s.srcLen)
      ∧ (t.encodeTruncated = true ↔ t.len < fullLen (s.input env)))
    ∧ (runCommand env .encode s = .next t → t.status = .ok →
      (t.encodeTruncated = true ↔ t.rp < t.midLen))

/-- R182, an inference of the spec, the stand-alone form: what ESCAPE wrote, UNESCAPE turns back
into the bytes ESCAPE consumed, which are the whole input unless it was truncated. -/
def Obligations.UnescapeAfterEscapeRestores : Prop :=
  ∀ s t s2, s.phase ≠ .busy → s.dstCap ≠ 0 → exec .escape s = .next t → s2.phase ≠ .busy →
    s2.srcLen = t.len → s2.input Config.environment = t.output Config.environment →
    t.len ≤ s2.dstCap →
    ∃ u, exec .unescape s2 = .next u ∧ u.status = .ok ∧ u.len = t.rp
      ∧ u.output Config.environment = (s.input Config.environment).take t.rp
      ∧ (t.trunc = false → t.rp = s.srcLen)

/-- R182, an inference of the spec: the round trip through the engine. For every engine with law P1
and healthy draws, given sufficiently large capacities, ENCODE ends `OK` and complete with the
escape of the compressed input, and DECODE of that text gives back the input. `exec` is `runCommand`
at `Config.environment`. -/
def Obligations.DecodeAfterEncodeRestores : Prop :=
  ∀ env : Config.Environment, env.Lossless → env.Healthy → ∀ s, s.phase ≠ .busy →
    let x := s.input env
    let z := env.deflate x
    let text := escapeFn z
    z.length ≤ s.midCap → text.length + 1 ≤ s.dstCap →
    ∃ t, runCommand env .encode s = .next t ∧ t.status = .ok ∧ t.trunc = false
      ∧ t.len = text.length ∧ t.output env = text
      ∧ ∀ s2, s2.phase ≠ .busy → s2.srcLen = t.len → s2.input env = text →
        text.length ≤ s2.midCap → x.length ≤ s2.dstCap →
        ∃ u, runCommand env .decode s2 = .next u ∧ u.status = .ok ∧ u.len = x.length
          ∧ u.output env = x

/-- R118's corner case: by P1, DECOMPRESS of the output of a successful COMPRESS gives back the
input. -/
def Obligations.DecompressAfterCompressRestores : Prop :=
  ∀ env : Config.Environment, env.Lossless → ∀ s t s2, s.phase ≠ .busy →
    runCommand env .compress s = .next t → t.status = .ok → s2.phase ≠ .busy → s2.srcLen = t.len →
    s2.input env = t.output env → s.srcLen ≤ s2.dstCap → env.initOk s2.draws = true →
    ∃ u, runCommand env .decompress s2 = .next u ∧ u.status = .ok ∧ u.len = s.srcLen
      ∧ u.output env = s.input env

/-- R244 with R112's law P3: the text of a truncated ENCODE does not decode; DECODE ends
DEC_TRUNCATED. -/
def Obligations.TruncatedTextDoesNotDecode : Prop :=
  ∀ env : Config.Environment, env.PrefixesUnfinished → ∀ s t s2, s.phase ≠ .busy →
    runCommand env .encode s = .next t → t.status = .ok → t.trunc = true → s2.phase ≠ .busy →
    s2.srcLen = t.len → s2.input env = t.output env → t.len ≤ s2.midCap →
    env.initOk s2.draws = true →
    ∃ u, runCommand env .decode s2 = .next u ∧ u.status = .decTruncated ∧ u.len = 0
end

