-- ==== Sys2Proof/Laws/State.lean ====
section
/-! SUPPORT. One lemma for each field under each named update of the state. -/

namespace Sys2Proof.Machine

/-! ### `truncated` -/

@[simp] theorem State.truncated_op (s : State) : s.truncated.op = s.op := rfl
@[simp] theorem State.truncated_srcLen (s : State) : s.truncated.srcLen = s.srcLen := rfl
@[simp] theorem State.truncated_dstCap (s : State) : s.truncated.dstCap = s.dstCap := rfl
@[simp] theorem State.truncated_midCap (s : State) : s.truncated.midCap = s.midCap := rfl
@[simp] theorem State.truncated_phase (s : State) : s.truncated.phase = s.phase := rfl
@[simp] theorem State.truncated_stage (s : State) : s.truncated.stage = s.stage := rfl
@[simp] theorem State.truncated_rp (s : State) : s.truncated.rp = s.rp := rfl
@[simp] theorem State.truncated_wp (s : State) : s.truncated.wp = s.wp := rfl
@[simp] theorem State.truncated_midLen (s : State) : s.truncated.midLen = s.midLen := rfl
@[simp] theorem State.truncated_status (s : State) : s.truncated.status = s.status := rfl
@[simp] theorem State.truncated_trunc (s : State) : s.truncated.trunc = true := rfl
@[simp] theorem State.truncated_len (s : State) : s.truncated.len = s.len := rfl
@[simp] theorem State.truncated_src (s : State) : s.truncated.src = s.src := rfl
@[simp] theorem State.truncated_mid (s : State) : s.truncated.mid = s.mid := rfl
@[simp] theorem State.truncated_dst (s : State) : s.truncated.dst = s.dst := rfl
@[simp] theorem State.truncated_draws (s : State) : s.truncated.draws = s.draws := rfl
@[simp] theorem State.truncated_turns (s : State) : s.truncated.turns = s.turns := rfl
@[simp] theorem State.truncated_reply (s : State) : s.truncated.reply = s.reply := rfl
@[simp] theorem State.truncated_buffer (s : State) (sp : Space) :
    s.truncated.buffer sp = s.buffer sp := rfl

/-! ### `advance` -/

@[simp] theorem State.advance_op (s : State) (r w : Nat) : (s.advance r w).op = s.op := rfl
@[simp] theorem State.advance_srcLen (s : State) (r w : Nat) : (s.advance r w).srcLen = s.srcLen := rfl
@[simp] theorem State.advance_dstCap (s : State) (r w : Nat) : (s.advance r w).dstCap = s.dstCap := rfl
@[simp] theorem State.advance_midCap (s : State) (r w : Nat) : (s.advance r w).midCap = s.midCap := rfl
@[simp] theorem State.advance_phase (s : State) (r w : Nat) : (s.advance r w).phase = s.phase := rfl
@[simp] theorem State.advance_stage (s : State) (r w : Nat) : (s.advance r w).stage = s.stage := rfl
@[simp] theorem State.advance_rp (s : State) (r w : Nat) : (s.advance r w).rp = s.rp + r := rfl
@[simp] theorem State.advance_wp (s : State) (r w : Nat) : (s.advance r w).wp = s.wp + w := rfl
@[simp] theorem State.advance_midLen (s : State) (r w : Nat) : (s.advance r w).midLen = s.midLen := rfl
@[simp] theorem State.advance_status (s : State) (r w : Nat) : (s.advance r w).status = s.status := rfl
@[simp] theorem State.advance_trunc (s : State) (r w : Nat) : (s.advance r w).trunc = s.trunc := rfl
@[simp] theorem State.advance_len (s : State) (r w : Nat) : (s.advance r w).len = s.len := rfl
@[simp] theorem State.advance_src (s : State) (r w : Nat) : (s.advance r w).src = s.src := rfl
@[simp] theorem State.advance_mid (s : State) (r w : Nat) : (s.advance r w).mid = s.mid := rfl
@[simp] theorem State.advance_dst (s : State) (r w : Nat) : (s.advance r w).dst = s.dst := rfl
@[simp] theorem State.advance_draws (s : State) (r w : Nat) : (s.advance r w).draws = s.draws := rfl
@[simp] theorem State.advance_turns (s : State) (r w : Nat) : (s.advance r w).turns = s.turns := rfl
@[simp] theorem State.advance_reply (s : State) (r w : Nat) : (s.advance r w).reply = s.reply := rfl
@[simp] theorem State.advance_buffer (s : State) (r w : Nat) (sp : Space) :
    (s.advance r w).buffer sp = s.buffer sp := rfl

/-! ### `drawn` -/

@[simp] theorem State.drawn_op (s : State) : s.drawn.op = s.op := rfl
@[simp] theorem State.drawn_srcLen (s : State) : s.drawn.srcLen = s.srcLen := rfl
@[simp] theorem State.drawn_dstCap (s : State) : s.drawn.dstCap = s.dstCap := rfl
@[simp] theorem State.drawn_midCap (s : State) : s.drawn.midCap = s.midCap := rfl
@[simp] theorem State.drawn_phase (s : State) : s.drawn.phase = s.phase := rfl
@[simp] theorem State.drawn_stage (s : State) : s.drawn.stage = s.stage := rfl
@[simp] theorem State.drawn_rp (s : State) : s.drawn.rp = s.rp := rfl
@[simp] theorem State.drawn_wp (s : State) : s.drawn.wp = s.wp := rfl
@[simp] theorem State.drawn_midLen (s : State) : s.drawn.midLen = s.midLen := rfl
@[simp] theorem State.drawn_status (s : State) : s.drawn.status = s.status := rfl
@[simp] theorem State.drawn_trunc (s : State) : s.drawn.trunc = s.trunc := rfl
@[simp] theorem State.drawn_len (s : State) : s.drawn.len = s.len := rfl
@[simp] theorem State.drawn_src (s : State) : s.drawn.src = s.src := rfl
@[simp] theorem State.drawn_mid (s : State) : s.drawn.mid = s.mid := rfl
@[simp] theorem State.drawn_dst (s : State) : s.drawn.dst = s.dst := rfl
@[simp] theorem State.drawn_draws (s : State) : s.drawn.draws = s.draws + 1 := rfl
@[simp] theorem State.drawn_turns (s : State) : s.drawn.turns = s.turns := rfl
@[simp] theorem State.drawn_reply (s : State) : s.drawn.reply = s.reply := rfl
@[simp] theorem State.drawn_buffer (s : State) (sp : Space) :
    s.drawn.buffer sp = s.buffer sp := rfl

/-! ### `complete` -/

@[simp] theorem State.complete_op (s : State) (n : Nat) : (s.complete n).op = s.op := rfl
@[simp] theorem State.complete_srcLen (s : State) (n : Nat) : (s.complete n).srcLen = s.srcLen := rfl
@[simp] theorem State.complete_dstCap (s : State) (n : Nat) : (s.complete n).dstCap = s.dstCap := rfl
@[simp] theorem State.complete_midCap (s : State) (n : Nat) : (s.complete n).midCap = s.midCap := rfl
@[simp] theorem State.complete_phase (s : State) (n : Nat) : (s.complete n).phase = .done := rfl
@[simp] theorem State.complete_stage (s : State) (n : Nat) : (s.complete n).stage = .none := rfl
@[simp] theorem State.complete_rp (s : State) (n : Nat) : (s.complete n).rp = s.rp := rfl
@[simp] theorem State.complete_wp (s : State) (n : Nat) : (s.complete n).wp = s.wp := rfl
@[simp] theorem State.complete_midLen (s : State) (n : Nat) : (s.complete n).midLen = s.midLen := rfl
@[simp] theorem State.complete_status (s : State) (n : Nat) : (s.complete n).status = .ok := rfl
@[simp] theorem State.complete_trunc (s : State) (n : Nat) : (s.complete n).trunc = s.trunc := rfl
@[simp] theorem State.complete_len (s : State) (n : Nat) : (s.complete n).len = n := rfl
@[simp] theorem State.complete_src (s : State) (n : Nat) : (s.complete n).src = s.src := rfl
@[simp] theorem State.complete_mid (s : State) (n : Nat) : (s.complete n).mid = s.mid := rfl
@[simp] theorem State.complete_dst (s : State) (n : Nat) : (s.complete n).dst = s.dst := rfl
@[simp] theorem State.complete_draws (s : State) (n : Nat) : (s.complete n).draws = s.draws := rfl
@[simp] theorem State.complete_turns (s : State) (n : Nat) : (s.complete n).turns = s.turns := rfl
@[simp] theorem State.complete_reply (s : State) (n : Nat) : (s.complete n).reply = s.reply := rfl
@[simp] theorem State.complete_buffer (s : State) (n : Nat) (sp : Space) :
    (s.complete n).buffer sp = s.buffer sp := rfl

/-! ### `raise` -/

@[simp] theorem State.raise_op (s : State) (c : Command) (code : Status) : (s.raise c code).op = s.op := rfl
@[simp] theorem State.raise_srcLen (s : State) (c : Command) (code : Status) : (s.raise c code).srcLen = s.srcLen := rfl
@[simp] theorem State.raise_dstCap (s : State) (c : Command) (code : Status) : (s.raise c code).dstCap = s.dstCap := rfl
@[simp] theorem State.raise_midCap (s : State) (c : Command) (code : Status) : (s.raise c code).midCap = s.midCap := rfl
@[simp] theorem State.raise_phase (s : State) (c : Command) (code : Status) : (s.raise c code).phase = .done := rfl
@[simp] theorem State.raise_stage (s : State) (c : Command) (code : Status) : (s.raise c code).stage = .none := rfl
@[simp] theorem State.raise_rp (s : State) (c : Command) (code : Status) : (s.raise c code).rp = s.rp := rfl
@[simp] theorem State.raise_wp (s : State) (c : Command) (code : Status) : (s.raise c code).wp = s.wp := rfl
@[simp] theorem State.raise_midLen (s : State) (c : Command) (code : Status) : (s.raise c code).midLen = if code = .malformedEscape ∧ c = .decode then s.wp else s.midLen := rfl
@[simp] theorem State.raise_status (s : State) (c : Command) (code : Status) : (s.raise c code).status = code := rfl
@[simp] theorem State.raise_trunc (s : State) (c : Command) (code : Status) : (s.raise c code).trunc = s.trunc := rfl
@[simp] theorem State.raise_len (s : State) (c : Command) (code : Status) : (s.raise c code).len = if code = .malformedEscape ∧ c = .unescape then s.wp else 0 := rfl
@[simp] theorem State.raise_src (s : State) (c : Command) (code : Status) : (s.raise c code).src = s.src := rfl
@[simp] theorem State.raise_mid (s : State) (c : Command) (code : Status) : (s.raise c code).mid = s.mid := rfl
@[simp] theorem State.raise_dst (s : State) (c : Command) (code : Status) : (s.raise c code).dst = s.dst := rfl
@[simp] theorem State.raise_draws (s : State) (c : Command) (code : Status) : (s.raise c code).draws = s.draws := rfl
@[simp] theorem State.raise_turns (s : State) (c : Command) (code : Status) : (s.raise c code).turns = s.turns := rfl
@[simp] theorem State.raise_reply (s : State) (c : Command) (code : Status) : (s.raise c code).reply = s.reply := rfl
@[simp] theorem State.raise_buffer (s : State) (c : Command) (code : Status) (sp : Space) :
    (s.raise c code).buffer sp = s.buffer sp := rfl

/-! ### `clearResults` -/

@[simp] theorem State.clearResults_op (s : State) : s.clearResults.op = s.op := rfl
@[simp] theorem State.clearResults_srcLen (s : State) : s.clearResults.srcLen = s.srcLen := rfl
@[simp] theorem State.clearResults_dstCap (s : State) : s.clearResults.dstCap = s.dstCap := rfl
@[simp] theorem State.clearResults_midCap (s : State) : s.clearResults.midCap = s.midCap := rfl
@[simp] theorem State.clearResults_phase (s : State) : s.clearResults.phase = s.phase := rfl
@[simp] theorem State.clearResults_stage (s : State) : s.clearResults.stage = s.stage := rfl
@[simp] theorem State.clearResults_rp (s : State) : s.clearResults.rp = 0 := rfl
@[simp] theorem State.clearResults_wp (s : State) : s.clearResults.wp = 0 := rfl
@[simp] theorem State.clearResults_midLen (s : State) : s.clearResults.midLen = 0 := rfl
@[simp] theorem State.clearResults_status (s : State) : s.clearResults.status = .ok := rfl
@[simp] theorem State.clearResults_trunc (s : State) : s.clearResults.trunc = false := rfl
@[simp] theorem State.clearResults_len (s : State) : s.clearResults.len = 0 := rfl
@[simp] theorem State.clearResults_src (s : State) : s.clearResults.src = s.src := rfl
@[simp] theorem State.clearResults_mid (s : State) : s.clearResults.mid = s.mid := rfl
@[simp] theorem State.clearResults_dst (s : State) : s.clearResults.dst = s.dst := rfl
@[simp] theorem State.clearResults_draws (s : State) : s.clearResults.draws = s.draws := rfl
@[simp] theorem State.clearResults_turns (s : State) : s.clearResults.turns = s.turns := rfl
@[simp] theorem State.clearResults_reply (s : State) : s.clearResults.reply = s.reply := rfl
@[simp] theorem State.clearResults_buffer (s : State) (sp : Space) :
    s.clearResults.buffer sp = s.buffer sp := rfl

/-! ### `refuse` -/

@[simp] theorem State.refuse_op (s : State) (code : Status) : (s.refuse code).op = s.op := rfl
@[simp] theorem State.refuse_srcLen (s : State) (code : Status) : (s.refuse code).srcLen = s.srcLen := rfl
@[simp] theorem State.refuse_dstCap (s : State) (code : Status) : (s.refuse code).dstCap = s.dstCap := rfl
@[simp] theorem State.refuse_midCap (s : State) (code : Status) : (s.refuse code).midCap = s.midCap := rfl
@[simp] theorem State.refuse_phase (s : State) (code : Status) : (s.refuse code).phase = .done := rfl
@[simp] theorem State.refuse_stage (s : State) (code : Status) : (s.refuse code).stage = .none := rfl
@[simp] theorem State.refuse_rp (s : State) (code : Status) : (s.refuse code).rp = s.rp := rfl
@[simp] theorem State.refuse_wp (s : State) (code : Status) : (s.refuse code).wp = s.wp := rfl
@[simp] theorem State.refuse_midLen (s : State) (code : Status) : (s.refuse code).midLen = s.midLen := rfl
@[simp] theorem State.refuse_status (s : State) (code : Status) : (s.refuse code).status = code := rfl
@[simp] theorem State.refuse_trunc (s : State) (code : Status) : (s.refuse code).trunc = s.trunc := rfl
@[simp] theorem State.refuse_len (s : State) (code : Status) : (s.refuse code).len = s.len := rfl
@[simp] theorem State.refuse_src (s : State) (code : Status) : (s.refuse code).src = s.src := rfl
@[simp] theorem State.refuse_mid (s : State) (code : Status) : (s.refuse code).mid = s.mid := rfl
@[simp] theorem State.refuse_dst (s : State) (code : Status) : (s.refuse code).dst = s.dst := rfl
@[simp] theorem State.refuse_draws (s : State) (code : Status) : (s.refuse code).draws = s.draws := rfl
@[simp] theorem State.refuse_turns (s : State) (code : Status) : (s.refuse code).turns = s.turns := rfl
@[simp] theorem State.refuse_reply (s : State) (code : Status) : (s.refuse code).reply = s.reply := rfl
@[simp] theorem State.refuse_buffer (s : State) (code : Status) (sp : Space) :
    (s.refuse code).buffer sp = s.buffer sp := rfl

/-! ### `accept` -/

@[simp] theorem State.accept_op (s : State) (c : Command) : (s.accept c).op = s.op := rfl
@[simp] theorem State.accept_srcLen (s : State) (c : Command) : (s.accept c).srcLen = s.srcLen := rfl
@[simp] theorem State.accept_dstCap (s : State) (c : Command) : (s.accept c).dstCap = s.dstCap := rfl
@[simp] theorem State.accept_midCap (s : State) (c : Command) : (s.accept c).midCap = s.midCap := rfl
@[simp] theorem State.accept_phase (s : State) (c : Command) : (s.accept c).phase = .busy := rfl
@[simp] theorem State.accept_stage (s : State) (c : Command) : (s.accept c).stage = firstStage c := rfl
@[simp] theorem State.accept_rp (s : State) (c : Command) : (s.accept c).rp = s.rp := rfl
@[simp] theorem State.accept_wp (s : State) (c : Command) : (s.accept c).wp = s.wp := rfl
@[simp] theorem State.accept_midLen (s : State) (c : Command) : (s.accept c).midLen = s.midLen := rfl
@[simp] theorem State.accept_status (s : State) (c : Command) : (s.accept c).status = s.status := rfl
@[simp] theorem State.accept_trunc (s : State) (c : Command) : (s.accept c).trunc = s.trunc := rfl
@[simp] theorem State.accept_len (s : State) (c : Command) : (s.accept c).len = s.len := rfl
@[simp] theorem State.accept_src (s : State) (c : Command) : (s.accept c).src = s.src := rfl
@[simp] theorem State.accept_mid (s : State) (c : Command) : (s.accept c).mid = s.mid := rfl
@[simp] theorem State.accept_dst (s : State) (c : Command) : (s.accept c).dst = s.dst := rfl
@[simp] theorem State.accept_draws (s : State) (c : Command) : (s.accept c).draws = s.draws := rfl
@[simp] theorem State.accept_turns (s : State) (c : Command) : (s.accept c).turns = s.turns := rfl
@[simp] theorem State.accept_reply (s : State) (c : Command) : (s.accept c).reply = s.reply := rfl
@[simp] theorem State.accept_buffer (s : State) (c : Command) (sp : Space) :
    (s.accept c).buffer sp = s.buffer sp := rfl

/-! ### `setBuffer` -/

@[simp] theorem State.setBuffer_op (s : State) (sp : Space) (b : Buffer) :
    (s.setBuffer sp b).op = s.op := by cases sp <;> rfl
@[simp] theorem State.setBuffer_srcLen (s : State) (sp : Space) (b : Buffer) :
    (s.setBuffer sp b).srcLen = s.srcLen := by cases sp <;> rfl
@[simp] theorem State.setBuffer_dstCap (s : State) (sp : Space) (b : Buffer) :
    (s.setBuffer sp b).dstCap = s.dstCap := by cases sp <;> rfl
@[simp] theorem State.setBuffer_midCap (s : State) (sp : Space) (b : Buffer) :
    (s.setBuffer sp b).midCap = s.midCap := by cases sp <;> rfl
@[simp] theorem State.setBuffer_phase (s : State) (sp : Space) (b : Buffer) :
    (s.setBuffer sp b).phase = s.phase := by cases sp <;> rfl
@[simp] theorem State.setBuffer_stage (s : State) (sp : Space) (b : Buffer) :
    (s.setBuffer sp b).stage = s.stage := by cases sp <;> rfl
@[simp] theorem State.setBuffer_rp (s : State) (sp : Space) (b : Buffer) :
    (s.setBuffer sp b).rp = s.rp := by cases sp <;> rfl
@[simp] theorem State.setBuffer_wp (s : State) (sp : Space) (b : Buffer) :
    (s.setBuffer sp b).wp = s.wp := by cases sp <;> rfl
@[simp] theorem State.setBuffer_midLen (s : State) (sp : Space) (b : Buffer) :
    (s.setBuffer sp b).midLen = s.midLen := by cases sp <;> rfl
@[simp] theorem State.setBuffer_status (s : State) (sp : Space) (b : Buffer) :
    (s.setBuffer sp b).status = s.status := by cases sp <;> rfl
@[simp] theorem State.setBuffer_trunc (s : State) (sp : Space) (b : Buffer) :
    (s.setBuffer sp b).trunc = s.trunc := by cases sp <;> rfl
@[simp] theorem State.setBuffer_len (s : State) (sp : Space) (b : Buffer) :
    (s.setBuffer sp b).len = s.len := by cases sp <;> rfl
@[simp] theorem State.setBuffer_draws (s : State) (sp : Space) (b : Buffer) :
    (s.setBuffer sp b).draws = s.draws := by cases sp <;> rfl
@[simp] theorem State.setBuffer_turns (s : State) (sp : Space) (b : Buffer) :
    (s.setBuffer sp b).turns = s.turns := by cases sp <;> rfl
@[simp] theorem State.setBuffer_reply (s : State) (sp : Space) (b : Buffer) :
    (s.setBuffer sp b).reply = s.reply := by cases sp <;> rfl

/-! ### `store` -/

@[simp] theorem State.store_op (s : State) (sp : Space) (i : Nat) (bs : List Byte) :
    (s.store sp i bs).op = s.op := by cases sp <;> rfl
@[simp] theorem State.store_srcLen (s : State) (sp : Space) (i : Nat) (bs : List Byte) :
    (s.store sp i bs).srcLen = s.srcLen := by cases sp <;> rfl
@[simp] theorem State.store_dstCap (s : State) (sp : Space) (i : Nat) (bs : List Byte) :
    (s.store sp i bs).dstCap = s.dstCap := by cases sp <;> rfl
@[simp] theorem State.store_midCap (s : State) (sp : Space) (i : Nat) (bs : List Byte) :
    (s.store sp i bs).midCap = s.midCap := by cases sp <;> rfl
@[simp] theorem State.store_phase (s : State) (sp : Space) (i : Nat) (bs : List Byte) :
    (s.store sp i bs).phase = s.phase := by cases sp <;> rfl
@[simp] theorem State.store_stage (s : State) (sp : Space) (i : Nat) (bs : List Byte) :
    (s.store sp i bs).stage = s.stage := by cases sp <;> rfl
@[simp] theorem State.store_rp (s : State) (sp : Space) (i : Nat) (bs : List Byte) :
    (s.store sp i bs).rp = s.rp := by cases sp <;> rfl
@[simp] theorem State.store_wp (s : State) (sp : Space) (i : Nat) (bs : List Byte) :
    (s.store sp i bs).wp = s.wp := by cases sp <;> rfl
@[simp] theorem State.store_midLen (s : State) (sp : Space) (i : Nat) (bs : List Byte) :
    (s.store sp i bs).midLen = s.midLen := by cases sp <;> rfl
@[simp] theorem State.store_status (s : State) (sp : Space) (i : Nat) (bs : List Byte) :
    (s.store sp i bs).status = s.status := by cases sp <;> rfl
@[simp] theorem State.store_trunc (s : State) (sp : Space) (i : Nat) (bs : List Byte) :
    (s.store sp i bs).trunc = s.trunc := by cases sp <;> rfl
@[simp] theorem State.store_len (s : State) (sp : Space) (i : Nat) (bs : List Byte) :
    (s.store sp i bs).len = s.len := by cases sp <;> rfl
@[simp] theorem State.store_draws (s : State) (sp : Space) (i : Nat) (bs : List Byte) :
    (s.store sp i bs).draws = s.draws := by cases sp <;> rfl
@[simp] theorem State.store_turns (s : State) (sp : Space) (i : Nat) (bs : List Byte) :
    (s.store sp i bs).turns = s.turns := by cases sp <;> rfl
@[simp] theorem State.store_reply (s : State) (sp : Space) (i : Nat) (bs : List Byte) :
    (s.store sp i bs).reply = s.reply := by cases sp <;> rfl

/-! ### `havoc` -/

@[simp] theorem State.havoc_op (s : State) (sp : Space) (lo hi draw : Nat) :
    (s.havoc sp lo hi draw).op = s.op := by cases sp <;> rfl
@[simp] theorem State.havoc_srcLen (s : State) (sp : Space) (lo hi draw : Nat) :
    (s.havoc sp lo hi draw).srcLen = s.srcLen := by cases sp <;> rfl
@[simp] theorem State.havoc_dstCap (s : State) (sp : Space) (lo hi draw : Nat) :
    (s.havoc sp lo hi draw).dstCap = s.dstCap := by cases sp <;> rfl
@[simp] theorem State.havoc_midCap (s : State) (sp : Space) (lo hi draw : Nat) :
    (s.havoc sp lo hi draw).midCap = s.midCap := by cases sp <;> rfl
@[simp] theorem State.havoc_phase (s : State) (sp : Space) (lo hi draw : Nat) :
    (s.havoc sp lo hi draw).phase = s.phase := by cases sp <;> rfl
@[simp] theorem State.havoc_stage (s : State) (sp : Space) (lo hi draw : Nat) :
    (s.havoc sp lo hi draw).stage = s.stage := by cases sp <;> rfl
@[simp] theorem State.havoc_rp (s : State) (sp : Space) (lo hi draw : Nat) :
    (s.havoc sp lo hi draw).rp = s.rp := by cases sp <;> rfl
@[simp] theorem State.havoc_wp (s : State) (sp : Space) (lo hi draw : Nat) :
    (s.havoc sp lo hi draw).wp = s.wp := by cases sp <;> rfl
@[simp] theorem State.havoc_midLen (s : State) (sp : Space) (lo hi draw : Nat) :
    (s.havoc sp lo hi draw).midLen = s.midLen := by cases sp <;> rfl
@[simp] theorem State.havoc_status (s : State) (sp : Space) (lo hi draw : Nat) :
    (s.havoc sp lo hi draw).status = s.status := by cases sp <;> rfl
@[simp] theorem State.havoc_trunc (s : State) (sp : Space) (lo hi draw : Nat) :
    (s.havoc sp lo hi draw).trunc = s.trunc := by cases sp <;> rfl
@[simp] theorem State.havoc_len (s : State) (sp : Space) (lo hi draw : Nat) :
    (s.havoc sp lo hi draw).len = s.len := by cases sp <;> rfl
@[simp] theorem State.havoc_draws (s : State) (sp : Space) (lo hi draw : Nat) :
    (s.havoc sp lo hi draw).draws = s.draws := by cases sp <;> rfl
@[simp] theorem State.havoc_turns (s : State) (sp : Space) (lo hi draw : Nat) :
    (s.havoc sp lo hi draw).turns = s.turns := by cases sp <;> rfl
@[simp] theorem State.havoc_reply (s : State) (sp : Space) (lo hi draw : Nat) :
    (s.havoc sp lo hi draw).reply = s.reply := by cases sp <;> rfl

/-! ### `deliver` -/

@[simp] theorem State.deliver_op (s : State) (b : Binding) (out : List Byte) (draw : Nat) :
    (s.deliver b out draw).op = s.op := by
  simp [State.deliver]
@[simp] theorem State.deliver_srcLen (s : State) (b : Binding) (out : List Byte) (draw : Nat) :
    (s.deliver b out draw).srcLen = s.srcLen := by
  simp [State.deliver]
@[simp] theorem State.deliver_dstCap (s : State) (b : Binding) (out : List Byte) (draw : Nat) :
    (s.deliver b out draw).dstCap = s.dstCap := by
  simp [State.deliver]
@[simp] theorem State.deliver_midCap (s : State) (b : Binding) (out : List Byte) (draw : Nat) :
    (s.deliver b out draw).midCap = s.midCap := by
  simp [State.deliver]
@[simp] theorem State.deliver_phase (s : State) (b : Binding) (out : List Byte) (draw : Nat) :
    (s.deliver b out draw).phase = s.phase := by
  simp [State.deliver]
@[simp] theorem State.deliver_stage (s : State) (b : Binding) (out : List Byte) (draw : Nat) :
    (s.deliver b out draw).stage = s.stage := by
  simp [State.deliver]
@[simp] theorem State.deliver_rp (s : State) (b : Binding) (out : List Byte) (draw : Nat) :
    (s.deliver b out draw).rp = s.rp := by
  simp [State.deliver]
@[simp] theorem State.deliver_wp (s : State) (b : Binding) (out : List Byte) (draw : Nat) :
    (s.deliver b out draw).wp = s.wp := by
  simp [State.deliver]
@[simp] theorem State.deliver_midLen (s : State) (b : Binding) (out : List Byte) (draw : Nat) :
    (s.deliver b out draw).midLen = s.midLen := by
  simp [State.deliver]
@[simp] theorem State.deliver_status (s : State) (b : Binding) (out : List Byte) (draw : Nat) :
    (s.deliver b out draw).status = s.status := by
  simp [State.deliver]
@[simp] theorem State.deliver_trunc (s : State) (b : Binding) (out : List Byte) (draw : Nat) :
    (s.deliver b out draw).trunc = s.trunc := by
  simp [State.deliver]
@[simp] theorem State.deliver_len (s : State) (b : Binding) (out : List Byte) (draw : Nat) :
    (s.deliver b out draw).len = s.len := by
  simp [State.deliver]
@[simp] theorem State.deliver_draws (s : State) (b : Binding) (out : List Byte) (draw : Nat) :
    (s.deliver b out draw).draws = s.draws := by
  simp [State.deliver]
@[simp] theorem State.deliver_turns (s : State) (b : Binding) (out : List Byte) (draw : Nat) :
    (s.deliver b out draw).turns = s.turns := by
  simp [State.deliver]
@[simp] theorem State.deliver_reply (s : State) (b : Binding) (out : List Byte) (draw : Nat) :
    (s.deliver b out draw).reply = s.reply := by
  simp [State.deliver]

theorem State.setBuffer_buffer (s : State) (sp sp' : Space) (b : Buffer) :
    (s.setBuffer sp b).buffer sp' = if sp' = sp then b else s.buffer sp' := by
  cases sp <;> cases sp' <;> rfl

theorem State.buffer_src (s : State) : s.buffer .src = s.src := rfl
theorem State.buffer_mid (s : State) : s.buffer .mid = s.mid := rfl
theorem State.buffer_dst (s : State) : s.buffer .dst = s.dst := rfl

theorem State.store_buffer (s : State) (sp sp' : Space) (i : Nat) (bs : List Byte) :
    (s.store sp i bs).buffer sp'
      = if sp' = sp then (s.buffer sp).write i bs else s.buffer sp' :=
  State.setBuffer_buffer ..

theorem State.havoc_buffer (s : State) (sp sp' : Space) (lo hi draw : Nat) :
    (s.havoc sp lo hi draw).buffer sp'
      = if sp' = sp then (s.buffer sp).havoc lo hi draw else s.buffer sp' :=
  State.setBuffer_buffer ..

/-- Two states with the same buffers read the same. -/
theorem State.readByte_congr {s t : State} (env : Config.Environment) (sp : Space) (i : Nat)
    (h : t.buffer sp = s.buffer sp) : t.readByte env sp i = s.readByte env sp i := by
  unfold State.readByte; rw [h]

theorem State.readBytes_congr {s t : State} (env : Config.Environment) (sp : Space) (n : Nat)
    (h : t.buffer sp = s.buffer sp) : t.readBytes env sp n = s.readBytes env sp n := by
  unfold State.readBytes
  exact List.map_congr_left fun i _ => State.readByte_congr env sp i h

end Sys2Proof.Machine
end

