-- ==== Sys2Proof/Laws/Memory.lean ====
section
/-! SUPPORT. What the memory operations do: reading after a write or a havoc, and that each keeps the
canonical form. -/

namespace Sys2Proof.Machine

/-! ### Cells -/

theorem cellAt_append (m n : Memory) (j : Nat) :
    cellAt (m ++ n) j = (cellAt m j).or (cellAt n j) := by
  induction m with
  | nil => rfl
  | cons c m ih =>
    obtain ⟨k, v⟩ := c
    by_cases h : k = j <;> simp [cellAt, h, ih]

theorem cellAt_filter (m : Memory) (q : Nat → Bool) (j : Nat) :
    cellAt (m.filter fun c => q c.1) j = if q j then cellAt m j else none := by
  induction m with
  | nil => simp [cellAt]
  | cons c m ih =>
    obtain ⟨k, v⟩ := c
    by_cases hk : k = j
    · subst hk
      by_cases hq : q k <;> simp [cellAt, hq, ih]
    · by_cases hq : q k <;> simp [cellAt, hq, ih, hk]

theorem cellAt_place (bs : List Byte) (i j : Nat) :
    cellAt (place i bs) j = if i ≤ j then bs[j - i]? else none := by
  induction bs generalizing i with
  | nil => simp [place, cellAt]
  | cons b bs ih =>
    rw [place, cellAt, ih]
    by_cases h : i = j
    · subst h; simp
    · by_cases h' : i + 1 ≤ j
      · have hji : j - i = (j - (i + 1)) + 1 := by omega
        have hle : i ≤ j := by omega
        simp [h, h', hle, hji]
      · have hle : ¬ i ≤ j := by omega
        simp [h, h', hle]

/-- Reading after a write: the bytes written, and everything else as before. -/
theorem cellAt_splice (m : Memory) (i : Nat) (bs : List Byte) (j : Nat) :
    cellAt (splice m i bs) j
      = if i ≤ j ∧ j < i + bs.length then bs[j - i]? else cellAt m j := by
  unfold splice
  rw [cellAt_append, cellAt_append, cellAt_filter m (fun k => decide (k < i)), cellAt_place,
    cellAt_filter m (fun k => decide (i + bs.length ≤ k))]
  by_cases h1 : j < i
  · have h3 : ¬ i ≤ j := by omega
    have h4 : ¬ i + bs.length ≤ j := by omega
    simp [h1, h3, h4]
  · by_cases h2 : j < i + bs.length
    · have h3 : i ≤ j := by omega
      have h4 : ¬ i + bs.length ≤ j := by omega
      simp [h1, h2, h3, h4]
    · have h3 : i ≤ j := by omega
      have h4 : i + bs.length ≤ j := by omega
      have h5 : bs.length ≤ j - i := by omega
      simp [h1, h2, h3, h4, List.getElem?_eq_none h5]

/-! ### Canonical form -/

theorem place_keys (i : Nat) (bs : List Byte) : ∀ c ∈ place i bs, i ≤ c.1 ∧ c.1 < i + bs.length := by
  induction bs generalizing i with
  | nil => simp [place]
  | cons b bs ih =>
    intro c hc
    rw [place, List.mem_cons] at hc
    rcases hc with rfl | hc
    · simp
    · have := ih (i + 1) c hc
      simp only [List.length_cons]; omega

theorem place_rising (i : Nat) (bs : List Byte) : (place i bs).Pairwise (fun p q => p.1 < q.1) := by
  induction bs generalizing i with
  | nil => exact List.Pairwise.nil
  | cons b bs ih =>
    refine List.Pairwise.cons (fun c hc => ?_) (ih (i + 1))
    have := place_keys (i + 1) bs c hc
    simp only; omega

/-- A write keeps the canonical form. -/
theorem splice_wf {m : Memory} (hm : Memory.wf m) (i : Nat) (bs : List Byte) :
    Memory.wf (splice m i bs) := by
  unfold splice
  refine List.pairwise_append.2 ⟨List.pairwise_append.2
    ⟨hm.filter _, place_rising i bs, ?_⟩, hm.filter _, ?_⟩
  · intro a ha b hb'
    have h1 : a.1 < i := by simpa using (List.mem_filter.1 ha).2
    have h2 := place_keys i bs b hb'
    omega
  · intro a ha b hb'
    have h2 : i + bs.length ≤ b.1 := by simpa using (List.mem_filter.1 hb').2
    rcases List.mem_append.1 ha with ha | ha
    · have h1 : a.1 < i := by simpa using (List.mem_filter.1 ha).2
      omega
    · have h1 := place_keys i bs a ha
      omega

/-- A write inside the space lists no byte outside it. -/
theorem splice_within {n : Nat} {m : Memory} (hm : Memory.within n m) (i : Nat) (bs : List Byte)
    (h : i + bs.length ≤ n) : Memory.within n (splice m i bs) := by
  intro c hc
  unfold splice at hc
  rcases List.mem_append.1 hc with hc | hc
  · rcases List.mem_append.1 hc with hc | hc
    · exact hm c (List.mem_filter.1 hc).1
    · have := place_keys i bs c hc; omega
  · exact hm c (List.mem_filter.1 hc).1

theorem filter_within {n : Nat} {m : Memory} (hm : Memory.within n m) (p : Host.Cell → Bool) :
    Memory.within n (m.filter p) := fun c hc => hm c (List.mem_filter.1 hc).1

theorem nil_wf : Memory.wf [] := List.Pairwise.nil

theorem nil_within (n : Nat) : Memory.within n [] := fun _ h => nomatch h

theorem Buffer.write_wf {b : Buffer} (hb : Memory.wf b.cells) (i : Nat) (bs : List Byte) :
    Memory.wf (b.write i bs).cells := splice_wf hb i bs

theorem Buffer.havoc_wf {b : Buffer} (hb : Memory.wf b.cells) (lo hi draw : Nat) :
    Memory.wf (b.havoc lo hi draw).cells := hb.filter _

theorem Buffer.write_within {n : Nat} {b : Buffer} (hb : Memory.within n b.cells) (i : Nat)
    (bs : List Byte) (h : i + bs.length ≤ n) : Memory.within n (b.write i bs).cells :=
  splice_within hb i bs h

theorem Buffer.havoc_within {n : Nat} {b : Buffer} (hb : Memory.within n b.cells)
    (lo hi draw : Nat) : Memory.within n (b.havoc lo hi draw).cells := filter_within hb _

/-- A buffer of which nothing is known reads as its draw everywhere. -/
theorem readByte_unknown {env : Config.Environment} {s : State} {sp : Space} {draw : Nat}
    (h : s.buffer sp = Buffer.unknown draw) (i : Nat) : s.readByte env sp i = env.anyByte draw sp i := by
  unfold State.readByte; rw [h]; rfl

/-! ### Reading -/

theorem readByte_of_cell {env : Config.Environment} {s : State} {sp : Space} {i : Nat} {v : Byte}
    (h : cellAt (s.buffer sp).cells i = some v) : s.readByte env sp i = v := by
  unfold State.readByte; rw [h]

/-- Reading after a store: the bytes stored, and every other byte of every space as before. -/
theorem readByte_store (env : Config.Environment) (s : State) (sp sp' : Space) (i j : Nat)
    (bs : List Byte) :
    (s.store sp i bs).readByte env sp' j
      = if sp' = sp ∧ i ≤ j ∧ j < i + bs.length then bs.getD (j - i) 0
        else s.readByte env sp' j := by
  unfold State.readByte
  rw [State.store_buffer]
  by_cases hsp : sp' = sp
  · subst hsp
    simp only [if_true, Buffer.write, cellAt_splice, true_and]
    by_cases h : i ≤ j ∧ j < i + bs.length
    · have hlt : j - i < bs.length := by omega
      simp [h, List.getElem?_eq_getElem hlt]
    · simp [h]
  · simp [hsp]

theorem readByte_store_off (env : Config.Environment) (s : State) {sp sp' : Space} {i j : Nat}
    {bs : List Byte} (h : ¬ (sp' = sp ∧ i ≤ j ∧ j < i + bs.length)) :
    (s.store sp i bs).readByte env sp' j = s.readByte env sp' j := by
  rw [readByte_store, if_neg h]

/-- Reading after a havoc: the draw's values in the range, and every other byte as before. -/
theorem readByte_havoc (env : Config.Environment) (s : State) (sp sp' : Space)
    (lo hi draw j : Nat) :
    (s.havoc sp lo hi draw).readByte env sp' j
      = if sp' = sp ∧ lo ≤ j ∧ j < hi then env.anyByte draw sp' j
        else s.readByte env sp' j := by
  unfold State.readByte
  rw [State.havoc_buffer]
  by_cases hsp : sp' = sp
  · subst hsp
    simp only [if_true, Buffer.havoc, true_and]
    rw [cellAt_filter _ (fun k => decide (k < lo ∨ hi ≤ k))]
    by_cases h : lo ≤ j ∧ j < hi
    · have : ¬ (j < lo ∨ hi ≤ j) := by omega
      simp [h, this, drawAt]
    · have : j < lo ∨ hi ≤ j := by omega
      simp [h, this, drawAt]
  · simp [hsp]

@[simp] theorem readBytes_length (env : Config.Environment) (s : State) (sp : Space) (n : Nat) :
    (s.readBytes env sp n).length = n := by simp [State.readBytes]

theorem readBytes_getElem (env : Config.Environment) (s : State) (sp : Space) (n i : Nat)
    (h : i < (s.readBytes env sp n).length) :
    (s.readBytes env sp n)[i] = s.readByte env sp i := by simp [State.readBytes]

theorem readBytes_take (env : Config.Environment) (s : State) (sp : Space) {n k : Nat} (h : k ≤ n) :
    (s.readBytes env sp n).take k = s.readBytes env sp k := by
  unfold State.readBytes
  rw [← List.map_take, List.take_range, Nat.min_eq_left h]

theorem readBytes_succ (env : Config.Environment) (s : State) (sp : Space) (n : Nat) :
    s.readBytes env sp (n + 1) = s.readBytes env sp n ++ [s.readByte env sp n] := by
  simp [State.readBytes, List.range_succ]

/-- A sequence is what is read when each of its bytes is. -/
theorem readBytes_eq {env : Config.Environment} {s : State} {sp : Space} {n : Nat} {bs : List Byte}
    (hlen : bs.length = n) (h : ∀ i, i < n → s.readByte env sp i = bs.getD i 0) :
    s.readBytes env sp n = bs := by
  refine List.ext_getElem (by simp [hlen]) fun i h1 h2 => ?_
  rw [readBytes_getElem, h i (by omega)]
  simp [List.getElem?_eq_getElem h2]

/-- Bytes stored at the end of what was read are read after it. -/
theorem readBytes_store_append (env : Config.Environment) (s : State) (sp : Space) (n : Nat)
    (bs : List Byte) :
    (s.store sp n bs).readBytes env sp (n + bs.length) = s.readBytes env sp n ++ bs := by
  refine readBytes_eq (by simp) fun i hi => ?_
  rw [readByte_store]
  by_cases h : n ≤ i
  · have hlt : i - n < bs.length := by omega
    simp [h, hi, List.getElem?_eq_getElem hlt]
  · have h' : i < n := by omega
    simp [h, List.getElem?_append_left, h', readBytes_getElem]

end Sys2Proof.Machine
end

