-- ==== Sys2Proof/Laws/Stages.lean ====
section
/-! SUPPORT. What each shared operation of the stages can do: one inversion lemma each, cited instead of
unfolding the operation. -/

namespace Sys2Proof.Machine

/-! ### Bindings (R170) -/

/-- The running stage has the parameters of the table. -/
theorem runningStage_some {c : Command} {st : Stage} {s : State} {b : Binding} :
    runningStage c st s = some b ↔ s.phase = .busy ∧ s.stage = st ∧ binding c st s = some b := by
  unfold runningStage
  by_cases h : s.phase = .busy ∧ s.stage = st
  · simp [h]
  · simp only [h, if_false, reduceCtorEq, false_iff]
    exact fun h' => h ⟨h'.1, h'.2.1⟩

/-- Every stage reads and writes different spaces, never writes `SRC`, and its capacity is the one of
the space it writes. -/
theorem binding_spaces {c : Command} {st : Stage} {s : State} {b : Binding}
    (h : binding c st s = some b) :
    b.src ≠ b.dst ∧ b.dst ≠ .src
      ∧ (b.dst = .dst ∧ b.cap = s.dstCap ∨ b.dst = .mid ∧ b.cap = s.midCap) := by
  cases c <;> cases st <;> simp [binding] at h <;> subst h <;>
    simp [State.srcToDst, State.srcToMid, State.midToDst]

/-- A binding depends on the operand registers and `MID_LEN` alone. -/
theorem binding_congr {s t : State} (c : Command) (st : Stage) (h1 : t.srcLen = s.srcLen)
    (h2 : t.dstCap = s.dstCap) (h3 : t.midCap = s.midCap) (h4 : t.midLen = s.midLen) :
    binding c st t = binding c st s := by
  cases c <;> cases st <;> simp [binding, State.srcToDst, State.srcToMid, State.midToDst, h1, h2, h3, h4]

/-- The escape stage writes `DST`, and ends the commands that have it. -/
theorem binding_escape {c : Command} {s : State} {b : Binding} (h : binding c .escape s = some b) :
    (c = .escape ∧ b = s.srcToDst) ∨ (c = .encode ∧ b = s.midToDst) := by
  cases c <;> simp [binding] at h <;> subst h <;> simp

theorem binding_unescape {c : Command} {s : State} {b : Binding}
    (h : binding c .unescape s = some b) :
    (c = .unescape ∧ b = s.srcToDst) ∨ (c = .decode ∧ b = s.srcToMid) := by
  cases c <;> simp [binding] at h <;> subst h <;> simp

theorem binding_compress {c : Command} {s : State} {b : Binding}
    (h : binding c .compress s = some b) :
    (c = .compress ∧ b = s.srcToDst) ∨ (c = .encode ∧ b = s.srcToMid) := by
  cases c <;> simp [binding] at h <;> subst h <;> simp

theorem binding_decompress {c : Command} {s : State} {b : Binding}
    (h : binding c .decompress s = some b) :
    (c = .decompress ∧ b = s.srcToDst) ∨ (c = .decode ∧ b = s.midToDst) := by
  cases c <;> simp [binding] at h <;> subst h <;> simp

/-! ### Units and input bytes -/

/-- All that consuming a code unit can do (R151 to R156). -/
theorem consumeUnit_next {c : Command} {size : Nat} {v : Byte} {s t : State}
    (h : consumeUnit c size v s = .next t) :
    ∃ b, runningStage c .unescape s = some b ∧ s.rp < b.len
      ∧ ((b.len < s.rp + size ∧ t = s.raise c .malformedEscape)
        ∨ (s.rp + size ≤ b.len ∧ s.wp < b.cap
          ∧ t = (s.store b.dst s.wp [v]).advance size 1)) := by
  unfold consumeUnit at h
  split at h
  · cases h
  · next b hb =>
    refine ⟨b, hb, ?_⟩
    split at h
    · cases h
    · split at h
      · simp only [loneMarker, Host.Outcome.next.injEq] at h
        exact ⟨by omega, .inl ⟨by omega, h.symm⟩⟩
      · split at h
        · cases h
        · simp only [Host.Outcome.next.injEq] at h
          exact ⟨by omega, .inr ⟨by omega, by omega, h.symm⟩⟩

/-- All that the escape scan's finish can do (R137). -/
theorem escapeFinish_next {c : Command} {b : Binding} {s t : State}
    (h : escapeFinish c b s = .next t) :
    s.wp < b.cap
      ∧ t = (s.store b.dst s.wp [Config.term]).stageReturn c .escape s.wp := by
  unfold escapeFinish at h
  split at h
  · simp only [Host.Outcome.next.injEq] at h; exact ⟨by omega, h.symm⟩
  · cases h

/-- All that consuming an input byte can do (R132 to R137). -/
theorem emitUnit_next {c : Command} {out : List Byte} {s t : State}
    (h : emitUnit c out s = .next t) :
    ∃ b, runningStage c .escape s = some b ∧ s.rp < b.len
      ∧ ((s.wp + out.length ≤ b.cap - 1
          ∧ t = (s.store b.dst s.wp out).advance 1 out.length)
        ∨ (b.cap - 1 < s.wp + out.length
          ∧ escapeFinish c b s.truncated = .next t)) := by
  unfold emitUnit at h
  split at h
  · cases h
  · next b hb =>
    refine ⟨b, hb, ?_⟩
    split at h
    · cases h
    · split at h
      · next hf =>
        simp only [unitFits, decide_eq_true_eq] at hf
        simp only [Host.Outcome.next.injEq] at h
        exact ⟨by omega, .inl ⟨hf, h.symm⟩⟩
      · next hf =>
        simp only [unitFits, decide_eq_true_eq] at hf
        exact ⟨by omega, .inr ⟨by omega, h⟩⟩

/-- The bytes an input byte becomes: its closed form (R98, R132 to R135, R142). -/
theorem inputByte_eq (c : Command) (b : Byte) (s : State) :
    inputByte c b s = emitUnit c (escapeOne b) s := by
  have h : ∀ b : Byte, (match classOf b with
      | .q0 => [Config.markers.m0, payloadOf b]
      | .bs => [Config.markers.m1, payloadOf b]
      | .mk => [Config.markers.m3, payloadOf b]
      | .lit => [b]) = escapeOne b := by decide +kernel
  unfold inputByte
  rw [← h b]
  cases classOf b <;> rfl

/-- A byte's escape is one or two bytes. -/
theorem escapeOne_length (b : Byte) : (escapeOne b).length = 1 ∨ (escapeOne b).length = 2 := by
  unfold escapeOne escapeOneIn; split <;> simp

/-! ### Steps of the four stages -/

/-- All that one `escape_step` can do (R138). -/
theorem escapeStep_next {env : Config.Environment} {c : Command} {s t : State}
    (h : escapeStep env c s = .next t) :
    ∃ b, runningStage c .escape s = some b
      ∧ ((s.rp = b.len ∧ escapeFinish c b s = .next t)
        ∨ (s.rp < b.len
          ∧ emitUnit c (escapeOne (s.readByte env b.src s.rp)) s = .next t)) := by
  unfold escapeStep at h
  split at h
  · cases h
  · next b hb =>
    refine ⟨b, hb, ?_⟩
    split at h
    · next hr => exact .inl ⟨hr, h⟩
    · next hr =>
      split at h
      · cases h
      · rw [inputByte_eq] at h
        refine .inr ⟨?_, h⟩
        omega

/-- The byte a pair stands for, by its marker (R9). -/
theorem unitPair_eq (c : Command) (i : Fin 4) (p : Byte) (s : State) :
    unitPair c i p s = consumeUnit c 2 (pairValue i p) s := by
  match i with
  | 0 => rfl
  | 1 => rfl
  | 2 => rfl
  | 3 => rfl

/-- All that one `unescape_step` can do (R158). -/
theorem unescapeStep_next {env : Config.Environment} {c : Command} {s t : State}
    (h : unescapeStep env c s = .next t) :
    ∃ b, runningStage c .unescape s = some b
      ∧ ((s.rp = b.len ∧ t = s.stageReturn c .unescape s.wp)
        ∨ (s.rp < b.len
          ∧ ((isMarker (s.readByte env b.src s.rp) = false
              ∧ consumeUnit c 1 (s.readByte env b.src s.rp) s = .next t)
            ∨ (isMarker (s.readByte env b.src s.rp) = true
              ∧ s.rp + 1 = b.len ∧ t = s.raise c .malformedEscape)
            ∨ (isMarker (s.readByte env b.src s.rp) = true
              ∧ s.rp + 1 < b.len
              ∧ consumeUnit c 2 (unbiasIn Config.markers (s.readByte env b.src s.rp)
                  (s.readByte env b.src (s.rp + 1))) s = .next t)))) := by
  unfold unescapeStep at h
  split at h
  · cases h
  · next b hb =>
    refine ⟨b, hb, ?_⟩
    split at h
    · next hr =>
      simp only [Host.Outcome.next.injEq] at h
      exact .inl ⟨hr, h.symm⟩
    · next hr =>
      split at h
      · cases h
      · refine .inr ⟨by omega, ?_⟩
        simp only at h
        split at h
        · next hm => exact .inl ⟨by simpa using hm, h⟩
        · next hm =>
          split at h
          · next hl =>
            simp only [loneMarker, Host.Outcome.next.injEq] at h
            exact .inr (.inl ⟨by simpa using hm, hl, h.symm⟩)
          · next hl =>
            rw [unitPair_eq] at h
            exact .inr (.inr ⟨by simpa using hm, by omega, h⟩)

/-- The three ways an engine stage can end: no initialisation, a failure after it, or output (R119). -/
theorem compressStep_next {env : Config.Environment} {c : Command} {s t : State}
    (h : compressStep env c s = .next t) :
    ∃ b, runningStage c .compress s = some b
      ∧ ((env.initOk s.draws = false ∧ t = s.drawn.raise c .compEngineInitFailed)
        ∨ (env.initOk s.draws = true
          ∧ ((b.cap < (env.deflate (s.readBytes env b.src b.len)).length
              ∧ t = (s.drawn.havoc b.dst 0 b.cap s.draws).raise c .compBufferTooSmall)
            ∨ ((env.deflate (s.readBytes env b.src b.len)).length ≤ b.cap
              ∧ ((env.stepOk s.draws = false
                  ∧ t = (s.drawn.havoc b.dst 0 b.cap s.draws).raise c .compEngineStepFailed)
                ∨ (env.stepOk s.draws = true
                  ∧ t = (s.drawn.deliver b (env.deflate (s.readBytes env b.src b.len))
                      s.draws).stageReturn c .compress
                      (env.deflate (s.readBytes env b.src b.len)).length)))))) := by
  unfold compressStep at h
  split at h
  · cases h
  · next b hb =>
    refine ⟨b, hb, ?_⟩
    simp only [engineFailure] at h
    split at h
    · next hi =>
      simp only [Host.Outcome.next.injEq] at h
      exact .inl ⟨by simpa using hi, h.symm⟩
    · next hi =>
      refine .inr ⟨by simpa using hi, ?_⟩
      split at h
      · next hc =>
        simp only [Host.Outcome.next.injEq] at h
        exact .inl ⟨hc, h.symm⟩
      · next hc =>
        refine .inr ⟨by omega, ?_⟩
        split at h
        · next hs =>
          simp only [Host.Outcome.next.injEq] at h
          exact .inl ⟨by simpa using hs, h.symm⟩
        · next hs =>
          simp only [Host.Outcome.next.injEq] at h
          exact .inr ⟨by simpa using hs, h.symm⟩

theorem decompressStep_next {env : Config.Environment} {c : Command} {s t : State}
    (h : decompressStep env c s = .next t) :
    ∃ b, runningStage c .decompress s = some b
      ∧ ((env.initOk s.draws = false ∧ t = s.drawn.raise c .decEngineInitFailed)
        ∨ (env.initOk s.draws = true
          ∧ (((∀ x, env.inflate (s.readBytes env b.src b.len) = some x →
                b.cap < x.length)
              ∧ t = (s.drawn.havoc b.dst 0 b.cap s.draws).raise c .decTruncated)
            ∨ ∃ x, env.inflate (s.readBytes env b.src b.len) = some x
              ∧ x.length ≤ b.cap
              ∧ t = (s.drawn.deliver b x s.draws).stageReturn c .decompress
                  (x.length)))) := by
  unfold decompressStep at h
  split at h
  · cases h
  · next b hb =>
    refine ⟨b, hb, ?_⟩
    simp only [engineFailure] at h
    split at h
    · next hi =>
      simp only [Host.Outcome.next.injEq] at h
      exact .inl ⟨by simpa using hi, h.symm⟩
    · next hi =>
      refine .inr ⟨by simpa using hi, ?_⟩
      split at h
      · next hn =>
        simp only [Host.Outcome.next.injEq] at h
        exact .inl ⟨fun x hx => absurd (hn.symm.trans hx) (by simp), h.symm⟩
      · next x hx =>
        split at h
        · next hc =>
          simp only [Host.Outcome.next.injEq] at h
          exact .inl ⟨fun y hy => (Option.some.inj (hx.symm.trans hy)) ▸ hc, h.symm⟩
        · next hc =>
          simp only [Host.Outcome.next.injEq] at h
          exact .inr ⟨x, hx, by omega, h.symm⟩

end Sys2Proof.Machine
end

