-- ==== Sys2Proof/Laws/Sequencer.lean ====
section
/-! SUPPORT. The sequencer as a whole: a unit fetched and executed is a step of its scan, what a step can
change, and how a property kept by a step is kept by a command. -/

namespace Sys2Proof.Machine

/-! ### One definition for each route to an instruction -/

theorem exec_command (c : Command) (s : State) :
    exec c.instr s = runCommand Config.environment c s := by cases c <;> rfl

theorem payloadByte_parts (p : Byte) : payloadByte (payloadHi p) (payloadLow6 p) = p := by
  revert p; decide +kernel

theorem exec_decodeInput {c : Command} {s : State} (h : commandOf s.op = some c) (b : Byte) :
    exec (decodeInput b) s = inputByte c b s := by
  unfold decodeInput inputByte
  cases classOf b <;>
    simp only [exec, execEQ0, execEBs, execEMk, execELit, underCommand, h]

theorem exec_pairUnit {c : Command} {s : State} (h : commandOf s.op = some c) (i : Fin 4) (p : Byte) :
    exec (pairUnit i (payloadHi p) (payloadLow6 p)) s = unitPair c i p s := by
  match i with
  | 0 => simp only [pairUnit, exec, execEsc0, underCommand, h, payloadByte_parts, unitPair]
  | 1 => simp only [pairUnit, exec, execEsc1, underCommand, h, payloadByte_parts, unitPair]
  | 2 => simp only [pairUnit, exec, execEsc2, underCommand, h, payloadByte_parts, unitPair]
  | 3 => simp only [pairUnit, exec, execEsc3, underCommand, h, payloadByte_parts, unitPair]

/-- Fetching a unit and executing it is the step its scan takes (R45). -/
theorem sequencerMove_eq {env : Config.Environment} {c : Command} {s : State} (hb : s.phase = .busy)
    (hc : commandOf s.op = some c) : sequencerMove env s = sequencerStep env c s := by
  have hbs : (s.phase = .busy) = True := by simp [hb]
  simp only [sequencerMove, hbs, if_true, fetchUnit, hc]
  cases hr : runningStage c s.stage s with
  | none => rfl
  | some b =>
    by_cases hl : b.len ≤ s.rp
    · simp only [hl, if_true]
    · simp only [hl, if_false]
      have hne : s.rp ≠ b.len := fun e => hl (by rw [e])
      have hlt : ¬ b.len < s.rp := by omega
      cases hst : s.stage with
      | none => rfl
      | compress => rfl
      | decompress => rfl
      | escape =>
        rw [hst] at hr
        simp only [exec_decodeInput hc, sequencerStep, hst, escapeStep, hr, hne, hlt, if_false]
      | unescape =>
        rw [hst] at hr
        simp only [sequencerStep, hst, unescapeStep, hr, hne, hlt, if_false, unitBytes]
        by_cases h1 : s.rp + 1 < b.len
        · have h2 : s.rp + 1 ≠ b.len := by omega
          cases hm : isMarker (s.readByte env b.src s.rp) with
          | true => simp [decodeUnit, h1, h2, hm, exec_pairUnit hc]
          | false => simp [decodeUnit, h1, hm, exec, execLit, underCommand, hc]
        · have h2 : s.rp + 1 = b.len := by omega
          cases hm : isMarker (s.readByte env b.src s.rp) with
          | true => simp [decodeUnit, h2, hm]
          | false => simp [decodeUnit, h2, hm, exec, execLit, underCommand, hc]

/-! ### Frames -/

/-- Writing a space other than `SRC` leaves `SRC`. -/
theorem State.store_src (s : State) {sp : Space} (h : sp ≠ .src) (i : Nat) (bs : List Byte) :
    (s.store sp i bs).src = s.src := by
  cases sp <;> first | exact absurd rfl h | rfl

theorem State.havoc_src (s : State) {sp : Space} (h : sp ≠ .src) (lo hi draw : Nat) :
    (s.havoc sp lo hi draw).src = s.src := by
  cases sp <;> first | exact absurd rfl h | rfl

/-- What a stage that writes only `D[lo..hi)` leaves unchanged: the operands, the host's fields, `SRC`,
and every byte outside the range. -/
structure Frame (sp : Space) (lo hi : Nat) (s t : State) : Prop where
  operands : SameOperands s t
  host : SameHost s t
  src : t.src = s.src
  bytes : BytesKept s t fun sp' i => sp' = sp ∧ lo ≤ i ∧ i < hi

theorem Frame.of_buffers {s t : State} (sp : Space) (lo hi : Nat) (h1 : SameOperands s t)
    (h2 : SameHost s t) (h3 : ∀ sp', t.buffer sp' = s.buffer sp') : Frame sp lo hi s t :=
  ⟨h1, h2, h3 .src, fun env sp' i _ => State.readByte_congr env sp' i (h3 sp')⟩

theorem Frame.trans {sp : Space} {lo hi : Nat} {s t u : State} (h1 : Frame sp lo hi s t)
    (h2 : Frame sp lo hi t u) : Frame sp lo hi s u := by
  obtain ⟨⟨a1, a2, a3, a4⟩, ⟨a5, a6⟩, a7, a8⟩ := h1
  obtain ⟨⟨b1, b2, b3, b4⟩, ⟨b5, b6⟩, b7, b8⟩ := h2
  exact ⟨⟨b1.trans a1, b2.trans a2, b3.trans a3, b4.trans a4⟩, ⟨b5.trans a5, b6.trans a6⟩,
    b7.trans a7, fun env sp' i h => (b8 env sp' i h).trans (a8 env sp' i h)⟩

theorem Frame.store (s : State) {sp : Space} (hsp : sp ≠ .src) {lo hi i : Nat} {bs : List Byte}
    (h1 : lo ≤ i) (h2 : i + bs.length ≤ hi) : Frame sp lo hi s (s.store sp i bs) := by
  refine ⟨by simp [SameOperands], by simp [SameHost], State.store_src s hsp i bs, ?_⟩
  intro env sp' j hj
  refine readByte_store_off env s ?_
  rintro ⟨rfl, h3, h4⟩
  exact hj ⟨rfl, by omega, by omega⟩

theorem Frame.havoc (s : State) {sp : Space} (hsp : sp ≠ .src) {lo hi lo' hi' draw : Nat}
    (h1 : lo ≤ lo') (h2 : hi' ≤ hi) : Frame sp lo hi s (s.havoc sp lo' hi' draw) := by
  refine ⟨by simp [SameOperands], by simp [SameHost], State.havoc_src s hsp .., ?_⟩
  intro env sp' j hj
  rw [readByte_havoc, if_neg]
  rintro ⟨rfl, h3, h4⟩
  exact hj ⟨rfl, by omega, by omega⟩

theorem Frame.advance (s : State) (sp : Space) (lo hi r w : Nat) : Frame sp lo hi s (s.advance r w) :=
  .of_buffers _ _ _ ⟨rfl, rfl, rfl, rfl⟩ ⟨rfl, rfl⟩ fun _ => rfl

theorem Frame.raise (s : State) (sp : Space) (lo hi : Nat) (c : Command) (code : Status) :
    Frame sp lo hi s (s.raise c code) :=
  .of_buffers _ _ _ ⟨rfl, rfl, rfl, rfl⟩ ⟨rfl, rfl⟩ fun _ => rfl

theorem State.stageReturn_buffer (s : State) (c : Command) (st : Stage) (n : Nat) (sp : Space) :
    (s.stageReturn c st n).buffer sp = s.buffer sp := by
  cases c <;> cases st <;> rfl

theorem Frame.stageReturn (s : State) (sp : Space) (lo hi : Nat) (c : Command) (st : Stage) (n : Nat) :
    Frame sp lo hi s (s.stageReturn c st n) := by
  refine .of_buffers _ _ _ ?_ ?_ fun sp' => State.stageReturn_buffer s c st n sp' <;>
    cases c <;> cases st <;> simp [State.stageReturn, SameOperands, SameHost]

theorem Frame.truncated (s : State) (sp : Space) (lo hi : Nat) : Frame sp lo hi s s.truncated :=
  .of_buffers _ _ _ ⟨rfl, rfl, rfl, rfl⟩ ⟨rfl, rfl⟩ fun _ => rfl

theorem Frame.drawn (s : State) (sp : Space) (lo hi : Nat) : Frame sp lo hi s s.drawn :=
  .of_buffers _ _ _ ⟨rfl, rfl, rfl, rfl⟩ ⟨rfl, rfl⟩ fun _ => rfl

/-- A code unit writes within the capacity of its stage. -/
theorem consumeUnit_frame {c : Command} {size : Nat} {v : Byte} {s t : State}
    (h : consumeUnit c size v s = .next t) :
    ∃ b, runningStage c .unescape s = some b ∧ Frame b.dst 0 b.cap s t := by
  obtain ⟨b, hb, -, ⟨-, rfl⟩ | ⟨-, hw, rfl⟩⟩ := consumeUnit_next h
  · exact ⟨b, hb, .raise ..⟩
  · have hsp := (binding_spaces (runningStage_some.1 hb).2.2).2.1
    exact ⟨b, hb, (Frame.store s hsp (by omega) (by simp; omega)).trans (.advance ..)⟩

/-- An input byte writes within the capacity of its stage, terminator included. -/
theorem emitUnit_frame {c : Command} {out : List Byte} {s t : State}
    (h : emitUnit c out s = .next t) :
    ∃ b, runningStage c .escape s = some b ∧ (out ≠ [] → Frame b.dst 0 b.cap s t) := by
  obtain ⟨b, hb, -, ⟨hw, rfl⟩ | ⟨-, hf⟩⟩ := emitUnit_next h
  · have hsp := (binding_spaces (runningStage_some.1 hb).2.2).2.1
    refine ⟨b, hb, fun ho => (Frame.store s hsp (by omega) ?_).trans (.advance ..)⟩
    have := List.length_pos_iff.2 ho
    omega
  · have hsp := (binding_spaces (runningStage_some.1 hb).2.2).2.1
    obtain ⟨hw, rfl⟩ := escapeFinish_next hf
    refine ⟨b, hb, fun _ => (Frame.truncated ..).trans ((Frame.store _ hsp (by omega) ?_).trans
      (.stageReturn ..))⟩
    simpa using hw

theorem escapeOne_ne_nil (b : Byte) : escapeOne b ≠ [] := by
  have := escapeOne_length b
  intro h
  simp [h] at this

/-- Every sequencer step writes within the capacity of the running stage and nowhere else (R67, R73). -/
theorem sequencerStep_frame {env : Config.Environment} {c : Command} {s t : State}
    (h : sequencerStep env c s = .next t) :
    ∃ b, runningStage c s.stage s = some b ∧ Frame b.dst 0 b.cap s t := by
  cases hst : s.stage with
  | none => simp [sequencerStep, hst] at h
  | compress =>
    simp only [sequencerStep, hst] at h
    obtain ⟨b, hb, h⟩ := compressStep_next h
    have hsp := (binding_spaces (runningStage_some.1 hb).2.2).2.1
    refine ⟨b, hb, ?_⟩
    rcases h with ⟨-, rfl⟩ | ⟨-, ⟨-, rfl⟩ | ⟨hl, ⟨-, rfl⟩ | ⟨-, rfl⟩⟩⟩
    · exact (Frame.drawn ..).trans (.raise ..)
    · exact (Frame.drawn ..).trans ((Frame.havoc _ hsp (by omega) (by omega)).trans (.raise ..))
    · exact (Frame.drawn ..).trans ((Frame.havoc _ hsp (by omega) (by omega)).trans (.raise ..))
    · exact (Frame.drawn ..).trans ((Frame.store _ hsp (by omega) (by omega)).trans
        ((Frame.havoc _ hsp (by omega) (by omega)).trans (.stageReturn ..)))
  | decompress =>
    simp only [sequencerStep, hst] at h
    obtain ⟨b, hb, h⟩ := decompressStep_next h
    have hsp := (binding_spaces (runningStage_some.1 hb).2.2).2.1
    refine ⟨b, hb, ?_⟩
    rcases h with ⟨-, rfl⟩ | ⟨-, ⟨-, rfl⟩ | ⟨x, -, hl, rfl⟩⟩
    · exact (Frame.drawn ..).trans (.raise ..)
    · exact (Frame.drawn ..).trans ((Frame.havoc _ hsp (by omega) (by omega)).trans (.raise ..))
    · exact (Frame.drawn ..).trans ((Frame.store _ hsp (by omega) (by omega)).trans
        ((Frame.havoc _ hsp (by omega) (by omega)).trans (.stageReturn ..)))
  | escape =>
    simp only [sequencerStep, hst] at h
    obtain ⟨b, hb, ⟨-, hf⟩ | ⟨-, he⟩⟩ := escapeStep_next h
    · have hsp := (binding_spaces (runningStage_some.1 hb).2.2).2.1
      obtain ⟨hw, rfl⟩ := escapeFinish_next hf
      exact ⟨b, hb, (Frame.store _ hsp (by omega) (by simpa using hw)).trans (.stageReturn ..)⟩
    · obtain ⟨b', hb', hf⟩ := emitUnit_frame he
      cases hb.symm.trans hb'
      exact ⟨b, hb, hf (escapeOne_ne_nil _)⟩
  | unescape =>
    simp only [sequencerStep, hst] at h
    obtain ⟨b, hb, ⟨-, rfl⟩ | ⟨-, ⟨-, hu⟩ | ⟨-, -, rfl⟩ | ⟨-, -, hu⟩⟩⟩ := unescapeStep_next h
    · exact ⟨b, hb, .stageReturn ..⟩
    · obtain ⟨b', hb', hf⟩ := consumeUnit_frame hu
      cases hb.symm.trans hb'
      exact ⟨b, hb, hf⟩
    · exact ⟨b, hb, .raise ..⟩
    · obtain ⟨b', hb', hf⟩ := consumeUnit_frame hu
      cases hb.symm.trans hb'
      exact ⟨b, hb, hf⟩

/-! ### Whole commands -/

theorem runToDone_idle {env : Config.Environment} {c : Command} {s : State} (h : s.phase ≠ .busy)
    (n : Nat) : runToDone env c n s = .next s := by
  cases n <;> simp [runToDone, h]

/-- The first step of a command and the rest of it. -/
theorem runToDone_step {env : Config.Environment} {c : Command} {s t : State} {n : Nat}
    (h : s.phase = .busy) (hs : sequencerStep env c s = .next t) :
    runToDone env c (n + 1) s = runToDone env c n t := by
  simp [runToDone, h, hs]

/-- What every step of a command keeps, the command keeps; and it ends outside `BUSY`. -/
theorem runToDone_induct {env : Config.Environment} {c : Command} {P : State → Prop}
    (hstep : ∀ s t, s.phase = .busy → P s → sequencerStep env c s = .next t → P t) :
    ∀ {n s t}, P s → runToDone env c n s = .next t → P t ∧ t.phase ≠ .busy
  | 0, s, t, hp, h => by
    unfold runToDone at h
    split at h
    · cases h
    · next hb => cases h; exact ⟨hp, hb⟩
  | n + 1, s, t, hp, h => by
    unfold runToDone at h
    split at h
    · next hb =>
      split at h
      · next s' hs => exact runToDone_induct hstep (hstep s s' hb hp hs) h
      · cases h
      · cases h
    · next hb => cases h; exact ⟨hp, hb⟩

/-- A command that ends does so within every greater bound. -/
theorem runToDone_mono {env : Config.Environment} {c : Command} {t : State} :
    ∀ {n m s}, n ≤ m → runToDone env c n s = .next t → runToDone env c m s = .next t
  | 0, m, s, _, h => by
    unfold runToDone at h
    split at h
    · cases h
    · next hb => cases h; exact runToDone_idle hb m
  | n + 1, 0, _, hm, _ => absurd hm (by omega)
  | n + 1, m + 1, s, hm, h => by
    unfold runToDone at h ⊢
    split at h
    · next hb =>
      split at h
      · next s' hs => simp only [hb, if_true]; exact runToDone_mono (by omega) h
      · cases h
      · cases h
    · next hb => simpa [hb] using h

/-- A run of the machine behind the host's interface, one step at a time. -/
theorem core_run_succ {n : Nat} {s s' : State} (h : step s = .next s') :
    core.run (n + 1) s = core.run n s' := by
  have e : core.step s = .next s' := h
  simp only [Host.Core.run, e]

/-- With no move queued, the machine's steps are the sequencer's, and after `DONE` it waits. -/
theorem core_run_of_runToDone {c : Command} : ∀ {n : Nat} {s t : State}, s.turns = [] →
    commandOf s.op = some c → runToDone Config.environment c n s = .next t → core.run n s = .next t
  | 0, s, t, _, _, h => by
    unfold runToDone at h
    split at h
    · cases h
    · cases h; rfl
  | n + 1, s, t, ht, hc, h => by
    have e : step s = sequencerMove Config.environment s := by unfold step nextMove; rw [ht]
    unfold runToDone at h
    split at h
    · next hb =>
      split at h
      · next s' hs =>
        obtain ⟨_, _, hf⟩ := sequencerStep_frame hs
        rw [core_run_succ (e.trans ((sequencerMove_eq hb hc).trans hs))]
        exact core_run_of_runToDone (hf.host.1.trans ht) (by rw [hf.operands.1, hc]) h
      · cases h
      · cases h
    · next hb =>
      cases h
      rw [core_run_succ (e.trans (if_neg hb))]
      exact core_run_of_runToDone ht hc (runToDone_idle hb n)

/-- A binding survives a frame that keeps `MID_LEN`. -/
theorem Frame.binding {sp : Space} {lo hi : Nat} {s t : State} (h : Frame sp lo hi s t) (c : Command)
    (st : Stage) (hm : t.midLen = s.midLen) : Machine.binding c st t = Machine.binding c st s :=
  binding_congr c st h.operands.2.1 h.operands.2.2.1 h.operands.2.2.2 hm

end Sys2Proof.Machine
end

