-- ==== Sys2Proof/Laws/Scans.lean ====
section
/-! SUPPORT. The two scans run to the point where they end: what a running escape or unescape scan has done
when it takes its last step, and how many steps it took. -/

namespace Sys2Proof.Machine

/-- How a scan with binding `b` has moved from `s` to `u`: its cursors, its destination from the old `WP`
to the new, and nothing else. -/
structure Scanned (b : Binding) (s u : State) : Prop where
  operands : SameOperands s u
  host : SameHost s u
  draws : u.draws = s.draws
  phase : u.phase = s.phase
  stage : u.stage = s.stage
  midLen : u.midLen = s.midLen
  status : u.status = s.status
  trunc : u.trunc = s.trunc
  len : u.len = s.len
  others : ∀ sp, sp ≠ b.dst → u.buffer sp = s.buffer sp
  bytes : BytesKept s u fun sp i => sp = b.dst ∧ s.wp ≤ i ∧ i < u.wp
  wp_le : s.wp ≤ u.wp

theorem Scanned.refl (b : Binding) (s : State) : Scanned b s s :=
  ⟨⟨rfl, rfl, rfl, rfl⟩, ⟨rfl, rfl⟩, rfl, rfl, rfl, rfl, rfl, rfl, rfl, fun _ _ => rfl,
    fun _ _ _ _ => rfl, Nat.le_refl _⟩

theorem Scanned.trans {b : Binding} {s t u : State} (h1 : Scanned b s t) (h2 : Scanned b t u) :
    Scanned b s u where
  operands := ⟨h2.operands.1.trans h1.operands.1, h2.operands.2.1.trans h1.operands.2.1,
    h2.operands.2.2.1.trans h1.operands.2.2.1, h2.operands.2.2.2.trans h1.operands.2.2.2⟩
  host := ⟨h2.host.1.trans h1.host.1, h2.host.2.trans h1.host.2⟩
  draws := h2.draws.trans h1.draws
  phase := h2.phase.trans h1.phase
  stage := h2.stage.trans h1.stage
  midLen := h2.midLen.trans h1.midLen
  status := h2.status.trans h1.status
  trunc := h2.trunc.trans h1.trunc
  len := h2.len.trans h1.len
  others := fun sp h => (h2.others sp h).trans (h1.others sp h)
  bytes := by
    intro env sp i h
    have e1 := h1.wp_le
    have e2 := h2.wp_le
    rw [h2.bytes env sp i (fun ⟨a, b, c⟩ => h ⟨a, by omega, c⟩),
      h1.bytes env sp i (fun ⟨a, b, c⟩ => h ⟨a, b, by omega⟩)]
  wp_le := Nat.le_trans h1.wp_le h2.wp_le

/-- The scan is still running, with the same parameters. -/
theorem Scanned.running {c : Command} {st : Stage} {b : Binding} {s u : State} (h : Scanned b s u)
    (hr : runningStage c st s = some b) : runningStage c st u = some b := by
  obtain ⟨h1, h2, h3⟩ := runningStage_some.1 hr
  refine runningStage_some.2 ⟨h.phase.trans h1, h.stage.trans h2, ?_⟩
  rw [← h3]
  exact binding_congr c st h.operands.2.1 h.operands.2.2.1 h.operands.2.2.2 h.midLen

theorem Scanned.store (b : Binding) (s : State) (bs : List Byte) (r : Nat) :
    Scanned b s ((s.store b.dst s.wp bs).advance r bs.length) where
  operands := by simp [SameOperands]
  host := by simp [SameHost]
  draws := by simp
  phase := by simp
  stage := by simp
  midLen := by simp
  status := by simp
  trunc := by simp
  len := by simp
  others := by
    intro sp hsp
    rw [State.advance_buffer, State.store_buffer, if_neg hsp]
  bytes := by
    intro env sp i hi
    rw [State.readByte_congr env _ _ (State.advance_buffer _ _ _ _)]
    refine readByte_store_off env s ?_
    rintro ⟨rfl, h1, h2⟩
    refine hi ⟨rfl, h1, ?_⟩
    rw [State.advance_wp, State.store_wp]
    exact h2
  wp_le := by
    rw [State.advance_wp, State.store_wp]
    omega

/-- What has been written grows by the bytes of the unit. -/
theorem readBytes_scan_store (env : Config.Environment) (b : Binding) (s : State) (bs : List Byte)
    (r : Nat) :
    let u := (s.store b.dst s.wp bs).advance r bs.length
    u.readBytes env b.dst u.wp = s.readBytes env b.dst s.wp ++ bs := by
  intro u
  have e : u.wp = s.wp + bs.length := by
    rw [State.advance_wp, State.store_wp]
  rw [e, State.readBytes_congr env _ _ (State.advance_buffer _ _ _ _), readBytes_store_append]

/-- The source still to be read, from `RP` to the end. -/
def Ahead (env : Config.Environment) (b : Binding) (s : State) (rest : List Byte) : Prop :=
  s.rp + rest.length = b.len
    ∧ ∀ i (h : i < rest.length), s.readByte env b.src (s.rp + i) = rest[i]

theorem ahead_start (env : Config.Environment) (b : Binding) (s : State) (h : s.rp = 0) :
    Ahead env b s (s.readBytes env b.src b.len) := by
  refine ⟨by simp [h], fun i hi => ?_⟩
  rw [readBytes_getElem, h]
  simp

/-- Dropping from the front what a move of the cursor passed. -/
theorem Ahead.drop {env : Config.Environment} {b : Binding} {s u : State} {front rest : List Byte}
    (h : Ahead env b s (front ++ rest)) (hs : u.buffer b.src = s.buffer b.src)
    (hr : u.rp = s.rp + front.length) : Ahead env b u rest := by
  obtain ⟨h1, h2⟩ := h
  refine ⟨by simp only [List.length_append] at h1; omega, fun i hi => ?_⟩
  have := h2 (front.length + i) (by simp; omega)
  rw [State.readByte_congr env _ _ hs, hr, Nat.add_assoc, this]
  simp

theorem escapeFn_cons (b : Byte) (x : List Byte) : escapeFn (b :: x) = escapeOne b ++ escapeFn x := by
  simp [escapeFn, escapeFnIn, escapeOne]

theorem fullLen_cons (b : Byte) (x : List Byte) : fullLen (b :: x) = (escapeOne b).length + fullLen x := by
  simp [fullLen, escapeFn_cons]

/-- A running escape scan reaches its last step: every byte it consumed is escaped in the destination,
and it stopped at the end of the source or at the first byte that does not fit (R138, R142). -/
theorem escape_scan (env : Config.Environment) (c : Command) (b : Binding) :
    ∀ (rest : List Byte) (s : State), runningStage c .escape s = some b → Ahead env b s rest →
      1 ≤ b.cap → s.wp ≤ b.cap - 1 →
      ∃ u k, k ≤ rest.length ∧ (∀ m, runToDone env c (k + m) s = runToDone env c m u)
        ∧ Scanned b s u ∧ u.rp = s.rp + k ∧ Ahead env b u (rest.drop k)
        ∧ u.wp = s.wp + fullLen (rest.take k) ∧ u.wp ≤ b.cap - 1
        ∧ u.readBytes env b.dst u.wp
            = s.readBytes env b.dst s.wp ++ escapeFn (rest.take k)
        ∧ (k < rest.length → b.cap - 1 < s.wp + fullLen (rest.take (k + 1)))
  | [], s, _, ha, _, hw =>
    ⟨s, 0, Nat.le_refl _, fun m => by rw [Nat.zero_add], .refl b s, rfl, ha, by simp [fullLen, escapeFn, escapeFnIn], hw,
      by simp [escapeFn, escapeFnIn], by simp⟩
  | x :: rest, s, hr, ha, hc, hw => by
    obtain ⟨hb, hst, hbd⟩ := runningStage_some.1 hr
    have hrp : s.rp < b.len := by have := ha.1; simp at this; omega
    have hne : s.rp ≠ b.len := fun e => absurd hrp (by rw [e]; omega)
    have hx : s.readByte env b.src s.rp = x := ha.2 0 (by simp)
    by_cases hfit : s.wp + (escapeOne x).length ≤ b.cap - 1
    · have hstep : sequencerStep env c s
          = .next ((s.store b.dst s.wp (escapeOne x)).advance 1 (escapeOne x).length) := by
        simp only [sequencerStep, hst, escapeStep, hr, hne, if_false, inputByte_eq, hx, emitUnit,
          unitFits, hfit, decide_true, if_true]
        rw [if_neg (by omega), if_neg (by omega)]
      have hsc := Scanned.store b s (escapeOne x) 1
      have hrd := readBytes_scan_store env b s (escapeOne x) 1
      have hwp : ((s.store b.dst s.wp (escapeOne x)).advance 1 (escapeOne x).length).wp
          = s.wp + (escapeOne x).length := by
        rw [State.advance_wp, State.store_wp]
      have hrp' : ((s.store b.dst s.wp (escapeOne x)).advance 1 (escapeOne x).length).rp
          = s.rp + 1 := by
        rw [State.advance_rp, State.store_rp]
      revert hstep hsc hrd hwp hrp'
      generalize (s.store b.dst s.wp (escapeOne x)).advance 1 (escapeOne x).length = s'
      intro hstep hsc hrd hwp hrp'
      obtain ⟨u, k, h1, h2, h3, h4, h5, h6, h7, h8, h9⟩ := escape_scan env c b rest s' (hsc.running hr)
        (Ahead.drop (front := [x]) ha (hsc.others _ (binding_spaces hbd).1) hrp') hc (by omega)
      refine ⟨u, k + 1, by simp; omega, fun m => ?_, hsc.trans h3, by omega, by simpa using h5, ?_, h7,
        ?_, fun hk => ?_⟩
      · rw [show k + 1 + m = (k + m) + 1 by omega, runToDone_step hb hstep, h2]
      · rw [List.take_succ_cons, fullLen_cons]; omega
      · rw [List.take_succ_cons, escapeFn_cons, h8, hrd, List.append_assoc]
      · have := h9 (by simpa using hk)
        rw [List.take_succ_cons, fullLen_cons]; omega
    · refine ⟨s, 0, Nat.zero_le _, fun m => by rw [Nat.zero_add], .refl b s, rfl, ha, by simp [fullLen, escapeFn, escapeFnIn],
        hw, by simp [escapeFn, escapeFnIn], fun _ => ?_⟩
      rw [List.take_succ_cons, fullLen_cons]
      omega

/-- A running unescape scan reaches its last step: what it consumed is decoded in the destination, and it
stopped at the end of the source or at a lone marker that is its last byte (R158, R163). -/
theorem unescape_scan (env : Config.Environment) (c : Command) (b : Binding) :
    ∀ (rest : List Byte) (s : State), runningStage c .unescape s = some b → Ahead env b s rest →
      s.wp ≤ s.rp → b.len ≤ b.cap →
      ∃ u k y, k ≤ rest.length ∧ (∀ m, runToDone env c (k + m) s = runToDone env c m u)
        ∧ Scanned b s u ∧ u.wp = s.wp + y.length ∧ u.wp ≤ u.rp
        ∧ u.readBytes env b.dst u.wp = s.readBytes env b.dst s.wp ++ y
        ∧ ((u.rp = b.len ∧ unescapeFn rest = some y)
          ∨ (u.rp + 1 = b.len
            ∧ isMarker (u.readByte env b.src u.rp) = true ∧ k < rest.length
            ∧ unescapeFn rest = none ∧ unescapeFn (rest.take (rest.length - 1)) = some y))
  | [], s, _, ha, hw, _ =>
    ⟨s, 0, [], Nat.le_refl _, fun m => by rw [Nat.zero_add], .refl b s, rfl, hw, by simp,
      .inl ⟨(by simpa using ha.1), rfl⟩⟩
  | [m], s, hr, ha, hw, hcap => by
    obtain ⟨hb, hst, hbd⟩ := runningStage_some.1 hr
    have hrp : s.rp + 1 = b.len := by simpa using ha.1
    have hne : s.rp ≠ b.len := fun e => absurd hrp (by rw [e]; omega)
    have hx : s.readByte env b.src s.rp = m := ha.2 0 (by simp)
    cases hm : isMarker m with
    | true =>
      refine ⟨s, 0, [], Nat.zero_le _, fun m => by rw [Nat.zero_add], .refl b s, rfl, hw, by simp,
        .inr ⟨hrp, by rw [hx]; exact hm, by simp, ?_, rfl⟩⟩
      simp only [isMarker] at hm
      simp [unescapeFn, unescapeFnIn, hm]
    | false =>
      have hstep : sequencerStep env c s = .next ((s.store b.dst s.wp [m]).advance 1 [m].length) := by
        simp only [sequencerStep, hst, unescapeStep, hr, hne, if_false, hx, hm, Bool.not_false, if_true,
          unitLit, consumeUnit, List.length_singleton]
        rw [if_neg (by omega), if_neg (by omega), if_neg (by omega), if_neg (by omega)]
      refine ⟨_, 1, [m], by simp, fun k => ?_, Scanned.store b s [m] 1, ?_, ?_,
        readBytes_scan_store env b s [m] 1, .inl ⟨?_, ?_⟩⟩
      · rw [Nat.add_comm 1 k, runToDone_step hb hstep]
      · rw [State.advance_wp, State.store_wp]
      · rw [State.advance_wp, State.store_wp, State.advance_rp, State.store_rp]
        simp; omega
      · rw [State.advance_rp, State.store_rp]; omega
      · simp only [isMarker] at hm
        simp [unescapeFn, unescapeFnIn, hm]
  | m :: p :: rest, s, hr, ha, hw, hcap => by
    obtain ⟨hb, hst, hbd⟩ := runningStage_some.1 hr
    have hrp : s.rp + 1 < b.len := by have := ha.1; simp at this; omega
    have hne : s.rp ≠ b.len := fun e => absurd hrp (by rw [e]; omega)
    have hx : s.readByte env b.src s.rp = m := ha.2 0 (by simp)
    have hy : s.readByte env b.src (s.rp + 1) = p := ha.2 1 (by simp)
    cases hm : isMarker m with
    | true =>
      have hstep : sequencerStep env c s
          = .next ((s.store b.dst s.wp [unbiasIn Config.markers m p]).advance 2
              [unbiasIn Config.markers m p].length) := by
        simp only [sequencerStep, hst, unescapeStep, hr, hne, if_false, hx, hm, hy, Bool.not_true,
          Bool.false_eq_true, unitPair_eq, consumeUnit, List.length_singleton]
        rw [if_neg (by omega), if_neg (by omega), if_neg (by omega), if_neg (by omega),
          if_neg (by omega)]
        rfl
      have hsc := Scanned.store b s [unbiasIn Config.markers m p] 2
      have hrd := readBytes_scan_store env b s [unbiasIn Config.markers m p] 2
      have hwp : ((s.store b.dst s.wp [unbiasIn Config.markers m p]).advance 2
          [unbiasIn Config.markers m p].length).wp = s.wp + 1 := by
        rw [State.advance_wp, State.store_wp]; rfl
      have hrp' : ((s.store b.dst s.wp [unbiasIn Config.markers m p]).advance 2
          [unbiasIn Config.markers m p].length).rp = s.rp + 2 := by
        rw [State.advance_rp, State.store_rp]
      revert hstep hsc hrd hwp hrp'
      generalize (s.store b.dst s.wp [unbiasIn Config.markers m p]).advance 2
        [unbiasIn Config.markers m p].length = s'
      intro hstep hsc hrd hwp hrp'
      obtain ⟨u, k, y, h1, h2, h3, h4, h5, h6, h7⟩ := unescape_scan env c b rest s' (hsc.running hr)
        (Ahead.drop (front := [m, p]) ha (hsc.others _ (binding_spaces hbd).1) hrp') (by omega) hcap
      have hfn : ∀ l, unescapeFn (m :: p :: l)
          = (unescapeFn l).map (unbiasIn Config.markers m p :: ·) := by
        simp only [isMarker] at hm
        intro l
        simp [unescapeFn, unescapeFnIn, hm]
      refine ⟨u, k + 1, unbiasIn Config.markers m p :: y, by simp; omega, fun j => ?_, hsc.trans h3,
        by simp; omega, h5, by rw [h6, hrd]; simp, ?_⟩
      · rw [show k + 1 + j = (k + j) + 1 by omega, runToDone_step hb hstep, h2]
      · rcases h7 with ⟨e1, e2⟩ | ⟨e1, e2, e3, e4, e5⟩
        · exact .inl ⟨e1, by rw [hfn, e2]; rfl⟩
        · refine .inr ⟨e1, e2, by simp; omega, by rw [hfn, e4]; rfl, ?_⟩
          have hl : 0 < rest.length := by omega
          rw [show (m :: p :: rest).length - 1 = (rest.length - 1) + 1 + 1 by simp; omega,
            List.take_succ_cons, List.take_succ_cons, hfn, e5]
          rfl
    | false =>
      have hstep : sequencerStep env c s = .next ((s.store b.dst s.wp [m]).advance 1 [m].length) := by
        simp only [sequencerStep, hst, unescapeStep, hr, hne, if_false, hx, hm, Bool.not_false, if_true,
          unitLit, consumeUnit, List.length_singleton]
        rw [if_neg (by omega), if_neg (by omega), if_neg (by omega), if_neg (by omega)]
      have hsc := Scanned.store b s [m] 1
      have hrd := readBytes_scan_store env b s [m] 1
      have hwp : ((s.store b.dst s.wp [m]).advance 1 [m].length).wp = s.wp + 1 := by
        rw [State.advance_wp, State.store_wp]; rfl
      have hrp' : ((s.store b.dst s.wp [m]).advance 1 [m].length).rp = s.rp + 1 := by
        rw [State.advance_rp, State.store_rp]
      revert hstep hsc hrd hwp hrp'
      generalize (s.store b.dst s.wp [m]).advance 1 [m].length = s'
      intro hstep hsc hrd hwp hrp'
      obtain ⟨u, k, y, h1, h2, h3, h4, h5, h6, h7⟩ := unescape_scan env c b (p :: rest) s'
        (hsc.running hr)
        (Ahead.drop (front := [m]) ha (hsc.others _ (binding_spaces hbd).1) hrp') (by omega) hcap
      have hfn : ∀ l, unescapeFn (m :: l) = (unescapeFn l).map (m :: ·) := by
        simp only [isMarker] at hm
        intro l
        cases l <;> simp [unescapeFn, unescapeFnIn, hm]
      refine ⟨u, k + 1, m :: y, by simp at h1 ⊢; omega, fun j => ?_, hsc.trans h3, by simp; omega, h5,
        by rw [h6, hrd]; simp, ?_⟩
      · rw [show k + 1 + j = (k + j) + 1 by omega, runToDone_step hb hstep, h2]
      · rcases h7 with ⟨e1, e2⟩ | ⟨e1, e2, e3, e4, e5⟩
        · exact .inl ⟨e1, by rw [hfn, e2]; rfl⟩
        · refine .inr ⟨e1, e2, by simp at e3 ⊢; omega, by rw [hfn, e4]; rfl, ?_⟩
          rw [show (m :: p :: rest).length - 1 = ((p :: rest).length - 1) + 1 by simp,
            List.take_succ_cons, hfn, e5]
          rfl

/-- The last step of an escape scan: the terminator, `TRUNC` if a byte was left, and completion. -/
theorem escape_last (env : Config.Environment) {c : Command} {b : Binding} {u : State} {rest : List Byte}
    (hr : runningStage c .escape u = some b) (ha : Ahead env b u rest) (hcap : 1 ≤ b.cap)
    (hw : u.wp ≤ b.cap - 1)
    (hf : ∀ x xs, rest = x :: xs → b.cap - 1 < u.wp + (escapeOne x).length) :
    sequencerStep env c u = .next
      (((if rest = [] then u else u.truncated).store b.dst u.wp [Config.term]).complete u.wp) := by
  obtain ⟨hb, hst, hbd⟩ := runningStage_some.1 hr
  have hwlt : u.wp < b.cap := by omega
  have hc : ∀ (v : State) n, v.stageReturn c .escape n = v.complete n := by
    intro v n
    rcases binding_escape hbd with ⟨rfl, _⟩ | ⟨rfl, _⟩ <;> rfl
  match rest with
  | [] =>
    have hrp : u.rp = b.len := (by simpa using ha.1)
    simp only [sequencerStep, hst, escapeStep, hr, hrp, if_true, escapeFinish, hwlt, hc]
  | x :: xs =>
    have hrp : u.rp < b.len := by have := ha.1; simp at this; omega
    have hne : u.rp ≠ b.len := fun e => absurd hrp (by rw [e]; omega)
    have hx : u.readByte env b.src u.rp = x := ha.2 0 (by simp)
    have hf' := hf x xs rfl
    simp only [sequencerStep, hst, escapeStep, hr, hne, if_false, inputByte_eq, hx, emitUnit,
      unitFits, escapeFinish, hc]
    rw [if_neg (by omega), if_neg (by omega), if_neg (by simp; omega), if_pos (by simpa)]
    simp

theorem fullLen_take_succ (x : List Byte) (k : Nat) (h : k < x.length) :
    fullLen (x.take (k + 1)) = fullLen (x.take k) + (escapeOne x[k]).length := by
  have e : ∀ a b, fullLen (a ++ b) = fullLen a + fullLen b := by
    intro a b; simp [fullLen, escapeFn, escapeFnIn]
  rw [List.take_succ_eq_append_getElem h, e]
  simp [fullLen, escapeFn, escapeFnIn, escapeOne]

/-- The last step of an unescape scan at the end of its source. -/
theorem unescape_last (env : Config.Environment) {c : Command} {b : Binding} {u : State}
    (hr : runningStage c .unescape u = some b) (h : u.rp = b.len) :
    sequencerStep env c u = .next (u.stageReturn c .unescape u.wp) := by
  obtain ⟨-, hst, -⟩ := runningStage_some.1 hr
  simp only [sequencerStep, hst, unescapeStep, hr, h, if_true]

/-- The last step of an unescape scan at a lone marker. -/
theorem unescape_lone (env : Config.Environment) {c : Command} {b : Binding} {u : State}
    (hr : runningStage c .unescape u = some b) (h : u.rp + 1 = b.len)
    (hm : isMarker (u.readByte env b.src u.rp) = true) :
    sequencerStep env c u = .next (u.raise c .malformedEscape) := by
  obtain ⟨-, hst, -⟩ := runningStage_some.1 hr
  have hne : u.rp ≠ b.len := by intro e; rw [e] at h; omega
  simp only [sequencerStep, hst, unescapeStep, hr, hne, if_false, h, hm, loneMarker]
  rw [if_neg (by omega)]
  rfl

end Sys2Proof.Machine
end

