-- ==== Sys2Proof/Laws/Engine.lean ====
section
/-! SUPPORT. The engine stages as one equation each: the next state of a running compress or decompress
stage, and what the output buffer then reads as. -/

namespace Sys2Proof.Machine

/-- The output delivered is the output read. -/
theorem deliver_readBytes (env : Config.Environment) (s : State) (b : Binding) (out : List Byte)
    (draw : Nat) : (s.deliver b out draw).readBytes env b.dst out.length = out := by
  refine readBytes_eq rfl fun i hi => ?_
  unfold State.deliver
  rw [readByte_havoc, if_neg (by rintro ⟨-, h, -⟩; omega), readByte_store,
    if_pos ⟨rfl, by omega, by omega⟩]
  simp

/-- A delivery touches no other buffer. -/
theorem deliver_buffer (s : State) (b : Binding) (out : List Byte) (draw : Nat) {sp : Space}
    (h : sp ≠ b.dst) : (s.deliver b out draw).buffer sp = s.buffer sp := by
  unfold State.deliver
  rw [State.havoc_buffer, if_neg h, State.store_buffer, if_neg h]

/-- What a frame that starts at index 0 keeps. -/
theorem Frame.kept {sp : Space} {n : Nat} {s t : State} (h : Frame sp 0 n s t) :
    BytesKept s t fun sp' i => sp' = sp ∧ i < n :=
  fun env sp' i hn => h.bytes env sp' i fun ⟨a, _, c⟩ => hn ⟨a, c⟩

/-- The next state of a running compress stage (R115, R119). -/
def compressed (env : Config.Environment) (c : Command) (b : Binding) (s : State) : State :=
  let z := env.deflate (s.readBytes env b.src b.len)
  if env.initOk s.draws = false then s.drawn.raise c .compEngineInitFailed
  else if b.cap < z.length then
    (s.drawn.havoc b.dst 0 b.cap s.draws).raise c .compBufferTooSmall
  else if env.stepOk s.draws = false then
    (s.drawn.havoc b.dst 0 b.cap s.draws).raise c .compEngineStepFailed
  else (s.drawn.deliver b z s.draws).stageReturn c .compress z.length

theorem compress_step (env : Config.Environment) {c : Command} {b : Binding} {s : State}
    (hr : runningStage c .compress s = some b) :
    sequencerStep env c s = .next (compressed env c b s) := by
  obtain ⟨-, hst, -⟩ := runningStage_some.1 hr
  simp only [compressed, sequencerStep, hst, compressStep, hr, engineFailure]
  cases env.initOk s.draws <;> cases env.stepOk s.draws <;> simp <;> split <;> rfl

/-- The next state of a running decompress stage (R116, R119). -/
def decompressed (env : Config.Environment) (c : Command) (b : Binding) (s : State) : State :=
  if env.initOk s.draws = false then s.drawn.raise c .decEngineInitFailed
  else
    match env.inflate (s.readBytes env b.src b.len) with
    | none => (s.drawn.havoc b.dst 0 b.cap s.draws).raise c .decTruncated
    | some x =>
      if b.cap < x.length then
        (s.drawn.havoc b.dst 0 b.cap s.draws).raise c .decTruncated
      else (s.drawn.deliver b x s.draws).stageReturn c .decompress x.length

theorem decompress_step (env : Config.Environment) {c : Command} {b : Binding} {s : State}
    (hr : runningStage c .decompress s = some b) :
    sequencerStep env c s = .next (decompressed env c b s) := by
  obtain ⟨-, hst, -⟩ := runningStage_some.1 hr
  simp only [decompressed, sequencerStep, hst, decompressStep, hr, engineFailure]
  cases env.initOk s.draws with
  | false => rfl
  | true =>
    cases env.inflate (s.readBytes env b.src b.len) with
    | none => rfl
    | some x => by_cases h : b.cap < x.length <;> simp [h]

end Sys2Proof.Machine
end

