-- ==== Sys2Proof/Laws/PerInstr.lean ====
section
/-! SUPPORT. The family EncodedLength: an instruction's encoded form has the number of bits that its row
of spec/opcode_table.json gives it. -/

namespace Sys2Proof.Laws.EncodedLength

/-- The bits of an encoded instruction. -/
def bits : Coded → Nat
  | .cmd _ => 3
  | .unit bytes => 8 * bytes.length
  | .input _ => 8

/-- The bits of the row (30_encoding R80, R83, R84, R91). -/
def rowBits : Instr → Nat
  | .compress => 3
  | .decompress => 3
  | .escape => 3
  | .unescape => 3
  | .encode => 3
  | .decode => 3
  | .lit _ => 8
  | .esc0 _ _ => 16
  | .esc1 _ _ => 16
  | .esc2 _ _ => 16
  | .esc3 _ _ => 16
  | .eQ0 _ => 8
  | .eBs _ => 8
  | .eMk _ => 8
  | .eLit _ => 8

/-- The encoded form of `i` is as long as its row says. -/
def Statement (i : Instr) : Prop := bits (encode i) = rowBits i

theorem compress : Statement .compress := rfl
theorem decompress : Statement .decompress := rfl
theorem escape : Statement .escape := rfl
theorem unescape : Statement .unescape := rfl
theorem encode : Statement .encode := rfl
theorem decode : Statement .decode := rfl
theorem lit (v : Byte) : Statement (.lit v) := rfl
theorem esc0 (hi : BitVec 2) (low6 : BitVec 6) : Statement (.esc0 hi low6) := rfl
theorem esc1 (hi : BitVec 2) (low6 : BitVec 6) : Statement (.esc1 hi low6) := rfl
theorem esc2 (hi : BitVec 2) (low6 : BitVec 6) : Statement (.esc2 hi low6) := rfl
theorem esc3 (hi : BitVec 2) (low6 : BitVec 6) : Statement (.esc3 hi low6) := rfl
theorem eQ0 (b : Byte) : Statement (.eQ0 b) := rfl
theorem eBs (b : Byte) : Statement (.eBs b) := rfl
theorem eMk (b : Byte) : Statement (.eMk b) := rfl
theorem eLit (b : Byte) : Statement (.eLit b) := rfl

end Sys2Proof.Laws.EncodedLength
end

