-- ==== Sys2Proof/Tests/Slice0.lean ====
section
/-! SUPPORT. Tests of the model against the spec's own vectors (spec 95_test_vectors), the well-formedness
smoke tests, and decoding of words written out from 30_encoding. -/

namespace Sys2Proof.Tests

open Sys2Proof.Machine

/-- `be32(n)` of the test engine T1 (95 section 0). -/
def be32 (n : Nat) : List Byte :=
  [BitVec.ofNat 8 (n / 2 ^ 24), BitVec.ofNat 8 (n / 2 ^ 16), BitVec.ofNat 8 (n / 2 ^ 8), BitVec.ofNat 8 n]

/-- The test engine T1 (95 section 0), with given draws; arbitrary bytes are 0xEE. -/
def engineT1 (init stp : Bool) : Config.Environment where
  aw := 32
  deflate x := be32 x.length ++ x
  inflate y := if 4 ≤ y.length ∧ y.take 4 = be32 (y.length - 4) then some (y.drop 4) else none
  initOk _ := init
  stepOk _ := stp
  anyByte _ _ _ := 0xEE
  anyRead n := n

/-- The test engine T0 (95 section 0): the identity. -/
def engineT0 : Config.Environment where
  aw := 32
  deflate x := x
  inflate y := some y
  initOk _ := true
  stepOk _ := true
  anyByte _ _ _ := 0xEE
  anyRead n := n

/-- A block in `IDLE` with a command selected, its operands set and its input written. -/
def ready (op : BitVec 3) (input : List Byte) (dstCap midCap : Nat) : State :=
  { State.reset with
    op := op
    srcLen := input.length
    dstCap := dstCap
    midCap := midCap
    src := ⟨place 0 input, [], 0⟩ }

/-- A block in the middle of a scan of `SRC` into `DST`. -/
def scanning (op : BitVec 3) (st : Stage) (input : List Byte) (rp wp dstCap : Nat) : State :=
  { ready op input dstCap 0 with phase := .busy, stage := st, rp := rp, wp := wp }

/-- What a vector of 95 lists of a `DONE` state: `STATUS`, `LEN`, `TRUNC`, `RP`, `WP`, `MID_LEN`. -/
def results : Result → Option (Status × Nat × Bool × Nat × Nat × Nat)
  | .next s =>
    if s.phase = .done then
      some (s.status, s.len, s.trunc, s.rp, s.wp, s.midLen)
    else none
  | .fault _ => none
  | .refused _ => none

/-- The known bytes of `DST`. -/
def dstCells : Result → Memory
  | .next s => s.dst.cells
  | .fault _ => []
  | .refused _ => []

/-- The command or unit ends `DONE` with these results and these known bytes of `DST`. -/
def ends (r : Result) (f : Status × Nat × Bool × Nat × Nat × Nat) (cells : Memory) : Bool :=
  decide (results r = some f) && decide (dstCells r = cells)

/-- Cursors, known bytes of `DST` and `PHASE` after a unit. -/
def unitView : Result → Option (Nat × Nat × Memory × Phase)
  | .next s => some (s.rp, s.wp, s.dst.cells, s.phase)
  | .fault _ => none
  | .refused _ => none

/-- The 14 bytes of V-L1-1. -/
def scenario : List Byte :=
  [0x41, 0x41, 0x41, 0x41, 0x22, 0x42, 0x42, 0x42, 0x42, 0x5C, 0x43, 0x43, 0x43, 0x43]

/-- The 23-byte text of V-L1-1 under T1. -/
def scenarioText : List Byte :=
  [0xF5, 0x80, 0xF5, 0x80, 0xF5, 0x80, 0x0E, 0x41, 0x41, 0x41, 0x41, 0xF5, 0xA2, 0x42, 0x42, 0x42,
   0x42, 0xF6, 0x9C, 0x43, 0x43, 0x43, 0x43]

/-! ### Well-formedness: a term each check refuses -/

theorem test_wf_lit_refuses_marker : (Instr.lit 0xF5).wellFormed = false := by decide
theorem test_wf_eQ0_refuses : (Instr.eQ0 0x5C).wellFormed = false := by decide
theorem test_wf_eBs_refuses : (Instr.eBs 0x22).wellFormed = false := by decide
theorem test_wf_eMk_refuses : (Instr.eMk 0xF9).wellFormed = false := by decide
theorem test_wf_eLit_refuses : (Instr.eLit 0x22).wellFormed = false := by decide

/-! ### Decoding words written out from 30_encoding (R80, R83 to R88, R91) -/

theorem test_decode_commands :
    [0b001, 0b010, 0b011, 0b100, 0b101, 0b110].map decodeCommand
      = [.ok .compress, .ok .decompress, .ok .escape, .ok .unescape, .ok .encode, .ok .decode] := by
  decide

theorem test_decode_reserved :
    decodeCommand 0b000 = .error (.reservedCommand 0b000)
      ∧ decodeCommand 0b111 = .error (.reservedCommand 0b111) := by decide

theorem test_decode_lit : decode (.unit [0b01000001]) = .ok (.lit 0x41) := by decide
/-- `F5 A2`: hi = 10, low6 = 100010. -/
theorem test_decode_esc0 : decode (.unit [0b11110101, 0b10100010]) = .ok (.esc0 0b10 0b100010) := by decide
theorem test_decode_esc1 : decode (.unit [0b11110110, 0b10011100]) = .ok (.esc1 0b10 0b011100) := by decide
theorem test_decode_esc2 : decode (.unit [0b11110111, 0b10000101]) = .ok (.esc2 0b10 0b000101) := by decide
theorem test_decode_esc3 : decode (.unit [0b11111000, 0b01110101]) = .ok (.esc3 0b01 0b110101) := by decide
theorem test_decode_eQ0 : decode (.input 0b00100010) = .ok (.eQ0 0x22) := by decide
theorem test_decode_eBs : decode (.input 0b01011100) = .ok (.eBs 0x5C) := by decide
theorem test_decode_eMk : decode (.input 0b11110111) = .ok (.eMk 0xF7) := by decide
theorem test_decode_eLit : decode (.input 0b11110100) = .ok (.eLit 0xF4) := by decide
theorem test_decode_lone : decode (.unit [0xF8]) = .error (.loneMarker 0xF8) := by decide

/-- The pseudo-instruction `ESC` (R96): the seven pairs of R92. -/
theorem test_assembleEsc :
    [0x00, 0x22, 0x5C, 0xF5, 0xF6, 0xF7, 0xF8].map assembleEsc
      = [some [0xF5, 0x80], some [0xF5, 0xA2], some [0xF6, 0x9C], some [0xF8, 0xB5], some [0xF8, 0xB6],
         some [0xF8, 0xB7], some [0xF8, 0xB8]] := by decide

/-- R93: `F5 C1` and every pair with marker `F7` is non-canonical, `F8 B7` is not. -/
theorem test_isCanonicalPair :
    isCanonicalPair 0xF8 0xB7 = true ∧ isCanonicalPair 0xF5 0xC1 = false
      ∧ isCanonicalPair 0xF7 0x85 = false := by decide

/-- V-U-21: the payload may be a marker value. -/
theorem test_parse_marker_payload :
    parseUnits [0xF5, 0xF6, 0x41] = some [.esc0 0b11 0b110110, .lit 0x41] := by decide

/-- The words the host asks for reach the machine: the step after reset runs the instruction. -/
theorem test_withFetchWord_esc0 :
    unitView (step (State.reset.withFetchWord 16 0xF5A2)) = some (2, 1, [(0, 0x22)], .busy) := by decide

theorem test_withFetchWord_escape :
    step (State.reset.withFetchWord 8 3)
      = exec .escape { State.reset with op := 3 } := by rfl

/-! ### Code units (V-U vectors) -/

/-- V-U-21's second unit: a literal after a pair. -/
theorem test_lit : unitView (exec (.lit 0x41) (scanning 4 .unescape [0xF5, 0xF6, 0x41] 2 1 3))
    = some (3, 2, [(1, 0x41)], .busy) := by decide
/-- V-U-7: `F5 BF` stands for 3F. -/
theorem test_esc0 : unitView (exec (.esc0 0b10 0b111111) (scanning 4 .unescape [0xF5, 0xBF] 0 0 2))
    = some (2, 1, [(0, 0x3F)], .busy) := by decide
/-- V-U-22: `F6 22` stands for 62, the high bits ignored. -/
theorem test_esc1 : unitView (exec (.esc1 0b00 0b100010) (scanning 4 .unescape [0xF5, 0x00, 0xF6, 0x22] 2 1 4))
    = some (4, 2, [(1, 0x62)], .busy) := by decide
/-- V-U-13: the reserved marker is accepted. -/
theorem test_esc2 : unitView (exec (.esc2 0b10 0b000101) (scanning 4 .unescape [0xF7, 0x85] 0 0 2))
    = some (2, 1, [(0, 0x85)], .busy) := by decide
/-- V-U-18: `F8 FF` stands for FF. -/
theorem test_esc3 : unitView (exec (.esc3 0b11 0b111111) (scanning 4 .unescape [0xF8, 0xFF] 0 0 2))
    = some (2, 1, [(0, 0xFF)], .busy) := by decide
/-- V-D-7: the lone marker raises, `SRC:2` not read. -/
theorem test_esc0_lone : results (exec (.esc0 0 0) (scanning 4 .unescape [0x41, 0xF5] 1 1 2))
    = some (.malformedEscape, 1, false, 1, 1, 0) := by decide
/-- A unit while no scan is running. -/
theorem test_lit_idle : exec (.lit 0x41) State.reset = .refused .noScanRunning := by rfl

/-! ### Input classes (41 R132 to R136) -/

/-- R132's example: `b = 0x22`, `WP = 4`. -/
theorem test_eQ0 : unitView (exec (.eQ0 0x22) (scanning 3 .escape scenario 4 4 17))
    = some (5, 6, [(4, 0xF5), (5, 0xA2)], .busy) := by decide
/-- Program 2, step 10: the pair does not fit, the scan finishes with the terminator at 10. -/
theorem test_eBs_truncates :
    ends (exec (.eBs 0x5C) (scanning 3 .escape scenario 9 10 12))
      (.ok, 10, true, 9, 10, 0)
      ([(10, 0x00)]) = true := by decide
/-- R133's example: `WP = 10`. -/
theorem test_eBs : unitView (exec (.eBs 0x5C) (scanning 3 .escape scenario 9 10 17))
    = some (10, 12, [(10, 0xF6), (11, 0x9C)], .busy) := by decide
/-- R134's example: `b = 0xF7`, `WP = 0`. -/
theorem test_eMk : unitView (exec (.eMk 0xF7) (scanning 3 .escape [0xF7] 0 0 3))
    = some (1, 2, [(0, 0xF8), (1, 0xB7)], .busy) := by decide
/-- R135's example: `b = 0x41`, `WP = 3`. -/
theorem test_eLit : unitView (exec (.eLit 0x41) (scanning 3 .escape scenario 3 3 17))
    = some (4, 4, [(3, 0x41)], .busy) := by decide
/-- V-E-3: a literal is refused the terminator's slot. -/
theorem test_eLit_truncates : results (exec (.eLit 0x41) (scanning 3 .escape [0x41] 0 0 1))
    = some (.ok, 0, true, 0, 0, 0) := by decide

/-! ### Commands -/

/-- V-E-15: every class once. -/
theorem test_escape :
    ends (exec .escape (ready 3 [0x00, 0x41, 0xF7, 0x5C] 8 0))
      (.ok, 7, false, 4, 7, 0)
      (place 0 [0xF5, 0x80, 0x41, 0xF8, 0xB7, 0xF6, 0x9C, 0x00]) = true := by decide
/-- V-E-11: the literal fits, the pair does not. -/
theorem test_escape_truncated :
    ends (exec .escape (ready 3 [0x41, 0x00] 3 0))
      (.ok, 1, true, 1, 1, 0)
      (place 0 [0x41, 0x00]) = true := by decide
/-- V-D-2: mixed units. -/
theorem test_unescape :
    ends (exec .unescape (ready 4 [0x41, 0xF5, 0xA2, 0xF7, 0x85, 0xF8, 0xB5, 0x5A] 8 0))
      (.ok, 5, false, 8, 5, 0)
      (place 0 [0x41, 0x22, 0x85, 0xF5, 0x5A]) = true := by decide
/-- V-D-8: `F6 F6 F6`. -/
theorem test_unescape_lone :
    ends (exec .unescape (ready 4 [0xF6, 0xF6, 0xF6] 3 0))
      (.malformedEscape, 1, false, 2, 1, 0)
      ([(0, 0x76)]) = true := by decide
/-- V-C-1. -/
theorem test_compress :
    ends (runCommand (engineT1 true true) .compress (ready 1 [0x41, 0x42] 8 0))
      (.ok, 6, false, 0, 0, 0)
      (place 0 [0x00, 0x00, 0x00, 0x02, 0x41, 0x42]) = true := by decide
/-- V-C-6: a buffer too small goes before a failed step. -/
theorem test_compress_priority :
    results (runCommand (engineT1 true false) .compress (ready 1 [0x41, 0x42] 5 0))
      = some (.compBufferTooSmall, 0, false, 0, 0, 0) := by decide
/-- V-C-12. -/
theorem test_decompress :
    ends (runCommand (engineT1 true true) .decompress (ready 2 [0x00, 0x00, 0x00, 0x02, 0x41, 0x42] 4 0))
      (.ok, 2, false, 0, 0, 0)
      (place 0 [0x41, 0x42]) = true := by decide
/-- V-C-13: one byte too few. -/
theorem test_decompress_small :
    results (runCommand (engineT1 true true) .decompress (ready 2 [0x00, 0x00, 0x00, 0x02, 0x41, 0x42] 1 0))
      = some (.decTruncated, 0, false, 0, 0, 0) := by decide
/-- V-F-1. -/
theorem test_encode :
    ends (runCommand (engineT1 true true) .encode (ready 5 scenario 24 18))
      (.ok, 23, false, 18, 23, 18)
      (place 0 (scenarioText ++ [0x00])) = true := by decide
/-- V-F-3. -/
theorem test_encode_truncated :
    results (runCommand (engineT1 true true) .encode (ready 5 scenario 10 18))
      = some (.ok, 9, true, 6, 9, 18) := by decide
/-- V-F-9. -/
theorem test_decode :
    ends (runCommand (engineT1 true true) .decode (ready 6 scenarioText 14 23))
      (.ok, 14, false, 23, 18, 18)
      (place 0 scenario) = true := by decide
/-- V-F-14: the cut fell inside a pair. -/
theorem test_decode_lone_marker :
    results (runCommand (engineT1 true true) .decode (ready 6 (scenarioText.take 12) 14 23))
      = some (.malformedEscape, 0, false, 11, 8, 8) := by decide

/-! ### Host interface and reset -/

/-- V-X-1: START right after reset. -/
theorem test_start_after_reset :
    results (.next (hostStart State.reset)) = some (.badCommand, 0, false, 0, 0, 0) := by decide
/-- V-H-2: a START and a write of `DST_CAP` while `BUSY` change nothing. -/
theorem test_busy_ignores :
    hostStart (scanning 3 .escape scenario 5 6 17) = scanning 3 .escape scenario 5 6 17
      ∧ hostWriteReg engineT0 (.dstCap 3) (scanning 3 .escape scenario 5 6 17) = scanning 3 .escape scenario 5 6 17 := by
  decide
/-- V-H-4: reset in the middle of a command. -/
theorem test_reset_midcommand :
    (hostReset (scanning 3 .escape scenario 5 6 17)).phase = .idle
      ∧ (hostReset (scanning 3 .escape scenario 5 6 17)).op = 0
      ∧ (hostReset (scanning 3 .escape scenario 5 6 17)).src.cells = [] := by decide
/-- From reset with nothing queued the block waits. -/
theorem test_reset_waits : step State.reset = .next State.reset := by rfl

/-! ### Results in B252's terms (R220), the register width (R39), the numbers of STATUS (R200) -/

theorem test_encodeResult :
    ∃ t, runCommand engineT0 .encode (ready 5 [0x41, 0x22] 2 2) = .next t
      ∧ t.encodeResult engineT0 = some (.ok ([0x41], 1, true)) := ⟨_, rfl, rfl⟩
/-- `decode` returns the bytes with their length. -/
theorem test_decodeResult :
    ∃ t, runCommand engineT0 .decode (ready 6 [0xF5, 0xA2] 1 2) = .next t
      ∧ t.decodeResult engineT0 = some (.ok ([0x22], 1)) := ⟨_, rfl, rfl⟩
theorem test_decodeResult_malformed :
    ∃ t, runCommand engineT0 .decode (ready 6 [0xF5] 1 1) = .next t
      ∧ t.decodeResult engineT0 = some (.error .malformedEscape) := ⟨_, rfl, rfl⟩
/-- A refused command has no counterpart. -/
theorem test_decodeResult_refused :
    ∃ t, runCommand engineT0 .decode (ready 6 [0xF5] 1 0) = .next t
      ∧ t.decodeResult engineT0 = none := ⟨_, rfl, rfl⟩
theorem test_compressResult_small :
    ∃ t, runCommand engineT0 .compress (ready 1 [0x41] 0 0) = .next t
      ∧ t.compressResult engineT0 = some (.error .bufferTooSmall) := ⟨_, rfl, rfl⟩
theorem test_decompressResult :
    ∃ t, runCommand engineT0 .decompress (ready 2 [0x41] 1 0) = .next t
      ∧ t.decompressResult engineT0 = some (.ok [0x41]) := ⟨_, rfl, rfl⟩

/-- A write of 2^32 + 3 to a 32-bit register keeps the 3. -/
theorem test_write_truncates :
    (hostWriteReg engineT0 (.dstCap 4294967299) State.reset).dstCap = 3 := by decide

theorem test_status_numbers :
    [Status.ok, .compEngineInitFailed, .compEngineStepFailed, .compBufferTooSmall, .decEngineInitFailed,
      .decTruncated, .malformedEscape, .badCommand, .badCapacity].map Status.code
      = [0, 1, 2, 3, 4, 5, 6, 7, 8] := by decide

open Sys2Proof.Claims

/-! ### Witnesses: a state and operands that meet each statement's hypotheses -/

/-- A block with these turns to come. -/
def queued (ts : List Turn) (s : State) : State := { s with turns := ts }

/-- A DECODE in its unescape stage. -/
def decoding (input : List Byte) (rp wp midCap : Nat) : State :=
  { ready 6 input 4 midCap with phase := .busy, stage := .unescape, rp := rp, wp := wp }

theorem witness_DecodeEncodeRoundTrip :
    (Instr.lit 0xF4).wellFormed = true ∧ (Instr.lit 0xF9).wellFormed = true
      ∧ (Instr.eQ0 0x22).wellFormed = true ∧ (Instr.eBs 0x5C).wellFormed = true
      ∧ (Instr.eMk 0xF8).wellFormed = true ∧ (Instr.eLit 0x5D).wellFormed = true := by decide

theorem witness_EncodeDecodeRoundTrip :
    decode (.cmd 6) = .ok .decode ∧ decode (.unit [0xF5, 0xFF]) = .ok (.esc0 0b11 0b111111)
      ∧ decode (.input 0x5C) = .ok (.eBs 0x5C) := by decide

theorem witness_FirstByteDecidesUnit :
    (0xF4 : Byte).toNat ≤ 244 ∧ 249 ≤ (0xF9 : Byte).toNat ∧ (0xF5 : Byte).toNat = 245
      ∧ (0xF6 : Byte).toNat = 246 ∧ (0xF7 : Byte).toNat = 247 ∧ (0xF8 : Byte).toNat = 248 := by decide

theorem witness_ReservedByteEmitsItsBucketsMarker :
    needsEscape 0x00 = true ∧ needsEscape 0x22 = true ∧ needsEscape 0x5C = true
      ∧ needsEscape 0xF5 = true ∧ needsEscape 0xF8 = true := by decide

/-- `AW` is at least 1, so one byte of source and one of capacity fit every width. -/
theorem one_fits : 1 < 2 ^ Config.aw := Nat.one_lt_two_pow (by unfold Config.aw; omega)

theorem one_byte_within (n : Nat) (b : Byte) : Memory.within (2 ^ n) [(0, b)] := fun p hp => by
  rw [List.mem_singleton.1 hp]; exact Nat.two_pow_pos n

/-- A block that waits meets the invariant. -/
theorem witness_ready_inv : (ready 3 [0x41] 1 0).Inv Config.aw where
  wf sp := by cases sp <;> decide
  within sp := by
    cases sp
    · exact one_byte_within _ _
    · exact nil_within _
    · exact nil_within _
  fit := ⟨one_fits, one_fits, Nat.two_pow_pos _, Nat.two_pow_pos _, Nat.two_pow_pos _,
    Nat.two_pow_pos _, Nat.two_pow_pos _⟩
  stage_iff := by decide
  trunc_ok := by decide
  len_zero := by decide
  idle_clear _ := ⟨rfl, rfl, rfl, rfl, rfl, rfl⟩
  busy_stage h := absurd h (by decide)

/-- A running scan meets the invariant. -/
theorem witness_scanning_inv : (scanning 3 .escape [0x41] 0 0 1).Inv Config.aw where
  wf := witness_ready_inv.wf
  within := witness_ready_inv.within
  fit := ⟨one_fits, one_fits, Nat.two_pow_pos _, Nat.two_pow_pos _, Nat.two_pow_pos _,
    Nat.two_pow_pos _, Nat.two_pow_pos _⟩
  stage_iff := by decide
  trunc_ok := by decide
  len_zero := by decide
  idle_clear h := absurd h (by decide)
  busy_stage _ := ⟨rfl, rfl, rfl, .escape, rfl, _, rfl, by decide⟩

/-- Both take a step. -/
theorem witness_StepKeepsInvariant :
    (ready 3 [0x41] 1 0).Inv Config.aw ∧ (∃ t, step (ready 3 [0x41] 1 0) = .next t)
      ∧ (scanning 3 .escape [0x41] 0 0 1).Inv Config.aw
      ∧ ∃ t, step (scanning 3 .escape [0x41] 0 0 1) = .next t :=
  ⟨witness_ready_inv, ⟨_, rfl⟩, witness_scanning_inv, _, rfl⟩

theorem witness_StepNeverStops :
    (scanning 3 .escape [0x41] 0 0 1).Inv Config.aw
      ∧ ¬ ((scanning 3 .escape [0x41] 0 0 1).phase = .busy
        ∧ nextIsBufferMove (scanning 3 .escape [0x41] 0 0 1) = true)
      ∧ (ready 3 [0x41] 1 0).Inv Config.aw
      ∧ ¬ ((ready 3 [0x41] 1 0).phase = .busy ∧ nextIsBufferMove (ready 3 [0x41] 1 0) = true) :=
  ⟨witness_scanning_inv, by decide, witness_ready_inv, by decide⟩

theorem witness_BufferMoveWhileBusyRefused :
    let s := scanning 3 .escape scenario 5 6 17
    (queued [.host (.writeSrc 0 0)] s).phase = .busy
      ∧ nextIsBufferMove (queued [.host (.writeSrc 0 0)] s) = true
      ∧ nextIsBufferMove (queued [.host (.readBuf .dst 0)] s) = true := by decide

theorem witness_StepRunsDecodedInstruction :
    (let s := queued [.command] (ready 6 [] 0 0);
      s.turns = .command :: [] ∧ decodeCommand s.op = .ok .decode)
    ∧ (let s := scanning 4 .unescape [0xF5, 0xA2] 0 0 2;
      s.turns = [] ∧ runningStage .unescape .unescape s = some s.srcToDst ∧ s.rp + 1 < 2
        ∧ decodeUnit [s.readByte Config.environment .src 0, s.readByte Config.environment .src 1]
          = .ok (.esc0 0b10 0b100010, []))
    ∧ (let s := scanning 4 .unescape [0x41] 0 0 1;
      s.turns = [] ∧ runningStage .unescape .unescape s = some s.srcToDst ∧ s.rp + 1 = 1
        ∧ decode (.unit [s.readByte Config.environment .src 0]) = .ok (.lit 0x41))
    ∧ (let s := scanning 3 .escape [0x41] 0 0 2;
      s.turns = [] ∧ runningStage .escape .escape s = some s.srcToDst
        ∧ s.rp < s.srcToDst.len)
    ∧ (queued [.sequencer] (ready 3 [] 1 0)).turns = .sequencer :: [] := by
  refine ⟨by decide, ?_, ?_, by decide, rfl⟩ <;> exact ⟨rfl, rfl, by decide, rfl⟩

theorem witness_IdleBlockWaits :
    State.reset.turns = [] ∧ State.reset.phase ≠ .busy
      ∧ ({ State.reset with phase := .done } : State).phase ≠ .busy := by decide

theorem witness_StepRaisesAtLoneMarker :
    let s := scanning 4 .unescape [0x41, 0xF7] 1 1 2
    s.turns = [] ∧ commandOf s.op = some .unescape
      ∧ runningStage .unescape .unescape s = some s.srcToDst ∧ s.rp + 1 = s.srcToDst.len
      ∧ isMarker (s.readByte Config.environment .src s.rp) = true := by
  exact ⟨rfl, rfl, rfl, rfl, rfl⟩

theorem witness_EscapeScanFinishes :
    let s := scanning 3 .escape [0x41] 1 1 2
    s.turns = [] ∧ commandOf s.op = some .escape ∧ runningStage .escape .escape s = some s.srcToDst
      ∧ s.rp = s.srcToDst.len ∧ s.wp < s.srcToDst.cap := by decide

theorem witness_UnescapeScanFinishes :
    (let s := scanning 4 .unescape [] 0 0 0;
      s.turns = [] ∧ commandOf s.op = some .unescape
        ∧ runningStage .unescape .unescape s = some s.srcToDst ∧ s.rp = s.srcToDst.len)
    ∧ (let s := decoding [0x41] 1 1 1;
      s.turns = [] ∧ commandOf s.op = some .decode
        ∧ runningStage .decode .unescape s = some s.srcToMid ∧ s.rp = s.srcToMid.len) := by decide

/-- LIT: the last byte of the source into the last byte of the destination, in both commands. -/
theorem witness_LitCopies :
    isMarker 0x41 = false ∧ isMarker 0xF4 = false ∧ isMarker 0xF9 = false
    ∧ (let s := scanning 4 .unescape [0x41] 0 0 1;
      commandOf s.op = some .unescape ∧ runningStage .unescape .unescape s = some s.srcToDst
        ∧ s.rp + 1 ≤ s.srcToDst.len ∧ s.wp < s.srcToDst.cap)
    ∧ (let s := decoding [0x41] 0 0 1;
      commandOf s.op = some .decode ∧ runningStage .decode .unescape s = some s.srcToMid
        ∧ s.rp + 1 ≤ s.srcToMid.len ∧ s.wp < s.srcToMid.cap) := by decide

/-- A pair that just fits, and one whose marker is the last byte. -/
theorem witness_PairsRebuild :
    (let s := scanning 4 .unescape [0xF5, 0xA2] 0 0 1;
      commandOf s.op = some .unescape ∧ runningStage .unescape .unescape s = some s.srcToDst
        ∧ s.rp + 2 ≤ s.srcToDst.len ∧ s.wp < s.srcToDst.cap)
    ∧ (let s := scanning 4 .unescape [0x41, 0xF5] 1 1 2;
      commandOf s.op = some .unescape ∧ runningStage .unescape .unescape s = some s.srcToDst
        ∧ s.rp + 1 = s.srcToDst.len) := by decide

/-- A pair that ends just below the terminator's slot. -/
theorem witness_EscapedClassesEmitPair :
    let s := scanning 3 .escape [0x22] 0 0 3
    (0x22 : Byte) = 0x22 ∧ (0x5C : Byte) = 0x5C ∧ 245 ≤ (0xF8 : Byte).toNat ∧ (0xF8 : Byte).toNat ≤ 248
      ∧ commandOf s.op = some .escape ∧ runningStage .escape .escape s = some s.srcToDst
      ∧ s.rp < s.srcToDst.len ∧ s.wp + 2 ≤ s.srcToDst.cap - 1 := by decide

theorem witness_LiteralClassEmitsByte :
    let s := scanning 3 .escape [0x41] 0 0 2
    needsEscape 0x41 = false ∧ needsEscape 0x01 = false ∧ needsEscape 0xF9 = false
      ∧ commandOf s.op = some .escape ∧ runningStage .escape .escape s = some s.srcToDst
      ∧ s.rp < s.srcToDst.len ∧ s.wp + 1 ≤ s.srcToDst.cap - 1 := by decide

/-- One byte too few for a pair, and for a literal. -/
theorem witness_UnitsThatDoNotFitTruncate :
    (let s := scanning 3 .escape [0x22] 0 0 2;
      commandOf s.op = some .escape ∧ runningStage .escape .escape s = some s.srcToDst
        ∧ s.rp < s.srcToDst.len ∧ s.wp < s.srcToDst.cap
        ∧ s.srcToDst.cap - 1 < s.wp + 2)
    ∧ (let s := scanning 3 .escape [0x41] 0 0 1;
      commandOf s.op = some .escape ∧ runningStage .escape .escape s = some s.srcToDst
        ∧ s.rp < s.srcToDst.len ∧ s.wp < s.srcToDst.cap
        ∧ s.srcToDst.cap - 1 < s.wp + 1) := by decide

theorem witness_UnitsOutsideTheirScanRefused :
    ¬ (State.reset.phase = .busy ∧ State.reset.stage = .unescape)
      ∧ ¬ ((scanning 4 .unescape [0x41] 0 0 1).phase = .busy
        ∧ (scanning 4 .unescape [0x41] 0 0 1).stage = .escape) := by decide

/-- The hypotheses of the six command statements, capacities at their least. -/
theorem witness_commands :
    (ready 1 [] 0 0).phase ≠ .busy ∧ (ready 2 [] 0 0).phase ≠ .busy
      ∧ ((ready 3 [] 1 0).phase ≠ .busy ∧ (ready 3 [] 1 0).dstCap ≠ 0)
      ∧ ((ready 4 [0x41] 1 0).phase ≠ .busy
        ∧ (ready 4 [0x41] 1 0).srcLen ≤ (ready 4 [0x41] 1 0).dstCap)
      ∧ ((ready 5 [] 1 0).phase ≠ .busy ∧ (ready 5 [] 1 0).dstCap ≠ 0)
      ∧ ((ready 6 [0x41] 0 1).phase ≠ .busy
        ∧ (ready 6 [0x41] 0 1).srcLen ≤ (ready 6 [0x41] 0 1).midCap) := by decide

/-- Each clause one byte short of acceptance. -/
theorem witness_BadCapacityRefused :
    (let s := queued [.host .start] (ready 3 [] 0 0);
      s.phase ≠ .busy ∧ s.dstCap = 0 ∧ s.op = Command.escape.code ∧ s.turns = .host .start :: [])
    ∧ (let s := queued [.host .start] (ready 5 [] 0 0);
      s.phase ≠ .busy ∧ s.dstCap = 0 ∧ s.op = Command.encode.code ∧ s.turns = .host .start :: [])
    ∧ (let s := queued [.host .start] (ready 4 [0x41, 0x42] 1 0);
      s.phase ≠ .busy ∧ s.dstCap < s.srcLen ∧ s.op = Command.unescape.code
        ∧ s.turns = .host .start :: [])
    ∧ (let s := queued [.host .start] (ready 6 [0x41, 0x42] 0 1);
      s.phase ≠ .busy ∧ s.midCap < s.srcLen ∧ s.op = Command.decode.code
        ∧ s.turns = .host .start :: []) := by decide

theorem witness_BadCommandRefused :
    (let s := queued [.host .start] (ready 0 [] 0 0);
      s.phase ≠ .busy ∧ s.op = 0 ∧ s.turns = .host .start :: [])
    ∧ (let s := queued [.command] (ready 7 [] 0 0);
      s.phase ≠ .busy ∧ s.op = 7 ∧ s.turns = .command :: []) := by decide

theorem witness_CommandWhileBusyIgnored : (scanning 3 .escape scenario 5 6 17).phase = .busy := rfl

/-- Also the hypotheses of CommandTerminates, for every command. -/
theorem witness_BigStepIsUnitSteps (c : Command) :
    (ready c.code [0x41] 0 0).phase ≠ .busy ∧ (ready c.code [0x41] 0 0).op = c.code
      ∧ (ready c.code [0x41] 0 0).turns = [] := ⟨by simp [ready, State.reset], rfl, rfl⟩

theorem witness_EarlierResultsDiscarded :
    let s := ready 3 [0x41] 2 0
    let s' := { s with
      phase := .done, status := .badCommand, len := 7, rp := 1, wp := 1,
      mid := ⟨[(3, 0x42)], [], 1⟩, dst := ⟨[(0, 0x43)], [⟨1, 5, 2⟩], 0⟩ }
    s.phase ≠ .busy ∧ s'.phase ≠ .busy ∧ SameButResults s s' ∧ ∃ t, exec .escape s = .next t :=
  ⟨by decide, by decide, ⟨⟨rfl, rfl, rfl, rfl⟩, ⟨rfl, rfl⟩, rfl, rfl⟩, _, rfl⟩

/-- The byte at `SRC_LEN` differs. -/
theorem witness_SourceBeyondLengthNotRead :
    let s := ready 3 [0x41] 2 0
    let src' : Buffer := ⟨[(0, 0x41), (1, 0x22)], [], 0⟩
    (∃ t, exec Command.escape.instr s = .next t)
      ∧ ∀ i, i < s.srcLen → ({ s with src := src' } : State).readByte Config.environment .src i
        = s.readByte Config.environment .src i := by
  refine ⟨⟨_, rfl⟩, fun i hi => ?_⟩
  have : i = 0 := by simp [ready] at hi; exact hi
  subst this; rfl

/-- Also the hypotheses of BlockKeepsSource and BlockKeepsBytesAboveCapacity: a sequencer step, and a
whole command. -/
theorem witness_BlockKeepsOperands :
    (nextIsHostMove (scanning 3 .escape scenario 5 6 17) = false
      ∧ ∃ t, step (scanning 3 .escape scenario 5 6 17) = .next t)
    ∧ (nextIsHostMove (queued [.command] (ready 3 [0x41] 2 0)) = false
      ∧ ∃ t, step (queued [.command] (ready 3 [0x41] 2 0)) = .next t) :=
  ⟨⟨rfl, _, rfl⟩, ⟨rfl, _, rfl⟩⟩

/-- The host's moves, each queued in a waiting block and where a statement asks for it in a `BUSY` one. -/
theorem witness_host (m : HostMove) :
    (queued [.host m] State.reset).turns = .host m :: [] ∧ (queued [.host m] State.reset).phase ≠ .busy
      ∧ (queued [.host m] (scanning 3 .escape [0x41] 0 0 2)).turns = .host m :: []
      ∧ (queued [.host m] (scanning 3 .escape [0x41] 0 0 2)).phase = .busy :=
  ⟨rfl, by simp [queued, State.reset], rfl, rfl⟩

/-- The first and the last index of a space. -/
theorem witness_index : 0 < 2 ^ Config.aw ∧ 2 ^ Config.aw - 1 < 2 ^ Config.aw :=
  ⟨Nat.two_pow_pos _, Nat.sub_lt (Nat.two_pow_pos _) Nat.one_pos⟩

/-- START of each command that is accepted, capacities at their least. -/
theorem witness_StartBeginsCommand (c : Command) :
    let s := queued [.host .start] (ready c.code [0x41] 1 1)
    s.turns = .host .start :: [] ∧ s.phase ≠ .busy ∧ commandOf s.op = some c
      ∧ (c = .escape ∨ c = .encode → s.dstCap ≠ 0)
      ∧ (c = .unescape → s.srcLen ≤ s.dstCap)
      ∧ (c = .decode → s.srcLen ≤ s.midCap) := by
  cases c <;> exact ⟨rfl, by decide, rfl, fun _ => by decide, fun _ => by decide, fun _ => by decide⟩

/-- The least and the greatest assignment of the markers. -/
theorem witness_UnescapeInvertsEscape :
    (⟨192, 193, 194, 195⟩ : Config.Markers).Admissible ∧ Config.markers.Admissible
      ∧ (⟨252, 253, 254, 255⟩ : Config.Markers).Admissible := by decide

/-- An ESCAPE, complete; an ENCODE with the engine T0, complete and truncated. -/
theorem witness_OutputIsSafeText :
    ((ready 3 [0x22] 3 0).phase ≠ .busy
        ∧ ∃ t, runCommand Config.environment .escape (ready 3 [0x22] 3 0) = .next t ∧ t.status = .ok)
      ∧ (ready 5 [0x22] 3 1).phase ≠ .busy
      ∧ (∃ t, runCommand engineT0 .encode (ready 5 [0x22] 3 1) = .next t ∧ t.status = .ok
        ∧ t.trunc = false)
      ∧ ∃ t, runCommand engineT0 .encode (ready 5 [0x22] 2 1) = .next t ∧ t.status = .ok
        ∧ t.trunc = true :=
  ⟨⟨by decide, _, rfl, rfl⟩, by decide, ⟨_, rfl, rfl, rfl⟩, _, rfl, rfl, rfl⟩

/-- One byte short of the full escape and its terminator, and exactly enough. -/
theorem witness_TruncationThreshold :
    (let s := ready 3 [0x22] 2 0;
      s.phase ≠ .busy ∧ s.dstCap ≠ 0 ∧ (∃ t, exec .escape s = .next t)
        ∧ s.dstCap - 1 < fullLen (s.input Config.environment))
    ∧ (let s := ready 3 [0x22] 3 0;
      s.phase ≠ .busy ∧ s.dstCap ≠ 0 ∧ (∃ t, exec .escape s = .next t)
        ∧ fullLen (s.input Config.environment) ≤ s.dstCap - 1) := by
  refine ⟨⟨by decide, by decide, ⟨_, rfl⟩, ?_⟩, ⟨by decide, by decide, ⟨_, rfl⟩, ?_⟩⟩ <;>
    exact (by decide : _ ∧ True).1

/-- A truncated ESCAPE, and a truncated ENCODE with the engine T0. -/
theorem witness_TruncationIsDetectable :
    (let s := ready 3 [0x22] 2 0;
      s.phase ≠ .busy ∧ s.dstCap ≠ 0
        ∧ ∃ t, runCommand engineT0 .escape s = .next t ∧ t.encodeTruncated = true)
    ∧ (let s := ready 5 [0x22] 2 1;
      s.phase ≠ .busy ∧ s.dstCap ≠ 0
        ∧ ∃ t, runCommand engineT0 .encode s = .next t ∧ t.status = .ok ∧ t.encodeTruncated = true) :=
  ⟨⟨by decide, by decide, _, rfl, rfl⟩, by decide, by decide, _, rfl, rfl, rfl⟩

theorem witness_UnescapeAfterEscapeRestores :
    let s := ready 3 [0x41, 0x22] 4 0
    let s2 := ready 4 [0x41, 0xF5, 0xA2] 3 0
    s.phase ≠ .busy ∧ s.dstCap ≠ 0 ∧ s2.phase ≠ .busy
      ∧ ∃ t, exec .escape s = .next t ∧ s2.srcLen = t.len
        ∧ s2.input Config.environment = t.output Config.environment ∧ t.len ≤ s2.dstCap :=
  ⟨by decide, by decide, by decide, _, rfl, rfl, rfl, by decide⟩

/-- The engine T0 meets P1 with healthy draws; the block and then the text's block, capacities at their
least. -/
theorem witness_DecodeAfterEncodeRestores :
    engineT0.Lossless ∧ engineT0.Healthy
      ∧ (let s := ready 5 [0x22] 3 1;
        s.phase ≠ .busy ∧ (engineT0.deflate (s.input engineT0)).length ≤ s.midCap
          ∧ (escapeFn (engineT0.deflate (s.input engineT0))).length + 1 ≤ s.dstCap)
      ∧ (let s2 := ready 6 [0xF5, 0xA2] 1 2;
        s2.phase ≠ .busy ∧ s2.input engineT0 = escapeFn [0x22] ∧ 2 ≤ s2.midCap
          ∧ 1 ≤ s2.dstCap) :=
  ⟨fun _ => rfl, fun _ => ⟨rfl, rfl⟩, by decide, by decide⟩

theorem witness_DecompressAfterCompressRestores :
    engineT0.Lossless
      ∧ let s := ready 1 [0x22] 1 0
        let s2 := ready 2 [0x22] 1 0
        s.phase ≠ .busy ∧ s2.phase ≠ .busy ∧ engineT0.initOk s2.draws = true
          ∧ s.srcLen ≤ s2.dstCap
          ∧ ∃ t, runCommand engineT0 .compress s = .next t ∧ t.status = .ok ∧ s2.srcLen = t.len
            ∧ s2.input engineT0 = t.output engineT0 :=
  ⟨fun _ => rfl, by decide, by decide, rfl, by decide, _, rfl, rfl, rfl, rfl⟩

/-- A compressed stream with an explicit end: a 1 before each byte, a 0 at the end. -/
def chain : List Byte → List Byte
  | [] => [0]
  | b :: x => 1 :: b :: chain x

def unchain : List Byte → Option (List Byte)
  | [] => none
  | [z] => if z = 0 then some [] else none
  | o :: b :: r => if o = 1 then (unchain r).map (b :: ·) else none

/-- An engine with law P3. -/
def engineT2 : Config.Environment := { engineT0 with deflate := chain, inflate := unchain }

theorem engineT2_prefixes : engineT2.PrefixesUnfinished := by
  intro x
  show ∀ k, k < (chain x).length → unchain ((chain x).take k) = none
  induction x with
  | nil => intro k hk; have : k = 0 := by simp [chain] at hk; exact hk
           subst this; rfl
  | cons b x ih =>
    intro k hk
    match k, hk with
    | 0, _ => rfl
    | 1, _ => rfl
    | k + 2, hk =>
      have := ih k (by simp [chain] at hk; omega)
      simp [chain, unchain, this]

theorem witness_TruncatedTextDoesNotDecode :
    engineT2.PrefixesUnfinished
      ∧ let s := ready 5 [] 2 1
        let s2 := ready 6 [] 0 0
        s.phase ≠ .busy ∧ s2.phase ≠ .busy ∧ engineT2.initOk s2.draws = true
          ∧ ∃ t, runCommand engineT2 .encode s = .next t ∧ t.status = .ok ∧ t.trunc = true
            ∧ s2.srcLen = t.len ∧ s2.input engineT2 = t.output engineT2
            ∧ t.len ≤ s2.midCap :=
  ⟨engineT2_prefixes, by decide, by decide, rfl, _, rfl, rfl, rfl, rfl, rfl, by decide⟩

end Sys2Proof.Tests
end

section
/-! SUPPORT. Unescaping inverts escaping for every assignment of the markers that R7 admits
(spec 42 R164). -/

namespace Sys2Proof

/-! ### One unit of the decoder at the front of a stream -/

/-- A byte that is no marker decodes to itself (R163). -/
theorem unescapeFnIn_cons_literal {k : Config.Markers} {m : Byte} (hm : isMarkerIn k m = false)
    (t : List Byte) : unescapeFnIn k (m :: t) = (unescapeFnIn k t).map (m :: ·) := by
  cases t <;> simp [unescapeFnIn, hm]

/-- A marker and its payload decode to the byte they stand for (R163). -/
theorem unescapeFnIn_cons_pair {k : Config.Markers} {m : Byte} (hm : isMarkerIn k m = true)
    (p : Byte) (t : List Byte) :
    unescapeFnIn k (m :: p :: t) = (unescapeFnIn k t).map (unbiasIn k m p :: ·) := by
  simp [unescapeFnIn, hm]

/-! ### The pair of a byte -/

theorem isMarkerIn_nth (k : Config.Markers) (i : Fin 4) : isMarkerIn k (k.nth i) = true := by
  fin_cases i <;> simp [isMarkerIn, Config.Markers.nth]

/-- Admissible markers are distinct, so each has its own bucket (R7, R9). -/
theorem bucketIn_nth {k : Config.Markers} (hk : k.Admissible) (i : Fin 4) :
    bucketIn k (k.nth i) = i := by
  obtain ⟨-, h1, h2, h3⟩ := hk
  have ne_of_toNat {a b : Byte} (h : a.toNat ≠ b.toNat) : a ≠ b := fun e => h (e ▸ rfl)
  have h10 : k.m1 ≠ k.m0 := ne_of_toNat (by omega)
  have h20 : k.m2 ≠ k.m0 := ne_of_toNat (by omega)
  have h21 : k.m2 ≠ k.m1 := ne_of_toNat (by omega)
  have h30 : k.m3 ≠ k.m0 := ne_of_toNat (by omega)
  have h31 : k.m3 ≠ k.m1 := ne_of_toNat (by omega)
  have h32 : k.m3 ≠ k.m2 := ne_of_toNat (by omega)
  fin_cases i <;> simp [bucketIn, Config.Markers.nth, h10, h20, h21, h30, h31, h32]

/-- Bucket and payload give the byte back: `64 * (b / 64) + b % 64` (R92). -/
theorem pairValue_payloadOf (b : Byte) (h : b.toNat / 64 < 4) :
    pairValue ⟨b.toNat / 64, h⟩ (payloadOf b) = b := by
  apply BitVec.eq_of_toNat_eq
  simp only [pairValue, payloadOf, Config.base, Config.payloadBias, BitVec.toNat_ofNat]
  omega

/-! ### The round trip -/

theorem isMarkerIn_of_needsEscapeIn {k : Config.Markers} {b : Byte}
    (h : needsEscapeIn k b = false) : isMarkerIn k b = false := by
  simp only [needsEscapeIn, Bool.or_eq_false_iff] at h
  exact h.2

/-- The escape of one byte, at the front of any stream, decodes to that byte. -/
theorem unescapeFnIn_escapeOneIn_append {k : Config.Markers} (hk : k.Admissible) (b : Byte)
    (t : List Byte) :
    unescapeFnIn k (escapeOneIn k b ++ t) = (unescapeFnIn k t).map (b :: ·) := by
  unfold escapeOneIn
  split
  case isTrue =>
    rw [List.cons_append, List.cons_append, List.nil_append,
      unescapeFnIn_cons_pair (isMarkerIn_nth k _), unbiasIn, bucketIn_nth hk,
      pairValue_payloadOf]
  case isFalse h =>
    exact unescapeFnIn_cons_literal (isMarkerIn_of_needsEscapeIn (by simpa using h)) t

/-- Settles O49, by induction on the sequence: the decoder takes the escape of its first byte whole. -/
theorem unescapeInvertsEscape : Obligations.UnescapeInvertsEscape := by
  intro k hk x
  induction x with
  | nil => rfl
  | cons b x ih =>
    rw [escapeFnIn, List.flatMap_cons, unescapeFnIn_escapeOneIn_append hk, ← escapeFnIn, ih]
    rfl

end Sys2Proof
end

section
/-! SUPPORT. Every step keeps the machine's invariant (spec 10 R45; 70 R237). `State.Sound` is the part of
`State.Inv` that does not depend on the phase; the rest is proved once for a block that is not `BUSY`
and once for a running stage. -/

namespace Sys2Proof.Machine

/-! ### The part of the invariant that holds in every phase -/

/-- Memories in canonical form inside their spaces, and registers within their width. -/
structure State.Sound (aw : Nat) (s : State) : Prop where
  wf : ∀ sp, Memory.wf (s.buffer sp).cells
  within : ∀ sp, Memory.within (2 ^ aw) (s.buffer sp).cells
  fit : s.WordsFit aw

theorem State.Inv.sound {aw : Nat} {s : State} (h : s.Inv aw) : s.Sound aw := ⟨h.wf, h.within, h.fit⟩

section Sound
variable {aw : Nat} {s t : State}

/-- With the buffers unchanged only the registers are left to check. -/
theorem State.Sound.of_buffers (h : s.Sound aw) (hb : ∀ sp, t.buffer sp = s.buffer sp)
    (hf : t.WordsFit aw) : t.Sound aw :=
  ⟨fun sp => hb sp ▸ h.wf sp, fun sp => hb sp ▸ h.within sp, hf⟩

theorem State.Sound.setBuffer (h : s.Sound aw) (sp : Space) {b : Buffer} (hw : Memory.wf b.cells)
    (hi : Memory.within (2 ^ aw) b.cells) : (s.setBuffer sp b).Sound aw := by
  refine ⟨fun sp' => ?_, fun sp' => ?_, ?_⟩
  · rw [State.setBuffer_buffer]; split
    · exact hw
    · exact h.wf sp'
  · rw [State.setBuffer_buffer]; split
    · exact hi
    · exact h.within sp'
  · obtain ⟨h1, h2, h3, h4, h5, h6, h7⟩ := h.fit
    constructor <;> simpa

theorem State.Sound.store (h : s.Sound aw) (sp : Space) {i : Nat} {bs : List Byte}
    (hi : i + bs.length ≤ 2 ^ aw) : (s.store sp i bs).Sound aw :=
  h.setBuffer sp (Buffer.write_wf (h.wf sp) i bs) (Buffer.write_within (h.within sp) i bs hi)

theorem State.Sound.havoc (h : s.Sound aw) (sp : Space) (lo hi draw : Nat) :
    (s.havoc sp lo hi draw).Sound aw :=
  h.setBuffer sp (Buffer.havoc_wf (h.wf sp) lo hi draw) (Buffer.havoc_within (h.within sp) lo hi draw)

theorem State.Sound.deliver (h : s.Sound aw) (b : Binding) {out : List Byte}
    (hout : out.length ≤ 2 ^ aw) (draw : Nat) : (s.deliver b out draw).Sound aw :=
  (h.store b.dst (by omega)).havoc ..

theorem State.Sound.drawn (h : s.Sound aw) : s.drawn.Sound aw :=
  h.of_buffers (fun _ => rfl) { h.fit with }

theorem State.Sound.truncated (h : s.Sound aw) : s.truncated.Sound aw :=
  h.of_buffers (fun _ => rfl) { h.fit with }

theorem State.Sound.advance (h : s.Sound aw) {r w : Nat} (hr : s.rp + r < 2 ^ aw)
    (hw : s.wp + w < 2 ^ aw) : (s.advance r w).Sound aw :=
  h.of_buffers (fun _ => rfl) { h.fit with rp := hr, wp := hw }

theorem State.Sound.complete (h : s.Sound aw) {n : Nat} (hn : n < 2 ^ aw) : (s.complete n).Sound aw :=
  h.of_buffers (fun _ => rfl) { h.fit with len := hn }

theorem State.Sound.raise (h : s.Sound aw) (c : Command) (code : Status) :
    (s.raise c code).Sound aw := by
  refine h.of_buffers (fun _ => rfl) { h.fit with midLen := ?_, len := ?_ }
  · rw [State.raise_midLen]; split
    · exact h.fit.wp
    · exact h.fit.midLen
  · rw [State.raise_len]; split
    · exact h.fit.wp
    · exact Nat.two_pow_pos aw

theorem State.Sound.clearResults (h : s.Sound aw) : s.clearResults.Sound aw :=
  have hz := Nat.two_pow_pos aw
  h.of_buffers (fun _ => rfl) { h.fit with len := hz, rp := hz, wp := hz, midLen := hz }

/-- A stage reads and writes extents of its spaces (R170). -/
theorem binding_fits {c : Command} {st : Stage} {b : Binding} (h : s.WordsFit aw)
    (hb : binding c st s = some b) : b.len < 2 ^ aw ∧ b.cap < 2 ^ aw := by
  obtain ⟨h1, h2, h3, -, -, h6, -⟩ := h
  cases c <;> cases st <;> simp only [binding, Option.some.injEq, reduceCtorEq] at hb <;>
    subst hb <;> exact ⟨by assumption, by assumption⟩

end Sound

/-! ### A block that has completed, and a block that runs a stage -/

/-- What the invariant says of a block that runs command `c` (R41, R45). -/
structure State.Running (aw : Nat) (c : Command) (s : State) : Prop where
  sound : s.Sound aw
  phase : s.phase = .busy
  status : s.status = .ok
  trunc : s.trunc = false
  len : s.len = 0
  command : commandOf s.op = some c
  stage : StageInv c s

section Phases
variable {aw : Nat} {c : Command} {s t : State}

theorem State.Inv.running (h : s.Inv aw) (hb : s.phase = .busy) (hc : commandOf s.op = some c) :
    s.Running aw c := by
  obtain ⟨hs, ht, hl, c', hc', hi⟩ := h.busy_stage hb
  cases hc.symm.trans hc'
  exact ⟨h.sound, hb, hs, ht, hl, hc, hi⟩

theorem stage_ne_none_of_stageInv (h : StageInv c s) : s.stage ≠ .none := by
  intro hs
  simp only [StageInv, hs] at h

theorem State.Running.inv (h : s.Running aw c) : s.Inv aw where
  wf := h.sound.wf
  within := h.sound.within
  fit := h.sound.fit
  stage_iff := by simp [stage_ne_none_of_stageInv h.stage, h.phase]
  trunc_ok _ := h.status
  len_zero _ _ := h.len
  idle_clear hi := by simp [h.phase] at hi
  busy_stage _ := ⟨h.status, h.trunc, h.len, c, h.command, h.stage⟩

theorem State.Sound.inv_of_completed (h : s.Sound aw) (hd : Completed s)
    (ht : s.trunc = true → s.status = .ok)
    (hl : s.status ≠ .ok → s.status ≠ .malformedEscape → s.len = 0) : s.Inv aw where
  wf := h.wf
  within := h.within
  fit := h.fit
  stage_iff := by simp [hd.1, hd.2]
  trunc_ok := ht
  len_zero := hl
  idle_clear hi := by simp [hd.1] at hi
  busy_stage hb := by simp [hd.1] at hb

theorem State.Sound.inv_complete (h : s.Sound aw) {n : Nat} (hn : n < 2 ^ aw) :
    (s.complete n).Inv aw :=
  (h.complete hn).inv_of_completed ⟨rfl, rfl⟩ (fun _ => rfl) fun hs => absurd rfl hs

/-- An error keeps `LEN` only where it is MALFORMED_ESCAPE (R178, R210). -/
theorem State.Sound.inv_raise (h : s.Sound aw) (ht : s.trunc = false) (c : Command)
    (code : Status) : (s.raise c code).Inv aw :=
  (h.raise c code).inv_of_completed ⟨rfl, rfl⟩ (fun htr => by simp [ht] at htr)
    fun _ hm => if_neg fun hc => hm hc.1

/-! ### The stages of a command -/

theorem stageReturn_escape (c : Command) (s : State) (n : Nat) :
    s.stageReturn c .escape n = s.complete n := by cases c <;> rfl

theorem stageReturn_decompress (c : Command) (s : State) (n : Nat) :
    s.stageReturn c .decompress n = s.complete n := by cases c <;> rfl

theorem stageInv_compress (h : s.stage = .compress) :
    StageInv c s ↔ (c = .compress ∨ c = .encode) ∧ (c = .encode → 1 ≤ s.dstCap) ∧ CursorsZero s := by
  simp only [StageInv, h]

theorem stageInv_escape (h : s.stage = .escape) {b : Binding} (hb : binding c .escape s = some b) :
    StageInv c s ↔ 1 ≤ b.cap ∧ s.rp ≤ b.len ∧ s.wp ≤ b.cap - 1 ∧ s.rp ≤ s.wp ∧ s.wp ≤ 2 * s.rp
      ∧ s.midLen ≤ s.midCap ∧ (c = .escape → s.midLen = 0) := by
  simp only [StageInv, h, hb, Option.some.injEq, exists_eq_left']

theorem stageInv_unescape (h : s.stage = .unescape) {b : Binding}
    (hb : binding c .unescape s = some b) :
    StageInv c s ↔ b.len ≤ b.cap ∧ s.rp ≤ b.len ∧ s.wp ≤ s.rp ∧ s.rp ≤ 2 * s.wp ∧ s.midLen = 0 := by
  simp only [StageInv, h, hb, Option.some.injEq, exists_eq_left']

theorem stageInv_decompress (h : s.stage = .decompress) :
    StageInv c s ↔ (c = .decompress ∧ CursorsZero s)
      ∨ (c = .decode ∧ s.rp = s.srcLen ∧ s.wp = s.midLen ∧ s.midLen ≤ s.midCap) := by
  simp only [StageInv, h]

/-! ### The escape scan -/

theorem escapeFinish_inv {b : Binding} (h : s.Sound aw) (hcap : b.cap < 2 ^ aw)
    (hf : escapeFinish c b s = .next t) : t.Inv aw := by
  obtain ⟨hw, rfl⟩ := escapeFinish_next hf
  rw [stageReturn_escape]
  exact (h.store b.dst (by simp only [List.length_singleton]; omega)).inv_complete (by omega)

/-- A unit of one or two bytes keeps `RP ≤ WP ≤ 2 * RP` and leaves the terminator's place (R138). -/
theorem emitUnit_inv {out : List Byte} (h : s.Running aw c) (hout : out.length = 1 ∨ out.length = 2)
    (he : emitUnit c out s = .next t) : t.Inv aw := by
  obtain ⟨b, hb, hrp, hcase⟩ := emitUnit_next he
  obtain ⟨-, hst, hbind⟩ := runningStage_some.1 hb
  obtain ⟨hlen, hcap⟩ := binding_fits h.sound.fit hbind
  obtain ⟨h1, h2, h3, h4, h5, h6, h7⟩ := (stageInv_escape hst hbind).1 h.stage
  rcases hcase with ⟨hfit, rfl⟩ | ⟨-, hf⟩
  · have hsound : ((s.store b.dst s.wp out).advance 1 out.length).Sound aw :=
      (h.sound.store b.dst (by omega)).advance (by simp only [State.store_rp]; omega)
        (by simp only [State.store_wp]; omega)
    refine State.Running.inv (c := c) ⟨hsound, by simp [h.phase], by simp [h.status],
      by simp [h.trunc], by simp [h.len], by simp [h.command], ?_⟩
    refine (stageInv_escape (by simp [hst])
      ((binding_congr c .escape (by simp) (by simp) (by simp) (by simp)).trans hbind)).2 ?_
    simp only [State.advance_rp, State.advance_wp, State.advance_midLen, State.advance_midCap,
      State.store_rp, State.store_wp, State.store_midLen, State.store_midCap]
    exact ⟨h1, by omega, by omega, by omega, by omega, h6, h7⟩
  · exact escapeFinish_inv h.sound.truncated hcap hf

theorem escapeStep_inv {env : Config.Environment} (h : s.Running aw c)
    (he : escapeStep env c s = .next t) : t.Inv aw := by
  obtain ⟨b, hb, ⟨-, hf⟩ | ⟨-, hu⟩⟩ := escapeStep_next he
  · exact escapeFinish_inv h.sound (binding_fits h.sound.fit (runningStage_some.1 hb).2.2).2 hf
  · exact emitUnit_inv h (escapeOne_length _) hu

/-! ### The unescape scan -/

/-- A unit of one or two bytes becomes one byte, so `WP ≤ RP ≤ 2 * WP` (R162). -/
theorem consumeUnit_inv {size : Nat} {v : Byte} (h : s.Running aw c) (hsize : size = 1 ∨ size = 2)
    (hu : consumeUnit c size v s = .next t) : t.Inv aw := by
  obtain ⟨b, hb, hrp, ⟨-, rfl⟩ | ⟨hend, hwp, rfl⟩⟩ := consumeUnit_next hu
  · exact h.sound.inv_raise h.trunc ..
  · obtain ⟨-, hst, hbind⟩ := runningStage_some.1 hb
    obtain ⟨hlen, hcap⟩ := binding_fits h.sound.fit hbind
    obtain ⟨h1, h2, h3, h4, h5⟩ := (stageInv_unescape hst hbind).1 h.stage
    have hsound : ((s.store b.dst s.wp [v]).advance size 1).Sound aw :=
      (h.sound.store b.dst (by simp only [List.length_singleton]; omega)).advance
        (by simp only [State.store_rp]; omega) (by simp only [State.store_wp]; omega)
    refine State.Running.inv (c := c) ⟨hsound, by simp [h.phase], by simp [h.status],
      by simp [h.trunc], by simp [h.len], by simp [h.command], ?_⟩
    refine (stageInv_unescape (by simp [hst])
      ((binding_congr c .unescape (by simp) (by simp) (by simp) (by simp)).trans hbind)).2 ?_
    simp only [State.advance_rp, State.advance_wp, State.advance_midLen, State.store_rp,
      State.store_wp, State.store_midLen]
    exact ⟨h1, by omega, by omega, by omega, h5⟩

/-- The scan's finish completes UNESCAPE, and hands DECODE over to its decompress stage with
`MID_LEN = WP` (R159, R172). -/
theorem unescapeFinish_inv {b : Binding} (h : s.Running aw c) (hb : runningStage c .unescape s = some b)
    (hr : s.rp = b.len) : (s.stageReturn c .unescape s.wp).Inv aw := by
  obtain ⟨-, hst, hbind⟩ := runningStage_some.1 hb
  obtain ⟨h1, -, h3, -, -⟩ := (stageInv_unescape hst hbind).1 h.stage
  rcases binding_unescape hbind with ⟨rfl, rfl⟩ | ⟨rfl, rfl⟩
  · exact h.sound.inv_complete h.sound.fit.wp
  · exact State.Running.inv (c := .decode)
      { sound := h.sound.of_buffers (fun _ => rfl) { h.sound.fit with midLen := h.sound.fit.wp }
        phase := h.phase
        status := h.status
        trunc := h.trunc
        len := h.len
        command := h.command
        stage := (stageInv_decompress rfl).2 (.inr ⟨rfl, hr, rfl, h3.trans (hr.trans_le h1)⟩) }

theorem unescapeStep_inv {env : Config.Environment} (h : s.Running aw c)
    (hu : unescapeStep env c s = .next t) : t.Inv aw := by
  obtain ⟨b, hb, ⟨hr, rfl⟩ | ⟨-, ⟨-, hl⟩ | ⟨-, -, rfl⟩ | ⟨-, -, hp⟩⟩⟩ := unescapeStep_next hu
  · exact unescapeFinish_inv h hb hr
  · exact consumeUnit_inv h (.inl rfl) hl
  · exact h.sound.inv_raise h.trunc ..
  · exact consumeUnit_inv h (.inr rfl) hp

/-! ### The engine stages -/

/-- The compressed bytes complete COMPRESS, and hand ENCODE over to its escape stage with cleared
cursors (R117, R130, R171). -/
theorem compressReturn_inv {b : Binding} {out : List Byte} {draw : Nat} (h : s.Running aw c)
    (hb : runningStage c .compress s = some b) (hout : out.length ≤ b.cap) :
    ((s.drawn.deliver b out draw).stageReturn c .compress out.length).Inv aw := by
  obtain ⟨-, hst, hbind⟩ := runningStage_some.1 hb
  have hcap := (binding_fits h.sound.fit hbind).2
  obtain ⟨-, hdst, -⟩ := (stageInv_compress hst).1 h.stage
  have hsound := h.sound.drawn.deliver b (by omega : out.length ≤ 2 ^ aw) draw
  rcases binding_compress hbind with ⟨rfl, rfl⟩ | ⟨rfl, rfl⟩
  · exact hsound.inv_complete (by omega)
  · have hz := Nat.two_pow_pos aw
    refine State.Running.inv (c := .encode)
      { sound := hsound.of_buffers (fun _ => rfl)
          { hsound.fit with midLen := hout.trans_lt hcap, rp := hz, wp := hz }
        phase := by simp [State.stageReturn, h.phase]
        status := by simp [State.stageReturn, h.status]
        trunc := rfl
        len := by simp [State.stageReturn, h.len]
        command := by simp [State.stageReturn, h.command]
        stage := (stageInv_escape rfl rfl).2 ?_ }
    have hdst := hdst rfl
    simp only [State.srcToMid] at hout
    simp [State.stageReturn, State.midToDst, hdst, hout]

theorem compressStep_inv {env : Config.Environment} (h : s.Running aw c)
    (hs : compressStep env c s = .next t) : t.Inv aw := by
  obtain ⟨b, hb, ⟨-, rfl⟩ | ⟨-, ⟨-, rfl⟩ | ⟨hout, ⟨-, rfl⟩ | ⟨-, rfl⟩⟩⟩⟩ := compressStep_next hs
  · exact h.sound.drawn.inv_raise h.trunc ..
  · exact (h.sound.drawn.havoc ..).inv_raise (by simp [h.trunc]) ..
  · exact (h.sound.drawn.havoc ..).inv_raise (by simp [h.trunc]) ..
  · exact compressReturn_inv h hb hout

theorem decompressStep_inv {env : Config.Environment} (h : s.Running aw c)
    (hs : decompressStep env c s = .next t) : t.Inv aw := by
  obtain ⟨b, hb, ⟨-, rfl⟩ | ⟨-, ⟨-, rfl⟩ | ⟨x, -, hx, rfl⟩⟩⟩ := decompressStep_next hs
  · exact h.sound.drawn.inv_raise h.trunc ..
  · exact (h.sound.drawn.havoc ..).inv_raise (by simp [h.trunc]) ..
  · have hcap := (binding_fits h.sound.fit (runningStage_some.1 hb).2.2).2
    rw [stageReturn_decompress]
    exact (h.sound.drawn.deliver b (by omega) _).inv_complete (by omega)

/-! ### The sequencer and START -/

theorem sequencerStep_inv {env : Config.Environment} (h : s.Running aw c)
    (hs : sequencerStep env c s = .next t) : t.Inv aw := by
  unfold sequencerStep at hs
  split at hs
  · cases hs
  · exact compressStep_inv h hs
  · exact escapeStep_inv h hs
  · exact unescapeStep_inv h hs
  · exact decompressStep_inv h hs

theorem sequencerMove_inv {env : Config.Environment} (h : s.Inv aw)
    (hs : sequencerMove env s = .next t) : t.Inv aw := by
  by_cases hb : s.phase = .busy
  · obtain ⟨-, -, -, c, hc, -⟩ := h.busy_stage hb
    rw [sequencerMove_eq hb hc] at hs
    exact sequencerStep_inv (h.running hb hc) hs
  · rw [sequencerMove, if_neg hb] at hs
    cases hs
    exact h

theorem refused_inv (h : s.Sound aw) (code : Status) : (s.clearResults.refuse code).Inv aw :=
  have hsound : (s.clearResults.refuse code).Sound aw :=
    h.clearResults.of_buffers (fun _ => rfl) { h.clearResults.fit with }
  hsound.inv_of_completed ⟨rfl, rfl⟩ nofun fun _ _ => rfl

/-- START's validation gives the first stage of the command its preconditions (R130, R150, R179). -/
theorem stageInv_accept (h : startRefusal c s = none) : StageInv c (s.clearResults.accept c) := by
  cases c with
  | compress => exact (stageInv_compress rfl).2 ⟨.inl rfl, nofun, rfl, rfl, rfl⟩
  | decompress => exact (stageInv_decompress rfl).2 (.inl ⟨rfl, rfl, rfl, rfl⟩)
  | escape =>
    have hcap : s.dstCap ≠ 0 := by simpa [startRefusal] using h
    refine (stageInv_escape rfl rfl).2 ?_
    simpa [State.srcToDst, Nat.one_le_iff_ne_zero] using hcap
  | unescape =>
    have hcap : s.srcLen ≤ s.dstCap := by simpa [startRefusal] using h
    refine (stageInv_unescape rfl rfl).2 ?_
    simpa [State.srcToDst] using hcap
  | encode =>
    have hcap : s.dstCap ≠ 0 := by simpa [startRefusal] using h
    exact (stageInv_compress rfl).2 ⟨.inr rfl, fun _ => Nat.pos_of_ne_zero hcap, rfl, rfl, rfl⟩
  | decode =>
    have hcap : s.srcLen ≤ s.midCap := by simpa [startRefusal] using h
    refine (stageInv_unescape rfl rfl).2 ?_
    simpa [State.srcToMid] using hcap

theorem beginCommand_inv (h : s.Sound aw) (hc : commandOf s.op = some c) :
    (beginCommand c s).Inv aw := by
  unfold beginCommand
  split
  case h_1 code _ => exact refused_inv h code
  case h_2 hr =>
    exact State.Running.inv (c := c)
      { sound := h.clearResults.of_buffers (fun _ => rfl) { h.clearResults.fit with }
        phase := rfl
        status := rfl
        trunc := rfl
        len := rfl
        command := hc
        stage := stageInv_accept hr }

theorem hostStart_inv (h : s.Inv aw) : (hostStart s).Inv aw := by
  unfold hostStart
  split
  · exact h
  · split
    · next hc => exact beginCommand_inv h.sound hc
    · exact refused_inv h.sound .badCommand

theorem beginCommand_op (c : Command) (s : State) : (beginCommand c s).op = s.op := by
  unfold beginCommand; split <;> rfl

/-- A whole command keeps the invariant, since each of its sequencer steps does and leaves `OP`. -/
theorem runCommand_inv {env : Config.Environment} (h : s.Inv aw) (hc : commandOf s.op = some c)
    (hs : runCommand env c s = .next t) : t.Inv aw := by
  unfold runCommand at hs
  split at hs
  · cases hs
    exact h
  · have hstep (u v : State) (hb : u.phase = .busy) (hu : u.Inv aw ∧ commandOf u.op = some c)
        (hv : sequencerStep env c u = .next v) : v.Inv aw ∧ commandOf v.op = some c := by
      obtain ⟨_, _, hframe⟩ := sequencerStep_frame hv
      exact ⟨sequencerStep_inv (hu.1.running hb hu.2) hv, hframe.operands.1 ▸ hu.2⟩
    have hstart : (beginCommand c s).Inv aw ∧ commandOf (beginCommand c s).op = some c :=
      ⟨beginCommand_inv h.sound hc, beginCommand_op c s ▸ hc⟩
    exact (runToDone_induct hstep hstart hs).1.1

theorem commandMove_inv (h : s.Inv aw) (hs : commandMove s = .next t) : t.Inv aw := by
  unfold commandMove decodeCommand at hs
  cases hc : commandOf s.op with
  | none =>
    simp only [hc, Host.Outcome.next.injEq] at hs
    exact hs ▸ hostStart_inv h
  | some c =>
    simp only [hc, exec_command] at hs
    exact runCommand_inv h hc hs

/-! ### The host -/

/-- The queue, the last reply and the count of draws are no state of the block. -/
theorem State.Inv.setHost (h : s.Inv aw) (draws : Nat) (turns : List Turn) (reply : Option Reply) :
    { s with draws := draws, turns := turns, reply := reply }.Inv aw where
  wf := h.wf
  within := h.within
  fit := { h.fit with }
  stage_iff := h.stage_iff
  trunc_ok := h.trunc_ok
  len_zero := h.len_zero
  idle_clear := h.idle_clear
  busy_stage := h.busy_stage

/-- Outside `BUSY` the operands and the memory may change: the invariant asks more of the results alone. -/
theorem State.Inv.of_results (h : s.Inv aw) (hb : s.phase ≠ .busy) (ht : t.Sound aw)
    (hp : t.phase = s.phase) (hst : t.stage = s.stage) (hs : t.status = s.status)
    (htr : t.trunc = s.trunc) (hl : t.len = s.len) (hc : CursorsZero s → CursorsZero t) :
    t.Inv aw where
  wf := ht.wf
  within := ht.within
  fit := ht.fit
  stage_iff := by rw [hst, hp]; exact h.stage_iff
  trunc_ok := by rw [htr, hs]; exact h.trunc_ok
  len_zero := by rw [hs, hl]; exact h.len_zero
  idle_clear hi := by
    obtain ⟨h1, h2, h3, h4⟩ := h.idle_clear (hp ▸ hi)
    exact ⟨hs.trans h1, htr.trans h2, hl.trans h3, hc h4⟩
  busy_stage hbt := absurd (hp ▸ hbt) hb

theorem cutToWidth_lt (env : Config.Environment) (v : Nat) : cutToWidth env v < 2 ^ env.aw :=
  Nat.mod_lt _ (Nat.two_pow_pos _)

theorem hostWriteReg_inv {env : Config.Environment} (h : s.Inv env.aw) (r : RegWrite) :
    (hostWriteReg env r s).Inv env.aw := by
  unfold hostWriteReg
  split
  · exact h
  · next hb =>
    have hcut := cutToWidth_lt env
    cases r with
    | op v =>
      exact h.of_results hb (h.sound.of_buffers (fun _ => rfl) { h.fit with })
        rfl rfl rfl rfl rfl id
    | srcLen v =>
      exact h.of_results hb (h.sound.of_buffers (fun _ => rfl) { h.fit with srcLen := hcut v })
        rfl rfl rfl rfl rfl id
    | dstCap v =>
      exact h.of_results hb (h.sound.of_buffers (fun _ => rfl) { h.fit with dstCap := hcut v })
        rfl rfl rfl rfl rfl id
    | midCap v =>
      exact h.of_results hb (h.sound.of_buffers (fun _ => rfl) { h.fit with midCap := hcut v })
        rfl rfl rfl rfl rfl id

theorem hostReadReg_inv {env : Config.Environment} (h : s.Inv aw) (r : ReadReg) :
    (hostReadReg env r s).Inv aw := by
  unfold hostReadReg
  split
  · split <;> exact h.setHost ..
  · exact h.setHost ..

theorem hostReset_inv (aw : Nat) (s : State) : (hostReset s).Inv aw where
  wf sp := by cases sp <;> exact nil_wf
  within sp := by cases sp <;> exact nil_within _
  fit := have hz := Nat.two_pow_pos aw; ⟨hz, hz, hz, hz, hz, hz, hz⟩
  stage_iff := ⟨fun _ => nofun, fun _ => rfl⟩
  trunc_ok := nofun
  len_zero _ _ := rfl
  idle_clear _ := ⟨rfl, rfl, rfl, rfl, rfl, rfl⟩
  busy_stage := nofun

theorem hostMove_inv {env : Config.Environment} (h : s.Inv env.aw) (m : HostMove)
    (hs : hostMove env m s = .next t) : t.Inv env.aw := by
  cases m with
  | writeReg r => cases hs; exact hostWriteReg_inv h r
  | writeSrc i v =>
    simp only [hostMove] at hs
    split at hs
    · cases hs
    · next hb =>
      cases hs
      exact h.of_results hb (h.sound.store .src (cutToWidth_lt env i)) rfl rfl rfl rfl rfl id
  | readReg r => cases hs; exact hostReadReg_inv h r
  | readBuf b i =>
    simp only [hostMove] at hs
    split at hs
    · cases hs
    · cases hs
      exact h.setHost ..
  | start => cases hs; exact hostStart_inv h
  | reset => cases hs; exact hostReset_inv ..

theorem nextMove_inv {env : Config.Environment} (h : s.Inv env.aw) (hs : nextMove env s = .next t) :
    t.Inv env.aw := by
  unfold nextMove at hs
  split at hs
  · exact sequencerMove_inv h hs
  · exact hostMove_inv (h.setHost ..) _ hs
  · exact sequencerMove_inv (h.setHost ..) hs
  · exact commandMove_inv (h.setHost ..) hs

end Phases

/-- Settles O10, by whose turn it is: a host move, a sequencer step of the running stage, or a whole
command, which is START and a run of sequencer steps. -/
theorem stepKeepsInvariant : Obligations.StepKeepsInvariant :=
  fun _ _ h hs => nextMove_inv (env := Config.environment) h hs

end Sys2Proof.Machine
end

section
/-! SUPPORT. The forward form of the stages' shared operations, and the machine's step by the head of its
queue (spec 10 R45; 41 R136; 42 R151; 43 R189). -/

namespace Sys2Proof.Machine

/-! ### Units and input bytes, forward -/

section Units
variable {c : Command} {b : Binding} {s : State}

theorem escapeFinish_of_lt (hw : s.wp < b.cap) :
    escapeFinish c b s = .next ((s.store b.dst s.wp [Config.term]).complete s.wp) := by
  rw [escapeFinish, if_pos hw, stageReturn_escape]

theorem emitUnit_of_fits {out : List Byte} (hb : runningStage c .escape s = some b)
    (hr : s.rp < b.len) (hf : s.wp + out.length ≤ b.cap - 1) :
    emitUnit c out s = .next ((s.store b.dst s.wp out).advance 1 out.length) := by
  simp [emitUnit, hb, unitFits, hf, Nat.not_le.2 hr]

theorem emitUnit_of_not_fits {out : List Byte} (hb : runningStage c .escape s = some b)
    (hr : s.rp < b.len) (hf : b.cap - 1 < s.wp + out.length) :
    emitUnit c out s = escapeFinish c b s.truncated := by
  simp [emitUnit, hb, unitFits, Nat.not_le.2 hf, Nat.not_le.2 hr]

theorem consumeUnit_of_whole {size : Nat} {v : Byte} (hb : runningStage c .unescape s = some b)
    (hr : s.rp < b.len) (hsize : s.rp + size ≤ b.len) (hw : s.wp < b.cap) :
    consumeUnit c size v s = .next ((s.store b.dst s.wp [v]).advance size 1) := by
  simp [consumeUnit, hb, Nat.not_le.2 hr, Nat.not_lt.2 hsize, Nat.not_le.2 hw]

theorem consumeUnit_of_cut {size : Nat} {v : Byte} (hb : runningStage c .unescape s = some b)
    (hr : s.rp < b.len) (hsize : b.len < s.rp + size) :
    consumeUnit c size v s = .next (s.raise c .malformedEscape) := by
  simp [consumeUnit, hb, Nat.not_le.2 hr, hsize, loneMarker]

/-- The escape scan at the end of its source (R137). -/
theorem escape_end (env : Config.Environment) (hb : runningStage c .escape s = some b)
    (hr : s.rp = b.len) : sequencerStep env c s = escapeFinish c b s := by
  simp [sequencerStep, (runningStage_some.1 hb).2.1, escapeStep, hb, hr]

/-- The escape scan at a byte of its source (R138). -/
theorem escape_byte (env : Config.Environment) (hb : runningStage c .escape s = some b)
    (hr : s.rp < b.len) :
    sequencerStep env c s = emitUnit c (escapeOne (s.readByte env b.src s.rp)) s := by
  simp [sequencerStep, (runningStage_some.1 hb).2.1, escapeStep, hb, hr.ne, Nat.not_lt.2 hr.le,
    inputByte_eq]

/-- The unescape scan at a literal (R158). -/
theorem unescape_literal (env : Config.Environment) (hb : runningStage c .unescape s = some b)
    (hr : s.rp < b.len) (hm : isMarker (s.readByte env b.src s.rp) = false) :
    sequencerStep env c s = consumeUnit c 1 (s.readByte env b.src s.rp) s := by
  simp [sequencerStep, (runningStage_some.1 hb).2.1, unescapeStep, hb, hr.ne, Nat.not_lt.2 hr.le, hm,
    unitLit]

/-- The unescape scan at a pair (R158). -/
theorem unescape_pair (env : Config.Environment) (hb : runningStage c .unescape s = some b)
    (hr : s.rp + 1 < b.len) (hm : isMarker (s.readByte env b.src s.rp) = true) :
    sequencerStep env c s = consumeUnit c 2 (unbiasIn Config.markers (s.readByte env b.src s.rp)
      (s.readByte env b.src (s.rp + 1))) s := by
  have hlt : s.rp < b.len := by omega
  simp [sequencerStep, (runningStage_some.1 hb).2.1, unescapeStep, hb, hlt.ne, Nat.not_lt.2 hlt.le, hm,
    hr.ne, unitPair_eq, unbiasIn, bucket]

end Units

/-! ### The step by the head of the queue -/

section Queue
variable {s : State} {ts : List Turn}

theorem step_of_host {m : HostMove} (h : s.turns = .host m :: ts) :
    step s = hostMove Config.environment m { s with turns := ts } := by
  simp [step, nextMove, h]

theorem step_of_sequencer (h : s.turns = .sequencer :: ts) :
    step s = sequencerMove Config.environment { s with turns := ts } := by
  simp [step, nextMove, h]

theorem step_of_command (h : s.turns = .command :: ts) :
    step s = commandMove { s with turns := ts } := by
  simp [step, nextMove, h]

theorem step_of_empty (h : s.turns = []) : step s = sequencerMove Config.environment s := by
  simp [step, nextMove, h]

theorem sequencerMove_of_not_busy {env : Config.Environment} (h : s.phase ≠ .busy) :
    sequencerMove env s = .next s := if_neg h

/-- With nothing queued a running stage takes its step (R45, R247). -/
theorem step_of_running {c : Command} {st : Stage} {b : Binding} (h : s.turns = [])
    (hc : commandOf s.op = some c) (hb : runningStage c st s = some b) :
    step s = sequencerStep Config.environment c s :=
  (step_of_empty h).trans (sequencerMove_eq (runningStage_some.1 hb).1 hc)

end Queue

/-! ### The command `OP` selects -/

theorem commandOf_code (c : Command) : commandOf c.code = some c := by cases c <;> rfl

theorem commandMove_of_some {c : Command} {s : State} (h : commandOf s.op = some c) :
    commandMove s = runCommand Config.environment c s := by
  simp [commandMove, decodeCommand, h, exec_command]

theorem commandMove_of_none {s : State} (h : commandOf s.op = none) :
    commandMove s = .next (hostStart s) := by
  simp [commandMove, decodeCommand, h]

theorem runCommand_of_busy {env : Config.Environment} {c : Command} {s : State} (h : s.phase = .busy) :
    runCommand env c s = .next s := if_pos h

theorem runCommand_of_not_busy {env : Config.Environment} {c : Command} {s : State}
    (h : s.phase ≠ .busy) :
    runCommand env c s = runToDone env c (stepLimit s) (beginCommand c s) := if_neg h

theorem beginCommand_of_refused {c : Command} {s : State} {code : Status}
    (h : startRefusal c s = some code) : beginCommand c s = s.clearResults.refuse code := by
  simp [beginCommand, h]

theorem beginCommand_of_accepted {c : Command} {s : State} (h : startRefusal c s = none) :
    beginCommand c s = s.clearResults.accept c := by
  simp [beginCommand, h]

theorem hostStart_of_some {c : Command} {s : State} (hb : s.phase ≠ .busy)
    (hc : commandOf s.op = some c) : hostStart s = beginCommand c s := by
  simp [hostStart, hb, hc]

end Sys2Proof.Machine
end

section
/-! SUPPORT. Every command ends within its step bound, from any state (spec 43 R189; 70 R247). -/

namespace Sys2Proof.Machine

section Ends
variable {env : Config.Environment} {c : Command} {b : Binding} {s t : State}

/-- A last step that leaves `BUSY` ends the run, whatever steps are to spare. -/
theorem runToDone_of_last (n : Nat) (hb : s.phase = .busy) (hs : sequencerStep env c s = .next t)
    (ht : t.phase ≠ .busy) : runToDone env c (n + 1) s = .next t :=
  (runToDone_step hb hs).trans (runToDone_idle ht n)

/-- The first byte an escape scan left does not fit. -/
theorem not_fits_of_stopped {room k wp : Nat} {rest : List Byte}
    (hw : wp = fullLen (rest.take k))
    (hstop : k < rest.length → room < fullLen (rest.take (k + 1))) :
    ∀ x xs, rest.drop k = x :: xs → room < wp + (escapeOne x).length := by
  intro x xs hx
  have hk : k < rest.length := by
    by_contra hk
    simp [List.drop_eq_nil_of_le (Nat.not_lt.1 hk)] at hx
  rw [List.drop_eq_getElem_cons hk, List.cons.injEq] at hx
  rw [hw, ← hx.1, ← fullLen_take_succ rest k hk]
  exact hstop hk

/-- An escape scan takes at most one step for each byte of its source and one for its finish. -/
theorem runToDone_escape (hb : runningStage c .escape s = some b) (hcap : 1 ≤ b.cap) (hr : s.rp = 0)
    (hw : s.wp = 0) {n : Nat} (hn : b.len < n) : ∃ t, runToDone env c n s = .next t := by
  obtain ⟨u, k, hk, hrun, hscan, -, hahead, hwp, hroom, -, hstop⟩ :=
    escape_scan env c b _ s hb (ahead_start env b s hr) hcap (by omega)
  have hu := hscan.running hb
  have hlast := escape_last env hu hahead hcap hroom
    (not_fits_of_stopped (by omega) (by simpa [hw] using hstop))
  rw [readBytes_length] at hk
  obtain ⟨m, rfl⟩ : ∃ m, n = k + (m + 1) := ⟨n - k - 1, by omega⟩
  exact ⟨_, (hrun _).trans (runToDone_of_last m (runningStage_some.1 hu).1 hlast (by simp))⟩

theorem decompressed_phase : (decompressed env c b s).phase = .done := by
  unfold decompressed
  split
  · rfl
  · split
    · rfl
    · split
      · rfl
      · rw [stageReturn_decompress]; rfl

theorem runToDone_decompress (hb : runningStage c .decompress s = some b) {n : Nat} (hn : 1 ≤ n) :
    ∃ t, runToDone env c n s = .next t := by
  obtain ⟨m, rfl⟩ : ∃ m, n = m + 1 := ⟨n - 1, by omega⟩
  have hp := (runningStage_some.1 hb).1
  exact ⟨_, runToDone_of_last m hp (decompress_step env hb) (by simp [decompressed_phase])⟩

/-- An unescape scan takes at most one step for each byte of its source and one for its finish; DECODE
then has its decompress stage. -/
theorem runToDone_unescape (hb : runningStage c .unescape s = some b) (hcap : b.len ≤ b.cap)
    (hr : s.rp = 0) (hw : s.wp = 0) {n : Nat} (hn : b.len + 1 < n) :
    ∃ t, runToDone env c n s = .next t := by
  obtain ⟨u, k, y, hk, hrun, hscan, -, -, -, hend⟩ :=
    unescape_scan env c b _ s hb (ahead_start env b s hr) (by omega) hcap
  have hu := hscan.running hb
  obtain ⟨hp, -, hbind⟩ := runningStage_some.1 hu
  rw [readBytes_length] at hk
  obtain ⟨m, rfl⟩ : ∃ m, n = k + (m + 1 + 1) := ⟨n - k - 2, by omega⟩
  rw [hrun]
  rcases hend with ⟨hfin, -⟩ | ⟨hfin, hm, -⟩
  · rw [runToDone_step hp (unescape_last env hu hfin)]
    rcases binding_unescape hbind with ⟨rfl, -⟩ | ⟨rfl, -⟩
    · exact ⟨_, runToDone_idle (by simp [State.stageReturn]) _⟩
    · have hd : runningStage .decode .decompress (u.stageReturn .decode .unescape u.wp) = some _ :=
        runningStage_some.2 ⟨hp, rfl, rfl⟩
      exact runToDone_decompress hd (by omega)
  · exact ⟨_, runToDone_of_last _ hp (unescape_lone env hu hfin hm) (by simp)⟩

/-- A running compress stage either leaves `BUSY` or hands ENCODE over to its escape stage. -/
theorem compressed_phase (hb : runningStage c .compress s = some b) :
    (compressed env c b s).phase = .done ∨ c = .encode ∧ (compressed env c b s).phase = .busy
      ∧ (compressed env c b s).stage = .escape ∧ (compressed env c b s).rp = 0
      ∧ (compressed env c b s).wp = 0 ∧ (compressed env c b s).midLen ≤ s.midCap
      ∧ (compressed env c b s).dstCap = s.dstCap := by
  obtain ⟨hp, -, hbind⟩ := runningStage_some.1 hb
  unfold compressed
  simp only
  split
  · exact .inl rfl
  · split
    · exact .inl rfl
    · next hlen =>
      split
      · exact .inl rfl
      · rcases binding_compress hbind with ⟨rfl, rfl⟩ | ⟨rfl, rfl⟩
        · exact .inl rfl
        · refine .inr ⟨rfl, ?_⟩
          simp only [State.srcToMid, Nat.not_lt] at hlen
          simp [State.stageReturn, hp, hlen, State.srcToMid]

theorem runToDone_compress (hb : runningStage c .compress s = some b) (hcap : c = .encode → 1 ≤ s.dstCap)
    {n : Nat} (hn : s.midCap + 1 < n) : ∃ t, runToDone env c n s = .next t := by
  obtain ⟨m, rfl⟩ : ∃ m, n = m + 1 := ⟨n - 1, by omega⟩
  rw [runToDone_step (runningStage_some.1 hb).1 (compress_step env hb)]
  rcases compressed_phase (env := env) hb with hd | ⟨rfl, hp, hst, hr, hw, hlen, hdst⟩
  · exact ⟨_, runToDone_idle (by simp [hd]) m⟩
  · refine runToDone_escape (runningStage_some.2 ⟨hp, hst, rfl⟩) ?_ hr hw ?_
    · simpa [State.midToDst, hdst] using hcap rfl
    · simp only [State.midToDst]; omega

theorem runningStage_accept (h : binding c (firstStage c) s.clearResults = some b) :
    runningStage c (firstStage c) (s.clearResults.accept c) = some b :=
  runningStage_some.2 ⟨rfl, rfl, h⟩

/-- Every command ends, in any state (R247). -/
theorem runCommand_ends (env : Config.Environment) (c : Command) (s : State) :
    ∃ t, runCommand env c s = .next t := by
  by_cases hp : s.phase = .busy
  · exact ⟨s, runCommand_of_busy hp⟩
  rw [runCommand_of_not_busy hp]
  cases hstart : startRefusal c s with
  | some code =>
    rw [beginCommand_of_refused hstart]
    exact ⟨_, runToDone_idle (by simp) _⟩
  | none =>
    rw [beginCommand_of_accepted hstart, stepLimit]
    have hi := stageInv_accept hstart
    cases c with
    | compress => exact runToDone_compress (c := .compress) (runningStage_accept rfl) nofun (by simp)
    | decompress => exact runToDone_decompress (runningStage_accept rfl) (by omega)
    | escape =>
      exact runToDone_escape (runningStage_accept rfl) ((stageInv_escape rfl rfl).1 hi).1 rfl rfl
        (by simp [State.srcToDst]; omega)
    | unescape =>
      exact runToDone_unescape (runningStage_accept rfl) ((stageInv_unescape rfl rfl).1 hi).1 rfl rfl
        (by simp [State.srcToDst])
    | encode =>
      exact runToDone_compress (runningStage_accept rfl) ((stageInv_compress rfl).1 hi).2.1
        (by simp)
    | decode =>
      exact runToDone_unescape (runningStage_accept rfl) ((stageInv_unescape rfl rfl).1 hi).1 rfl rfl
        (by simp [State.srcToMid])

end Ends

end Sys2Proof.Machine
end

section
/-! SUPPORT. From a state that meets the invariant a step never stops (spec 10 R45; 20 R67). -/

namespace Sys2Proof.Machine

section Progress
variable {aw : Nat} {env : Config.Environment} {c : Command} {s : State}

/-- The stage a command runs is one of its own (R45). -/
theorem StageInv.runningStage (hi : StageInv c s) (hp : s.phase = .busy) :
    ∃ b, Machine.runningStage c s.stage s = some b := by
  suffices h : ∃ b, binding c s.stage s = some b from
    h.imp fun b hbind => runningStage_some.2 ⟨hp, rfl, hbind⟩
  unfold StageInv at hi
  split at hi
  · exact hi.elim
  · next hst =>
    rcases hi.1 with rfl | rfl <;> exact ⟨_, by rw [hst]; rfl⟩
  · next hst => rw [hst]; exact hi.imp fun _ h => h.1
  · next hst => rw [hst]; exact hi.imp fun _ h => h.1
  · next hst =>
    rcases hi with ⟨rfl, -⟩ | ⟨rfl, -⟩ <;> exact ⟨_, by rw [hst]; rfl⟩

theorem escape_progress {b : Binding} (hb : runningStage c .escape s = some b) (hi : StageInv c s) :
    ∃ t, sequencerStep env c s = .next t := by
  obtain ⟨-, hst, hbind⟩ := runningStage_some.1 hb
  obtain ⟨hcap, hr, hw, -⟩ := (stageInv_escape hst hbind).1 hi
  have hroom : s.wp < b.cap := by omega
  rcases hr.eq_or_lt with hr | hr
  · exact ⟨_, (escape_end env hb hr).trans (escapeFinish_of_lt hroom)⟩
  · rw [escape_byte env hb hr]
    by_cases hf : s.wp + (escapeOne (s.readByte env b.src s.rp)).length ≤ b.cap - 1
    · exact ⟨_, emitUnit_of_fits hb hr hf⟩
    · exact ⟨_, (emitUnit_of_not_fits hb hr (Nat.not_le.1 hf)).trans (escapeFinish_of_lt hroom)⟩

theorem unescape_progress {b : Binding} (hb : runningStage c .unescape s = some b)
    (hi : StageInv c s) : ∃ t, sequencerStep env c s = .next t := by
  obtain ⟨-, hst, hbind⟩ := runningStage_some.1 hb
  obtain ⟨hcap, hr, hw, -⟩ := (stageInv_unescape hst hbind).1 hi
  rcases hr.eq_or_lt with hr | hr
  · exact ⟨_, unescape_last env hb hr⟩
  have hroom : s.wp < b.cap := by omega
  cases hm : isMarker (s.readByte env b.src s.rp) with
  | false => exact ⟨_, (unescape_literal env hb hr hm).trans (consumeUnit_of_whole hb hr hr hroom)⟩
  | true =>
    rcases Nat.eq_or_lt_of_le hr with hlast | hpair
    · exact ⟨_, unescape_lone env hb hlast hm⟩
    · exact ⟨_, (unescape_pair env hb hpair hm).trans (consumeUnit_of_whole hb hr hpair hroom)⟩

theorem sequencerStep_progress (hp : s.phase = .busy) (hi : StageInv c s) :
    ∃ t, sequencerStep env c s = .next t := by
  obtain ⟨b, hb⟩ := hi.runningStage hp
  cases hst : s.stage with
  | none => exact absurd hst (stage_ne_none_of_stageInv hi)
  | compress => exact ⟨_, compress_step env (hst ▸ hb)⟩
  | escape => exact escape_progress (hst ▸ hb) hi
  | unescape => exact unescape_progress (hst ▸ hb) hi
  | decompress => exact ⟨_, decompress_step env (hst ▸ hb)⟩

theorem sequencerMove_progress (h : s.Inv aw) : ∃ t, sequencerMove env s = .next t := by
  by_cases hp : s.phase = .busy
  · obtain ⟨-, -, -, c, hc, hi⟩ := h.busy_stage hp
    rw [sequencerMove_eq hp hc]
    exact sequencerStep_progress hp hi
  · exact ⟨s, sequencerMove_of_not_busy hp⟩

/-- A command move runs a command or refuses a reserved code; either ends, in any state. -/
theorem commandMove_progress (s : State) : ∃ t, commandMove s = .next t := by
  cases hc : commandOf s.op with
  | none => exact ⟨_, commandMove_of_none hc⟩
  | some c => exact commandMove_of_some hc ▸ runCommand_ends ..

end Progress

/-- Settles O11, by whose turn it is: a running stage has its next step by the cursor bounds of the
invariant, a whole command ends by the bounds of its scans, and of the host's moves only a buffer
access is ever refused. -/
theorem stepNeverStops : Obligations.StepNeverStops := by
  intro s h hmove
  cases hts : s.turns with
  | nil => exact step_of_empty hts ▸ sequencerMove_progress h
  | cons turn ts =>
    cases turn with
    | sequencer => exact step_of_sequencer hts ▸ sequencerMove_progress (h.setHost s.draws ts s.reply)
    | command => exact step_of_command hts ▸ commandMove_progress _
    | host m =>
      rw [step_of_host hts]
      cases m with
      | writeReg r => exact ⟨_, rfl⟩
      | readReg r => exact ⟨_, rfl⟩
      | start => exact ⟨_, rfl⟩
      | reset => exact ⟨_, rfl⟩
      | writeSrc i v =>
        have hp : s.phase ≠ .busy := fun hp => hmove ⟨hp, by simp [nextIsBufferMove, hts]⟩
        exact ⟨_, if_neg hp⟩
      | readBuf b i =>
        have hp : s.phase ≠ .busy := fun hp => hmove ⟨hp, by simp [nextIsBufferMove, hts]⟩
        exact ⟨_, if_neg hp⟩

end Sys2Proof.Machine
end

section
/-! SUPPORT. What no move of the block changes: the operands, `SRC`, and the bytes at
and above the capacities (spec 10 R21 to R24; 20 R67, R73). -/

namespace Sys2Proof.Machine

/-- What every move of the block leaves unchanged. -/
structure BlockFrame (s t : State) : Prop where
  operands : SameOperands s t
  src : t.src = s.src
  bytes : BytesKept s t fun sp i => sp = .dst ∧ i < s.dstCap ∨ sp = .mid ∧ i < s.midCap

section BlockFrame
variable {env : Config.Environment} {c : Command} {s t u : State}

theorem BlockFrame.refl (s : State) : BlockFrame s s :=
  ⟨⟨rfl, rfl, rfl, rfl⟩, rfl, fun _ _ _ _ => rfl⟩

theorem BlockFrame.trans (h1 : BlockFrame s t) (h2 : BlockFrame t u) : BlockFrame s u := by
  obtain ⟨⟨hop, hsrc, hdst, hmid⟩, hbuf, hbytes⟩ := h1
  obtain ⟨⟨hop', hsrc', hdst', hmid'⟩, hbuf', hbytes'⟩ := h2
  rw [hdst, hmid] at hbytes'
  exact ⟨⟨hop'.trans hop, hsrc'.trans hsrc, hdst'.trans hdst, hmid'.trans hmid⟩,
    hbuf'.trans hbuf,
    fun env sp i hi => (hbytes' env sp i hi).trans (hbytes env sp i hi)⟩

/-- A stage writes within the capacity of the space it writes, which is never `SRC` (R170). -/
theorem Frame.blockFrame {st : Stage} {b : Binding} (h : Frame b.dst 0 b.cap s t)
    (hb : Machine.binding c st s = some b) : BlockFrame s t := by
  refine ⟨h.operands, h.src, fun env sp i hi => h.bytes env sp i ?_⟩
  rintro ⟨rfl, -, hcap⟩
  rcases (binding_spaces hb).2.2 with ⟨hdst, hc⟩ | ⟨hmid, hc⟩
  · exact hi (.inl ⟨hdst, hc ▸ hcap⟩)
  · exact hi (.inr ⟨hmid, hc ▸ hcap⟩)

theorem sequencerStep_blockFrame (hs : sequencerStep env c s = .next t) : BlockFrame s t := by
  obtain ⟨b, hb, hframe⟩ := sequencerStep_frame hs
  exact hframe.blockFrame (runningStage_some.1 hb).2.2

theorem sequencerMove_blockFrame (hs : sequencerMove env s = .next t) : BlockFrame s t := by
  by_cases hp : s.phase = .busy
  · cases hc : commandOf s.op with
    | none => simp [sequencerMove, hp, fetchUnit, hc] at hs
    | some c => exact sequencerStep_blockFrame ((sequencerMove_eq hp hc).symm.trans hs)
  · cases (sequencerMove_of_not_busy hp).symm.trans hs
    exact .refl s

theorem refused_blockFrame (s : State) (code : Status) : BlockFrame s (s.clearResults.refuse code) :=
  ⟨⟨rfl, rfl, rfl, rfl⟩, rfl, fun _ _ _ _ => rfl⟩

theorem beginCommand_blockFrame (c : Command) (s : State) : BlockFrame s (beginCommand c s) := by
  unfold beginCommand
  split
  · exact refused_blockFrame ..
  · exact ⟨⟨rfl, rfl, rfl, rfl⟩, rfl, fun _ _ _ _ => rfl⟩

theorem hostStart_blockFrame (s : State) : BlockFrame s (hostStart s) := by
  unfold hostStart
  split
  · exact .refl s
  · split
    · exact beginCommand_blockFrame ..
    · exact refused_blockFrame ..

theorem runCommand_blockFrame (hs : runCommand env c s = .next t) : BlockFrame s t := by
  by_cases hp : s.phase = .busy
  · cases (runCommand_of_busy hp).symm.trans hs
    exact .refl s
  · rw [runCommand_of_not_busy hp] at hs
    exact (runToDone_induct (P := BlockFrame s) (fun _ _ _ h hv => h.trans (sequencerStep_blockFrame hv))
      (beginCommand_blockFrame c s) hs).1

theorem commandMove_blockFrame (hs : commandMove s = .next t) : BlockFrame s t := by
  cases hc : commandOf s.op with
  | none =>
    cases (commandMove_of_none hc).symm.trans hs
    exact hostStart_blockFrame s
  | some c => exact runCommand_blockFrame ((commandMove_of_some hc).symm.trans hs)

/-- Every move of the block keeps the frame; the queue is no part of it, so the turn taken off the queue
does not matter. -/
theorem step_blockFrame (hm : nextIsHostMove s = false) (hs : step s = .next t) : BlockFrame s t := by
  cases hts : s.turns with
  | nil => exact sequencerMove_blockFrame ((step_of_empty hts).symm.trans hs)
  | cons turn ts =>
    cases turn with
    | host m => simp [nextIsHostMove, hts] at hm
    | sequencer =>
      obtain ⟨hop, hsrc, hbytes⟩ := sequencerMove_blockFrame ((step_of_sequencer hts).symm.trans hs)
      exact ⟨hop, hsrc, hbytes⟩
    | command =>
      obtain ⟨hop, hsrc, hbytes⟩ := commandMove_blockFrame ((step_of_command hts).symm.trans hs)
      exact ⟨hop, hsrc, hbytes⟩

end BlockFrame

/-- Settles O37: the operands are part of what every move of the block keeps. -/
theorem blockKeepsOperands : Obligations.BlockKeepsOperands :=
  fun _ _ hm hs => (step_blockFrame hm hs).operands

end Sys2Proof.Machine
end

section
/-! SUPPORT. The last steps of the two scans (spec 41 R137; 42 R157, R159; 43 R172), and a whole command as
START and the machine's own steps (43 R189). -/

namespace Sys2Proof.Machine

open Sys2Proof.Claims

/-- The terminator and completion are all that the escape scan's finish does (R43, R137). -/
theorem scanFinished_complete (b : Binding) (s : State) :
    ScanFinished b s ((s.store b.dst s.wp [Config.term]).complete s.wp) := by
  have hread env sp i : ((s.store b.dst s.wp [Config.term]).complete s.wp).readByte env sp i
      = (s.store b.dst s.wp [Config.term]).readByte env sp i :=
    State.readByte_congr env sp i (State.complete_buffer ..)
  refine ⟨rfl, ⟨rfl, rfl⟩, by simp, by simp, rfl, by simp, fun env => ?_, fun env sp i hi => ?_,
    by simp [SameOperands], by simp [SameHost], by simp⟩
  · rw [hread, readByte_store]
    simp [Config.term]
  · rw [hread, readByte_store_off]
    simpa [Nat.lt_succ_iff, Nat.le_antisymm_iff, and_comm] using hi

/-- Settles O16: the scan's finish, at a `WP` inside the capacity. -/
theorem escapeScanFinishes : Obligations.EscapeScanFinishes := by
  intro s c b hturns hc hb hr hw
  refine ⟨_, ?_, ?_, scanFinished_complete b s⟩
  · rw [step_of_running hturns hc hb, escape_end _ hb hr, escapeFinish_of_lt hw]
  · simp

/-- Settles O17: the scan's finish is the return of the unescape stage, which touches no buffer. -/
theorem unescapeScanFinishes : Obligations.UnescapeScanFinishes := by
  intro s c b hturns hc hb hr
  obtain ⟨hp, -, hbind⟩ := runningStage_some.1 hb
  refine ⟨s.stageReturn c .unescape s.wp, ?_, fun env sp i _ => ?_, ?_⟩
  · rw [step_of_running hturns hc hb, unescape_last _ hb hr]
  · exact State.readByte_congr env sp i (State.stageReturn_buffer ..)
  · rcases binding_unescape hbind with ⟨rfl, -⟩ | ⟨rfl, -⟩ <;>
      simp [State.stageReturn, SameOperands, SameHost, Completed, hp]

theorem beginCommand_turns (c : Command) (s : State) : (beginCommand c s).turns = s.turns := by
  unfold beginCommand; split <;> rfl

/-- Settles O33: the command ends within its bound, and a run that ends is a run of the machine. -/
theorem bigStepIsUnitSteps : Obligations.BigStepIsUnitSteps := by
  intro c s hp hop hturns
  have hc : commandOf s.op = some c := hop ▸ commandOf_code c
  obtain ⟨t, ht⟩ := runCommand_ends Config.environment c s
  rw [exec_command, ht, hostStart_of_some hp hc]
  rw [runCommand_of_not_busy hp] at ht
  exact (core_run_of_runToDone (by rw [beginCommand_turns, hturns]) (by rw [beginCommand_op, hc]) ht).symm

end Sys2Proof.Machine
end

section
/-! SUPPORT. Nothing an earlier command left influences a command (spec 10 R41; 43 R176; 60 R214; 70 R239): two
runs of a command from states that differ in `MID` and `DST` stay equal in all else, and in the bytes the
command has written. -/

namespace Sys2Proof.Machine

/-! ### States that differ in the contents of `MID` and `DST` -/

/-- The state with other contents of `MID` and `DST`. -/
def State.withBuffers (s : State) (mid dst : Buffer) : State := { s with mid := mid, dst := dst }

/-- The states are equal but for the contents of `MID` and `DST`. -/
def Alike (s s' : State) : Prop := ∃ mid dst, s' = s.withBuffers mid dst

section Alike
variable {s s' : State}

theorem Alike.drawn (h : Alike s s') : Alike s.drawn s'.drawn := by
  obtain ⟨_, _, rfl⟩ := h; exact ⟨_, _, rfl⟩

theorem Alike.truncated (h : Alike s s') : Alike s.truncated s'.truncated := by
  obtain ⟨_, _, rfl⟩ := h; exact ⟨_, _, rfl⟩

theorem Alike.advance (h : Alike s s') (r w : Nat) : Alike (s.advance r w) (s'.advance r w) := by
  obtain ⟨_, _, rfl⟩ := h; exact ⟨_, _, rfl⟩

theorem Alike.complete (h : Alike s s') (n : Nat) : Alike (s.complete n) (s'.complete n) := by
  obtain ⟨_, _, rfl⟩ := h; exact ⟨_, _, rfl⟩

theorem Alike.raise (h : Alike s s') (c : Command) (code : Status) :
    Alike (s.raise c code) (s'.raise c code) := by
  obtain ⟨_, _, rfl⟩ := h; exact ⟨_, _, rfl⟩

theorem Alike.stageReturn (h : Alike s s') (c : Command) (st : Stage) (n : Nat) :
    Alike (s.stageReturn c st n) (s'.stageReturn c st n) := by
  obtain ⟨_, _, rfl⟩ := h; cases c <;> cases st <;> exact ⟨_, _, rfl⟩

theorem Alike.store (h : Alike s s') (sp : Space) (i : Nat) (bs : List Byte) :
    Alike (s.store sp i bs) (s'.store sp i bs) := by
  obtain ⟨_, _, rfl⟩ := h; cases sp <;> exact ⟨_, _, rfl⟩

theorem Alike.havoc (h : Alike s s') (sp : Space) (lo hi draw : Nat) :
    Alike (s.havoc sp lo hi draw) (s'.havoc sp lo hi draw) := by
  obtain ⟨_, _, rfl⟩ := h; cases sp <;> exact ⟨_, _, rfl⟩

theorem Alike.phase (h : Alike s s') : s'.phase = s.phase := by obtain ⟨_, _, rfl⟩ := h; rfl
theorem Alike.rp (h : Alike s s') : s'.rp = s.rp := by obtain ⟨_, _, rfl⟩ := h; rfl
theorem Alike.wp (h : Alike s s') : s'.wp = s.wp := by obtain ⟨_, _, rfl⟩ := h; rfl
theorem Alike.draws (h : Alike s s') : s'.draws = s.draws := by obtain ⟨_, _, rfl⟩ := h; rfl

theorem Alike.runningStage (h : Alike s s') (c : Command) (st : Stage) :
    Machine.runningStage c st s' = Machine.runningStage c st s := by
  obtain ⟨_, _, rfl⟩ := h; cases c <;> cases st <;> rfl

end Alike

/-- Both states read the same in `sp[0..n)`. -/
def Agree (s s' : State) (sp : Space) (n : Nat) : Prop :=
  ∀ env i, i < n → s'.readByte env sp i = s.readByte env sp i

section Agree
variable {s s' : State} {sp : Space} {n : Nat}

theorem Agree.zero (s s' : State) (sp : Space) : Agree s s' sp 0 :=
  fun _ i hi => absurd hi (Nat.not_lt_zero i)

theorem Agree.readBytes (h : Agree s s' sp n) (env : Config.Environment) :
    s'.readBytes env sp n = s.readBytes env sp n :=
  List.map_congr_left fun i hi => h env i (List.mem_range.1 hi)

@[simp] theorem agree_advance (r w r' w' : Nat) :
    Agree (s.advance r w) (s'.advance r' w') sp n ↔ Agree s s' sp n := Iff.rfl

@[simp] theorem agree_complete (m m' : Nat) :
    Agree (s.complete m) (s'.complete m') sp n ↔ Agree s s' sp n := Iff.rfl

theorem Agree.store (h : Agree s s' sp n) (sp' : Space) (i : Nat) (bs : List Byte) :
    Agree (s.store sp' i bs) (s'.store sp' i bs) sp n := by
  intro env j hj
  rw [readByte_store, readByte_store, h env j hj]

/-- Storing the same bytes where the agreement ends extends it over them. -/
theorem Agree.store_append (h : Agree s s' sp n) (bs : List Byte) :
    Agree (s.store sp n bs) (s'.store sp n bs) sp (n + bs.length) := by
  intro env j hj
  rw [readByte_store, readByte_store]
  by_cases hn : n ≤ j
  · simp [hn, hj]
  · simp [hn, h env j (Nat.not_le.1 hn)]

theorem Agree.havoc (h : Agree s s' sp n) (sp' : Space) (lo hi draw : Nat) :
    Agree (s.havoc sp' lo hi draw) (s'.havoc sp' lo hi draw) sp n := by
  intro env j hj
  rw [readByte_havoc, readByte_havoc, h env j hj]

/-- A delivery is read the same whatever the buffers held. -/
theorem Agree.delivered (s s' : State) (b : Binding) (out : List Byte) (draw : Nat) :
    Agree (s.deliver b out draw) (s'.deliver b out draw) b.dst out.length := by
  have h := ((Agree.zero s s' b.dst).store_append out).havoc b.dst out.length b.cap draw
  rwa [Nat.zero_add] at h

end Agree

/-! ### Two runs of a command side by side -/

/-- The space a running scan writes (R170). -/
def scanTarget : Command → Stage → Option Space
  | .escape, .escape => some .dst
  | .encode, .escape => some .dst
  | .unescape, .unescape => some .dst
  | .decode, .unescape => some .mid
  | _, _ => none

/-- A stage reads `SRC`, or what the command's first stage left in `MID` (R170). -/
theorem binding_source {c : Command} {st : Stage} {s : State} {b : Binding}
    (h : binding c st s = some b) : b.src = .src ∨ b.src = .mid ∧ b.len = s.midLen := by
  cases c <;> cases st <;> simp only [binding, Option.some.injEq, reduceCtorEq] at h <;> subst h <;>
    simp [State.srcToDst, State.srcToMid, State.midToDst]

theorem scanTarget_of_binding {c : Command} {st : Stage} {s : State} {b : Binding}
    (h : binding c st s = some b) (hst : st = .escape ∨ st = .unescape) :
    scanTarget c st = some b.dst := by
  rcases hst with rfl | rfl
  · rcases binding_escape h with ⟨rfl, rfl⟩ | ⟨rfl, rfl⟩ <;> rfl
  · rcases binding_unescape h with ⟨rfl, rfl⟩ | ⟨rfl, rfl⟩ <;> rfl

/-- Two runs of a command after the same steps: equal but for the contents of `MID` and `DST`, which agree
in `MID[0..MID_LEN)`, in `DST[0..LEN)` and in what a running scan has written. -/
structure Twins (c : Command) (s s' : State) : Prop where
  alike : Alike s s'
  mid : Agree s s' .mid s.midLen
  dst : Agree s s' .dst s.len
  scan : ∀ sp, scanTarget c s.stage = some sp → Agree s s' sp s.wp

section Twins
variable {env : Config.Environment} {c : Command} {st : Stage} {b : Binding} {s s' t : State}

theorem scanTarget_none (c : Command) : scanTarget c .none = none := by cases c <;> rfl

/-- Where no stage runs the scan's clause asks nothing. -/
theorem Twins.of_stage_none (halike : Alike s s') (hmid : Agree s s' .mid s.midLen)
    (hdst : Agree s s' .dst s.len) (hst : s.stage = .none) : Twins c s s' :=
  ⟨halike, hmid, hdst, fun sp hsp => by simp [hst, scanTarget_none] at hsp⟩

theorem Twins.drawn (h : Twins c s s') : Twins c s.drawn s'.drawn :=
  ⟨h.alike.drawn, h.mid, h.dst, h.scan⟩

theorem Twins.store (h : Twins c s s') (sp : Space) (i : Nat) (bs : List Byte) :
    Twins c (s.store sp i bs) (s'.store sp i bs) where
  alike := h.alike.store ..
  mid := by simpa using h.mid.store sp i bs
  dst := by simpa using h.dst.store sp i bs
  scan sp' hsp := by simpa using (h.scan sp' (by simpa using hsp)).store sp i bs

theorem Twins.havoc (h : Twins c s s') (sp : Space) (lo hi draw : Nat) :
    Twins c (s.havoc sp lo hi draw) (s'.havoc sp lo hi draw) where
  alike := h.alike.havoc ..
  mid := by simpa using h.mid.havoc sp lo hi draw
  dst := by simpa using h.dst.havoc sp lo hi draw
  scan sp' hsp := by simpa using (h.scan sp' (by simpa using hsp)).havoc sp lo hi draw

theorem Twins.deliver (h : Twins c s s') (b : Binding) (out : List Byte) (draw : Nat) :
    Twins c (s.deliver b out draw) (s'.deliver b out draw) :=
  (h.store ..).havoc ..

/-- What a running escape scan has written lies in `DST` (R170). -/
theorem Twins.escaped (h : Twins c s s') (hb : runningStage c .escape s = some b) :
    Agree s s' .dst s.wp := by
  obtain ⟨-, hst, hbind⟩ := runningStage_some.1 hb
  rcases binding_escape hbind with ⟨rfl, -⟩ | ⟨rfl, -⟩ <;> exact h.scan .dst (by rw [hst]; rfl)

theorem Twins.readByte (h : Twins c s s') (hb : runningStage c st s = some b) {i : Nat}
    (hi : i < b.len) (env : Config.Environment) :
    s'.readByte env b.src i = s.readByte env b.src i := by
  rcases binding_source (runningStage_some.1 hb).2.2 with hsrc | ⟨hmid, hlen⟩
  · obtain ⟨_, _, rfl⟩ := h.alike
    rw [hsrc]; rfl
  · rw [hmid]
    exact h.mid env i (hlen ▸ hi)

theorem Twins.readBytes (h : Twins c s s') (hb : runningStage c st s = some b)
    (env : Config.Environment) : s'.readBytes env b.src b.len = s.readBytes env b.src b.len :=
  List.map_congr_left fun _ hi => h.readByte hb (List.mem_range.1 hi) env

/-- An error keeps what a lone marker leaves: the bytes the scan has written (R206, R210). -/
theorem Twins.raise (h : Twins c s s') {code : Status}
    (hcode : code = .malformedEscape → s.stage = .unescape) :
    Twins c (s.raise c code) (s'.raise c code) := by
  refine .of_stage_none (h.alike.raise c code) ?_ ?_ rfl
  · rw [State.raise_midLen]
    split
    · next hm => obtain ⟨hm, rfl⟩ := hm; exact h.scan .mid (by rw [hcode hm]; rfl)
    · exact h.mid
  · rw [State.raise_len]
    split
    · next hm => obtain ⟨hm, rfl⟩ := hm; exact h.scan .dst (by rw [hcode hm]; rfl)
    · exact .zero _ _ _

/-- A scan writes the same bytes after those it has written (R132 to R135, R151 to R155). -/
theorem Twins.written (h : Twins c s s') (hsp : scanTarget c s.stage = some b.dst) (bs : List Byte)
    (r : Nat) : Twins c ((s.store b.dst s.wp bs).advance r bs.length)
      ((s'.store b.dst s.wp bs).advance r bs.length) where
  alike := (h.alike.store ..).advance ..
  mid := by simpa using (h.store b.dst s.wp bs).mid
  dst := by simpa using (h.store b.dst s.wp bs).dst
  scan sp hsp' := by
    simp only [State.advance_stage, State.store_stage, hsp, Option.some.injEq] at hsp'
    subst hsp'
    simpa using (h.scan _ hsp).store_append bs

/-! ### The same step of both runs -/

/-- The finish of the escape scan delivers what the scan has written (R137). -/
theorem escapeFinish_twins (halike : Alike s s')
    (hmid : Agree s s' .mid s.midLen) (hw : Agree s s' .dst s.wp)
    (hs : escapeFinish c b s = .next t) : ∃ t', escapeFinish c b s' = .next t' ∧ Twins c t t' := by
  obtain ⟨hroom, rfl⟩ := escapeFinish_next hs
  rw [stageReturn_escape]
  refine ⟨(s'.store b.dst s.wp [Config.term]).complete s.wp, ?_,
    .of_stage_none ((halike.store ..).complete ..) (by simpa using hmid.store b.dst s.wp [Config.term])
      (by simpa using hw.store b.dst s.wp [Config.term]) rfl⟩
  obtain ⟨_, _, rfl⟩ := halike
  exact escapeFinish_of_lt hroom

theorem emitUnit_twins (h : Twins c s s') {out : List Byte} (hs : emitUnit c out s = .next t) :
    ∃ t', emitUnit c out s' = .next t' ∧ Twins c t t' := by
  obtain ⟨b, hb, hr, hcase⟩ := emitUnit_next hs
  obtain ⟨-, hst, hbind⟩ := runningStage_some.1 hb
  have hsp : scanTarget c s.stage = some b.dst := hst ▸ scanTarget_of_binding hbind (.inl rfl)
  have hb' := (h.alike.runningStage c .escape).trans hb
  rcases hcase with ⟨hf, rfl⟩ | ⟨hf, hfin⟩
  · refine ⟨_, ?_, h.written hsp out 1⟩
    obtain ⟨_, _, rfl⟩ := h.alike
    exact emitUnit_of_fits hb' hr hf
  · have hfin' := escapeFinish_twins (s := s.truncated) h.alike.truncated h.mid (h.escaped hb) hfin
    obtain ⟨_, _, rfl⟩ := h.alike
    rwa [emitUnit_of_not_fits hb' hr hf]

theorem consumeUnit_twins (h : Twins c s s') {size : Nat} {v : Byte}
    (hs : consumeUnit c size v s = .next t) :
    ∃ t', consumeUnit c size v s' = .next t' ∧ Twins c t t' := by
  obtain ⟨b, hb, hr, hcase⟩ := consumeUnit_next hs
  obtain ⟨-, hst, hbind⟩ := runningStage_some.1 hb
  have hsp : scanTarget c s.stage = some b.dst := hst ▸ scanTarget_of_binding hbind (.inr rfl)
  have hb' := (h.alike.runningStage c .unescape).trans hb
  rcases hcase with ⟨hsize, rfl⟩ | ⟨hsize, hroom, rfl⟩
  · refine ⟨_, ?_, h.raise fun _ => hst⟩
    obtain ⟨_, _, rfl⟩ := h.alike
    exact consumeUnit_of_cut hb' hr hsize
  · refine ⟨_, ?_, h.written hsp [v] size⟩
    obtain ⟨_, _, rfl⟩ := h.alike
    exact consumeUnit_of_whole hb' hr hsize hroom

/-- The finish of the unescape scan delivers what the scan has written (R159, R172). -/
theorem Twins.unescapeFinish (h : Twins c s s') (hb : runningStage c .unescape s = some b) :
    Twins c (s.stageReturn c .unescape s.wp) (s'.stageReturn c .unescape s.wp) := by
  obtain ⟨-, hst, hbind⟩ := runningStage_some.1 hb
  have halike := h.alike.stageReturn c .unescape s.wp
  rcases binding_unescape hbind with ⟨rfl, -⟩ | ⟨rfl, -⟩
  · exact .of_stage_none halike h.mid (h.scan .dst (by rw [hst]; rfl)) rfl
  · exact ⟨halike, h.scan .mid (by rw [hst]; rfl), h.dst, nofun⟩

/-- The return of a compress stage hands over what it delivered, to the host or to the escape stage
(R117, R171). -/
theorem Twins.compressReturn (h : Twins c s s') (hb : runningStage c .compress s = some b)
    (out : List Byte) (draw : Nat) :
    Twins c ((s.drawn.deliver b out draw).stageReturn c .compress out.length)
      ((s'.drawn.deliver b out draw).stageReturn c .compress out.length) := by
  have hd := h.drawn.deliver b out draw
  have halike := hd.alike.stageReturn c .compress out.length
  have hout := Agree.delivered s.drawn s'.drawn b out draw
  rcases binding_compress (runningStage_some.1 hb).2.2 with ⟨rfl, rfl⟩ | ⟨rfl, rfl⟩
  · exact .of_stage_none halike hd.mid hout rfl
  · exact ⟨halike, hout, hd.dst, fun _ _ => .zero _ _ _⟩

/-- The return of a decompress stage hands what it delivered to the host (R118, R172). -/
theorem Twins.decompressReturn (h : Twins c s s') (hb : runningStage c .decompress s = some b)
    (out : List Byte) (draw : Nat) :
    Twins c ((s.drawn.deliver b out draw).stageReturn c .decompress out.length)
      ((s'.drawn.deliver b out draw).stageReturn c .decompress out.length) := by
  have hd := h.drawn.deliver b out draw
  have halike := hd.alike.stageReturn c .decompress out.length
  have hout := Agree.delivered s.drawn s'.drawn b out draw
  rcases binding_decompress (runningStage_some.1 hb).2.2 with ⟨rfl, rfl⟩ | ⟨rfl, rfl⟩ <;>
    exact .of_stage_none halike hd.mid hout rfl

/-- The bytes an engine stage delivers are the same in both runs (R115, R119). -/
theorem Twins.compressed (h : Twins c s s') (hb : runningStage c .compress s = some b) :
    Twins c (compressed env c b s) (compressed env c b s') := by
  have hread := h.readBytes hb env
  unfold Machine.compressed
  simp only [hread, h.alike.draws]
  split
  · exact h.drawn.raise nofun
  · split
    · exact (h.drawn.havoc ..).raise nofun
    · split
      · exact (h.drawn.havoc ..).raise nofun
      · exact h.compressReturn hb ..

/-- The bytes an engine stage delivers are the same in both runs (R116, R119). -/
theorem Twins.decompressed (h : Twins c s s') (hb : runningStage c .decompress s = some b) :
    Twins c (decompressed env c b s) (decompressed env c b s') := by
  have hread := h.readBytes hb env
  have hfail := (h.drawn.havoc b.dst 0 b.cap s.draws).raise (code := .decTruncated) nofun
  unfold Machine.decompressed
  simp only [hread, h.alike.draws]
  split
  · exact h.drawn.raise nofun
  · split
    · exact hfail
    · split
      · exact hfail
      · exact h.decompressReturn hb ..

theorem escapeStep_twins (h : Twins c s s') (hs : escapeStep env c s = .next t) :
    ∃ t', sequencerStep env c s' = .next t' ∧ Twins c t t' := by
  obtain ⟨b, hb, hcase⟩ := escapeStep_next hs
  have hb' := (h.alike.runningStage c .escape).trans hb
  rcases hcase with ⟨hr, hfin⟩ | ⟨hr, hunit⟩
  · rw [escape_end env hb' (h.alike.rp.trans hr)]
    exact escapeFinish_twins h.alike h.mid (h.escaped hb) hfin
  · rw [← h.readByte hb hr, ← h.alike.rp] at hunit
    rw [escape_byte env hb' (h.alike.rp.trans_lt hr)]
    exact emitUnit_twins h hunit

theorem unescapeStep_twins (h : Twins c s s') (hs : unescapeStep env c s = .next t) :
    ∃ t', sequencerStep env c s' = .next t' ∧ Twins c t t' := by
  obtain ⟨b, hb, hcase⟩ := unescapeStep_next hs
  have hb' := (h.alike.runningStage c .unescape).trans hb
  have hrp := h.alike.rp
  rcases hcase with ⟨hr, rfl⟩ | ⟨hr, hcase⟩
  · exact ⟨_, unescape_last env hb' (hrp.trans hr), h.alike.wp ▸ h.unescapeFinish hb⟩
  · have hm := h.readByte hb hr env
    rcases hcase with ⟨hlit, hunit⟩ | ⟨hmark, hlast, rfl⟩ | ⟨hmark, hpair, hunit⟩
    · rw [unescape_literal env hb' (hrp ▸ hr) (by rw [hrp, hm, hlit]), hrp, hm]
      exact consumeUnit_twins h hunit
    · exact ⟨_, unescape_lone env hb' (hrp ▸ hlast) (by rw [hrp, hm, hmark]),
        h.raise fun _ => (runningStage_some.1 hb).2.1⟩
    · rw [unescape_pair env hb' (hrp ▸ hpair) (by rw [hrp, hm, hmark]), hrp, hm, h.readByte hb hpair]
      exact consumeUnit_twins h hunit

theorem sequencerStep_twins (h : Twins c s s') (hs : sequencerStep env c s = .next t) :
    ∃ t', sequencerStep env c s' = .next t' ∧ Twins c t t' := by
  obtain ⟨b, hb, -⟩ := sequencerStep_frame hs
  have hb' := (h.alike.runningStage c s.stage).trans hb
  cases hst : s.stage with
  | none => simp [sequencerStep, hst] at hs
  | compress =>
    rw [hst] at hb hb'
    cases (compress_step env hb).symm.trans hs
    exact ⟨_, compress_step env hb', h.compressed hb⟩
  | decompress =>
    rw [hst] at hb hb'
    cases (decompress_step env hb).symm.trans hs
    exact ⟨_, decompress_step env hb', h.decompressed hb⟩
  | escape => exact escapeStep_twins h (by simpa only [sequencerStep, hst] using hs)
  | unescape => exact unescapeStep_twins h (by simpa only [sequencerStep, hst] using hs)

end Twins

/-! ### Whole commands -/

section Commands
variable {env : Config.Environment} {c : Command} {s s' t : State}

theorem runToDone_twins : ∀ {n : Nat} {s s' : State}, Twins c s s' → runToDone env c n s = .next t →
    ∃ t', runToDone env c n s' = .next t' ∧ Twins c t t'
  | 0, s, s', h, hs => by
    unfold runToDone at hs
    split at hs
    · cases hs
    · next hp =>
      cases hs
      exact ⟨s', runToDone_idle (h.alike.phase ▸ hp) 0, h⟩
  | n + 1, s, s', h, hs => by
    by_cases hp : s.phase = .busy
    · obtain ⟨u, hu⟩ : ∃ u, sequencerStep env c s = .next u := by
        rw [runToDone, if_pos hp] at hs
        split at hs
        · next u hu => exact ⟨u, hu⟩
        · cases hs
        · cases hs
      obtain ⟨u', hu', htwins⟩ := sequencerStep_twins h hu
      rw [runToDone_step hp hu] at hs
      rw [runToDone_step (h.alike.phase.trans hp) hu']
      exact runToDone_twins htwins hs
    · cases (runToDone_idle hp _).symm.trans hs
      exact ⟨s', runToDone_idle (h.alike.phase ▸ hp) _, h⟩

theorem startRefusal_congr (h : SameOperands s s') : startRefusal c s' = startRefusal c s := by
  obtain ⟨-, hlen, hdst, hmid⟩ := h
  cases c <;> simp [startRefusal, hlen, hdst, hmid]

/-- START forgets every difference but the contents of `MID` and `DST` (R41). -/
theorem clearResults_alike (h : SameButResults s s') (p : Phase) (st : Stage) (code : Status) :
    Alike { s.clearResults with phase := p, stage := st, status := code }
      { s'.clearResults with phase := p, stage := st, status := code } := by
  obtain ⟨⟨hop, hlen, hdst, hmid⟩, ⟨hturns, hreply⟩, hdraws, hsrc⟩ := h
  refine ⟨s'.mid, s'.dst, ?_⟩
  simp [State.clearResults, State.withBuffers, hop, hlen, hdst, hmid, hturns, hreply, hdraws, hsrc]

theorem beginCommand_twins (c : Command) (h : SameButResults s s') :
    Twins c (beginCommand c s) (beginCommand c s') := by
  cases hr : startRefusal c s with
  | some code =>
    rw [beginCommand_of_refused hr, beginCommand_of_refused ((startRefusal_congr h.1).trans hr)]
    exact .of_stage_none (clearResults_alike h .done .none code) (.zero _ _ _) (.zero _ _ _) rfl
  | none =>
    rw [beginCommand_of_accepted hr, beginCommand_of_accepted ((startRefusal_congr h.1).trans hr)]
    exact ⟨clearResults_alike h .busy (firstStage c) .ok, .zero _ _ _, .zero _ _ _,
      fun _ _ => .zero _ _ _⟩

end Commands

/-- Settles O35: the two runs take the same steps side by side, from START to the end. -/
theorem earlierResultsDiscarded : Obligations.EarlierResultsDiscarded := by
  intro c s s' t hp hp' h ht env
  rw [exec_command, runCommand_of_not_busy hp] at ht
  obtain ⟨t', ht', halike, hmid, hdst, -⟩ := runToDone_twins (beginCommand_twins c h) ht
  have hlimit : stepLimit s' = stepLimit s := by
    obtain ⟨⟨-, hlen, -, hmid⟩, -⟩ := h
    simp [stepLimit, hlen, hmid]
  refine ⟨t', by rw [exec_command, runCommand_of_not_busy hp', hlimit, ht'], ?_⟩
  obtain ⟨mid, dst, rfl⟩ := halike
  exact ⟨⟨⟨rfl, rfl, rfl, rfl⟩, rfl, rfl, rfl, rfl, rfl, rfl, rfl, rfl⟩, ⟨rfl, rfl⟩, rfl, rfl,
    hdst.readBytes env, hmid.readBytes env⟩

end Sys2Proof.Machine
end

section
/-! SUPPORT. Reset, the steps of the queue, and the instruction a step runs (spec 10 R36, R44, R45; 70 R230). -/

namespace Sys2Proof.Machine

/-! ### Reset and waiting -/

/-- Settles O8: the registers as `State.reset` lists them. -/
theorem resetRegisters : Obligations.ResetRegisters :=
  ⟨rfl, rfl, rfl, rfl, rfl, rfl, rfl, rfl, rfl, rfl, rfl, rfl⟩

/-- Settles O9: the state after reset is what a host reset makes of a state with no draw and no turn. -/
theorem resetMeetsInvariant : Obligations.ResetMeetsInvariant :=
  hostReset_inv Config.aw { State.reset with draws := 0 }

/-- Settles O14: with nothing queued the step is a sequencer move, and none is enabled. -/
theorem idleBlockWaits : Obligations.IdleBlockWaits :=
  fun _ hturns hp => (step_of_empty hturns).trans (sequencerMove_of_not_busy hp)

/-- Settles O32: the row of a command is the command run, which START's first test ends. -/
theorem commandWhileBusyIgnored : Obligations.CommandWhileBusyIgnored :=
  fun c s hp => (exec_command c s).trans (runCommand_of_busy hp)

/-! ### The instruction a step runs -/

section Fetch
variable {env : Config.Environment} {c : Command} {b : Binding} {s : State} {i : Instr}

theorem sequencerMove_of_fetchUnit (hp : s.phase = .busy) (hf : fetchUnit env s = some i) :
    sequencerMove env s = exec i s := by
  simp [sequencerMove, hp, hf]

theorem fetchUnit_of_escape (hc : commandOf s.op = some c) (hb : runningStage c .escape s = some b)
    (hr : s.rp < b.len) :
    fetchUnit env s = some (decodeInput (s.readByte env b.src s.rp)) := by
  simp [fetchUnit, hc, (runningStage_some.1 hb).2.1, hb, Nat.not_le.2 hr]

theorem fetchUnit_of_unescape {rest : List Byte} (hc : commandOf s.op = some c)
    (hb : runningStage c .unescape s = some b) (hr : s.rp < b.len)
    (hd : decodeUnit (unitBytes env b s) = .ok (i, rest)) : fetchUnit env s = some i := by
  simp [fetchUnit, hc, (runningStage_some.1 hb).2.1, hb, Nat.not_le.2 hr, hd]

/-- A unit that decodes is the front of its stream. -/
theorem decodeUnit_of_decode {bytes : List Byte} (h : decode (.unit bytes) = .ok i) :
    decodeUnit bytes = .ok (i, []) := by
  simp only [decode] at h
  split at h
  · next hd => cases h; exact hd
  · cases h
  · cases h

end Fetch

/-- Settles O13: each kind of move, from the turn queued or the bytes fetched. -/
theorem stepRunsDecodedInstruction : Obligations.StepRunsDecodedInstruction := by
  refine ⟨fun s ts i hturns hd => ?_, fun s c b i hturns hc hb hr hd => ?_,
    fun s c b i hturns hc hb hr hd => ?_, fun s c b hturns hc hb hr => ?_,
    fun s ts hturns => step_of_sequencer hturns⟩
  · rw [step_of_command hturns, commandMove, hd]
  · obtain ⟨rest, hd⟩ := hd
    rw [step_of_empty hturns]
    refine sequencerMove_of_fetchUnit (runningStage_some.1 hb).1
      (fetchUnit_of_unescape (rest := rest) hc hb (by omega) ?_)
    rw [unitBytes, if_pos hr, hd]
  · rw [step_of_empty hturns]
    refine sequencerMove_of_fetchUnit (runningStage_some.1 hb).1
      (fetchUnit_of_unescape (rest := []) hc hb (by omega) ?_)
    rw [unitBytes, if_neg (by omega), decodeUnit_of_decode hd]
  · rw [step_of_empty hturns]
    exact sequencerMove_of_fetchUnit (runningStage_some.1 hb).1 (fetchUnit_of_escape hc hb hr)

/-! ### Units outside their scan -/

theorem runningStage_of_not {c : Command} {st : Stage} {s : State}
    (h : ¬ (s.phase = .busy ∧ s.stage = st)) : runningStage c st s = none := if_neg h

theorem consumeUnit_refused {c : Command} {s : State} (h : ¬ (s.phase = .busy ∧ s.stage = .unescape))
    (size : Nat) (v : Byte) : consumeUnit c size v s = .refused .noScanRunning := by
  simp [consumeUnit, runningStage_of_not h]

theorem emitUnit_refused {c : Command} {s : State} (h : ¬ (s.phase = .busy ∧ s.stage = .escape))
    (out : List Byte) : emitUnit c out s = .refused .noScanRunning := by
  simp [emitUnit, runningStage_of_not h]

theorem underCommand_refused {s : State} {k : Command → Result}
    (h : ∀ c, k c = .refused .noScanRunning) : underCommand s k = .refused .noScanRunning := by
  unfold underCommand
  split
  · exact h _
  · rfl

/-- Settles O23: whatever command `OP` selects, if any, its scan is not running. -/
theorem unitsOutsideTheirScanRefused : Obligations.UnitsOutsideTheirScanRefused := by
  intro s v hi low6
  refine ⟨fun h => ?_, fun h => ?_⟩
  · have hunit size w := underCommand_refused (s := s) fun c => consumeUnit_refused (c := c) h size w
    exact ⟨hunit _ _, hunit _ _, hunit _ _, hunit _ _, hunit _ _⟩
  · have hinput out := underCommand_refused (s := s) fun c => emitUnit_refused (c := c) h out
    exact ⟨hinput _, hinput _, hinput _, hinput _⟩

end Sys2Proof.Machine
end

section
/-! SUPPORT. The host's six moves, one step each (spec 10 R38 to R44; 70 R230, R231). -/

namespace Sys2Proof.Machine

/-- Settles O12: the two buffer accesses are refused, and no other move counts as one. -/
theorem bufferMoveWhileBusyRefused : Obligations.BufferMoveWhileBusyRefused := by
  intro s hp hm
  unfold nextIsBufferMove at hm
  split at hm
  · next i v ts hturns => rw [step_of_host hturns]; exact if_pos hp
  · next b i ts hturns => rw [step_of_host hturns]; exact if_pos hp
  · cases hm

/-- An index of a space passes the interface as it is (R40). -/
theorem cutToWidth_of_lt {env : Config.Environment} {i : Nat} (h : i < 2 ^ env.aw) :
    cutToWidth env i = i := Nat.mod_eq_of_lt h

theorem step_writeSrc {s : State} {i : Nat} {v : Byte} {ts : List Turn}
    (h : s.turns = .host (.writeSrc i v) :: ts) (hp : s.phase ≠ .busy) (hi : i < 2 ^ Config.aw) :
    step s = .next (({ s with turns := ts } : State).store .src i [v]) := by
  rw [step_of_host h, hostMove, if_neg hp, cutToWidth_of_lt hi]

theorem step_readBuf {s : State} {buf : ReadBuf} {i : Nat} {ts : List Turn}
    (h : s.turns = .host (.readBuf buf i) :: ts) (hp : s.phase ≠ .busy) (hi : i < 2 ^ Config.aw) :
    step s = .next { s with
      turns := ts, reply := some (.byte (s.readByte Config.environment buf.space i)) } := by
  rw [step_of_host h, hostMove, if_neg hp, cutToWidth_of_lt hi]
  rfl

/-- Settles O41: the write by its register, cut to `AW` bits where the register has them. -/
theorem hostWritesRegisters : Obligations.HostWritesRegisters := by
  intro s r ts h
  rw [step_of_host h]
  refine ⟨fun hp => ?_, fun hp => ?_⟩
  · exact congrArg Host.Outcome.next (if_pos hp)
  · refine (congrArg Host.Outcome.next (if_neg hp)).trans ?_
    cases r <;> rfl

/-- Settles O42: one byte stored in `SRC`. -/
theorem hostWritesSource : Obligations.HostWritesSource := by
  intro s i v ts h hp hi
  refine ⟨_, step_writeSrc h hp hi, fun env => ?_, fun env sp j hj => ?_, rfl, rfl⟩
  · rw [readByte_store]
    simp
  · refine readByte_store_off env { s with turns := ts } ?_
    rintro ⟨rfl, hle, hlt⟩
    exact hj ⟨rfl, by simp only [List.length_singleton] at hlt; omega⟩

/-- Settles O45: the byte read is the reply. -/
theorem hostReadsBuffers : Obligations.HostReadsBuffers :=
  fun _ _ _ hp hi => ⟨fun h => step_readBuf h hp hi, fun h => step_readBuf h hp hi⟩

/-- A register whose value the host may rely on: any while the block waits, and those that stay readable
while it runs (R42). -/
theorem hostReadReg_value {env : Config.Environment} {r : ReadReg} {s : State}
    (h : s.phase ≠ .busy ∨ r = .op ∨ r = .srcLen ∨ r = .dstCap ∨ r = .midCap ∨ r = .phase) :
    hostReadReg env r s = { s with reply := some (regValue r s) } := by
  unfold hostReadReg
  split
  · next hp =>
    rcases h with h | h
    · exact absurd hp h
    · rcases h with rfl | rfl | rfl | rfl | rfl <;> rfl
  · rfl

/-- Settles O43: the value of each register, `PHASE` and `STATUS` by their codes. -/
theorem hostReadsRegisters : Obligations.HostReadsRegisters := by
  intro s r ts h hr
  rw [step_of_host h, hostMove, hostReadReg_value (s := { s with turns := ts }) hr]
  cases r with
  | phase => cases s.phase <;> rfl
  | status => cases s.status <;> rfl
  | trunc => cases s.trunc <;> rfl
  | _ => rfl

/-- Settles O44: the reply is the draw's, cut to the register's width. -/
theorem hostReadWhileBusyUnspecified : Obligations.HostReadWhileBusyUnspecified := by
  intro s r ts h hp hr
  rw [step_of_host h, hostMove, hostReadReg, if_pos hp]
  rcases hr with rfl | rfl | rfl | rfl | rfl | rfl <;> exact ⟨_, rfl⟩

/-- Settles O46: START clears the results and goes to the command's first stage, since none of the tests
of its validation refuses it. -/
theorem startBeginsCommand : Obligations.StartBeginsCommand := by
  intro s c ts h hp hc hesc hunesc hdec
  have hrefuse : startRefusal c { s with turns := ts } = none := by
    cases c with
    | compress => rfl
    | decompress => rfl
    | escape => exact if_neg (hesc (.inl rfl))
    | unescape => exact if_neg (Nat.not_lt.2 (hunesc rfl))
    | encode => exact if_neg (hesc (.inr rfl))
    | decode => exact if_neg (Nat.not_lt.2 (hdec rfl))
  refine ⟨({ s with turns := ts } : State).clearResults.accept c, ?_, rfl, rfl, rfl, rfl, rfl,
    ⟨rfl, rfl, rfl⟩, ⟨rfl, rfl, rfl, rfl⟩, rfl, rfl, rfl, rfl, rfl, rfl⟩
  rw [step_of_host h, hostMove, hostStart_of_some (s := { s with turns := ts }) hp hc,
    beginCommand_of_accepted hrefuse]

/-- Settles O47: the turn is taken off the queue and START's first test ends the move. -/
theorem startWhileBusyIgnored : Obligations.StartWhileBusyIgnored := by
  intro s ts h hp
  rw [step_of_host h, hostMove, hostStart, if_pos hp]

/-- Settles O48: the reset state, each buffer unknown from the draw made for this reset. -/
theorem resetFromAnyState : Obligations.ResetFromAnyState := by
  intro s ts h
  refine ⟨hostReset { s with turns := ts }, step_of_host h, rfl, rfl, rfl, rfl, rfl, rfl, rfl, rfl,
    rfl, rfl, rfl, rfl, rfl, rfl, fun sp => ?_, fun env sp i => ?_⟩
  · cases sp <;> rfl
  · exact readByte_unknown (by cases sp <;> rfl) i

end Sys2Proof.Machine
end

section
/-! SUPPORT. Memory (spec 20 R64, R67, R72, R73, R185): the byte read after a store, what the block leaves
unchanged of `SRC` and above the capacities, and that no command reads `SRC` at or above `SRC_LEN`. -/

namespace Sys2Proof.Machine

/-- Settles O40: a store of one byte changes the reading at its own index alone. -/
theorem readAfterStore : Obligations.ReadAfterStore := by
  refine fun env s sp i v => ⟨?_, fun sp' j hj => readByte_store_off env s ?_⟩
  · rw [readByte_store]
    simp
  · rintro ⟨hsp, hle, hlt⟩
    exact hj ⟨hsp, by simp only [List.length_singleton] at hlt; omega⟩

/-- Settles O38: `SRC` is part of what every move of the block keeps. -/
theorem blockKeepsSource : Obligations.BlockKeepsSource :=
  fun _ _ hm hs => (step_blockFrame hm hs).src

/-- Settles O39: so are the bytes at and above the capacities. -/
theorem blockKeepsBytesAboveCapacity : Obligations.BlockKeepsBytesAboveCapacity :=
  fun _ _ hm hs => (step_blockFrame hm hs).bytes

/-! ### The state with other contents of `SRC` -/

/-- The state with other contents of `SRC`. -/
def State.withSrc (s : State) (src : Buffer) : State := { s with src := src }

section WithSrc
variable {env : Config.Environment} {c : Command} {st : Stage} {b : Binding} {s t : State} {src : Buffer}

@[simp] theorem State.withSrc_draws : (s.withSrc src).draws = s.draws := rfl

theorem State.withSrc_buffer {sp : Space} (h : sp ≠ .src) :
    (s.withSrc src).buffer sp = s.buffer sp := by
  cases sp with
  | src => exact absurd rfl h
  | _ => rfl

theorem runningStage_withSrc (c : Command) (st : Stage) (s : State) (src : Buffer) :
    runningStage c st (s.withSrc src) = runningStage c st s := by
  cases c <;> cases st <;> rfl

theorem State.withSrc_store {sp : Space} (h : sp ≠ .src) (i : Nat) (bs : List Byte) :
    (s.withSrc src).store sp i bs = (s.store sp i bs).withSrc src := by
  cases sp with
  | src => exact absurd rfl h
  | _ => rfl

theorem State.withSrc_havoc {sp : Space} (h : sp ≠ .src) (lo hi draw : Nat) :
    (s.withSrc src).havoc sp lo hi draw = (s.havoc sp lo hi draw).withSrc src := by
  cases sp with
  | src => exact absurd rfl h
  | _ => rfl

theorem State.withSrc_stageReturn (c : Command) (st : Stage) (n : Nat) :
    (s.withSrc src).stageReturn c st n = (s.stageReturn c st n).withSrc src := by
  cases c <;> cases st <;> rfl

theorem beginCommand_withSrc (c : Command) (s : State) (src : Buffer) :
    beginCommand c (s.withSrc src) = (beginCommand c s).withSrc src := by
  have hrefuse : startRefusal c (s.withSrc src) = startRefusal c s :=
    startRefusal_congr ⟨rfl, rfl, rfl, rfl⟩
  unfold beginCommand
  rw [hrefuse]
  split <;> rfl

/-- The other contents read as `SRC` does below `SRC_LEN`. -/
def SameInput (env : Config.Environment) (s : State) (src : Buffer) : Prop :=
  ∀ i, i < s.srcLen → (s.withSrc src).readByte env .src i = s.readByte env .src i

/-- A move of the block keeps both `SRC` and `SRC_LEN`. -/
theorem SameInput.of_blockFrame (h : SameInput env s src) (hf : BlockFrame s t) :
    SameInput env t src := by
  obtain ⟨-, hlen, -⟩ := hf.operands
  intro i hi
  calc (t.withSrc src).readByte env .src i
    _ = (s.withSrc src).readByte env .src i := State.readByte_congr env .src i rfl
    _ = s.readByte env .src i := h i (hlen ▸ hi)
    _ = t.readByte env .src i := (State.readByte_congr env .src i hf.src).symm

/-- A stage that reads `SRC` has `SRC_LEN` for its length (R170). -/
theorem binding_len_of_src (h : binding c st s = some b) (hsrc : b.src = .src) : b.len = s.srcLen := by
  cases c <;> cases st <;> simp only [binding, Option.some.injEq, reduceCtorEq] at h <;> subst h <;>
    simp [State.srcToDst, State.srcToMid, State.midToDst] at hsrc ⊢

/-- Inside its extent a running stage reads the same bytes (R61, R67). -/
theorem SameInput.readByte (h : SameInput env s src) (hb : runningStage c st s = some b) {i : Nat}
    (hi : i < b.len) : (s.withSrc src).readByte env b.src i = s.readByte env b.src i := by
  by_cases hsrc : b.src = .src
  · rw [binding_len_of_src (runningStage_some.1 hb).2.2 hsrc] at hi
    rw [hsrc]
    exact h i hi
  · exact State.readByte_congr env b.src i (State.withSrc_buffer hsrc)

theorem SameInput.readBytes (h : SameInput env s src) (hb : runningStage c st s = some b) :
    (s.withSrc src).readBytes env b.src b.len = s.readBytes env b.src b.len :=
  List.map_congr_left fun _ hi => h.readByte hb (List.mem_range.1 hi)

/-! ### A step with other contents of `SRC` -/

theorem running_dst_ne_src (hb : runningStage c st s = some b) : b.dst ≠ .src :=
  (binding_spaces (runningStage_some.1 hb).2.2).2.1

theorem escapeFinish_withSrc (hdst : b.dst ≠ .src) (hs : escapeFinish c b s = .next t) :
    escapeFinish c b (s.withSrc src) = .next (t.withSrc src) := by
  obtain ⟨hroom, rfl⟩ := escapeFinish_next hs
  rw [escapeFinish_of_lt (s := s.withSrc src) hroom, State.withSrc_store hdst, stageReturn_escape]
  rfl

theorem emitUnit_withSrc {out : List Byte} (hs : emitUnit c out s = .next t) :
    emitUnit c out (s.withSrc src) = .next (t.withSrc src) := by
  obtain ⟨b, hb, hr, hcase⟩ := emitUnit_next hs
  have hb' := (runningStage_withSrc c .escape s src).trans hb
  have hdst := running_dst_ne_src hb
  rcases hcase with ⟨hf, rfl⟩ | ⟨hf, hfin⟩
  · rw [emitUnit_of_fits hb' hr hf, State.withSrc_store hdst]
    rfl
  · rw [emitUnit_of_not_fits hb' hr hf]
    exact escapeFinish_withSrc hdst hfin

theorem consumeUnit_withSrc {size : Nat} {v : Byte} (hs : consumeUnit c size v s = .next t) :
    consumeUnit c size v (s.withSrc src) = .next (t.withSrc src) := by
  obtain ⟨b, hb, hr, hcase⟩ := consumeUnit_next hs
  have hb' := (runningStage_withSrc c .unescape s src).trans hb
  rcases hcase with ⟨hsize, rfl⟩ | ⟨hsize, hroom, rfl⟩
  · exact consumeUnit_of_cut hb' hr hsize
  · rw [consumeUnit_of_whole hb' hr hsize hroom, State.withSrc_store (running_dst_ne_src hb)]
    rfl

/-- Output delivered and handed over (R119), with other contents of `SRC`. -/
theorem delivered_withSrc (hdst : b.dst ≠ .src) (out : List Byte) (draw : Nat) (st : Stage) :
    ((s.withSrc src).drawn.deliver b out draw).stageReturn c st out.length
      = ((s.drawn.deliver b out draw).stageReturn c st out.length).withSrc src := by
  have hdrawn : (s.withSrc src).drawn = s.drawn.withSrc src := rfl
  unfold State.deliver
  rw [hdrawn, State.withSrc_store hdst, State.withSrc_havoc hdst, State.withSrc_stageReturn]

/-- An engine failure (R119), with other contents of `SRC`. -/
theorem failed_withSrc (hdst : b.dst ≠ .src) (code : Status) (draw : Nat) :
    ((s.withSrc src).drawn.havoc b.dst 0 b.cap draw).raise c code
      = ((s.drawn.havoc b.dst 0 b.cap draw).raise c code).withSrc src := by
  have hdrawn : (s.withSrc src).drawn = s.drawn.withSrc src := rfl
  rw [hdrawn, State.withSrc_havoc hdst]
  rfl

theorem compressed_withSrc (h : SameInput env s src) (hb : runningStage c .compress s = some b) :
    compressed env c b (s.withSrc src) = (compressed env c b s).withSrc src := by
  have hdst := running_dst_ne_src hb
  unfold compressed
  simp only [h.readBytes hb, State.withSrc_draws]
  split
  · rfl
  · split
    · exact failed_withSrc hdst ..
    · split
      · exact failed_withSrc hdst ..
      · exact delivered_withSrc hdst ..

theorem decompressed_withSrc (h : SameInput env s src) (hb : runningStage c .decompress s = some b) :
    decompressed env c b (s.withSrc src) = (decompressed env c b s).withSrc src := by
  have hdst := running_dst_ne_src hb
  unfold decompressed
  simp only [h.readBytes hb, State.withSrc_draws]
  split
  · rfl
  · split
    · exact failed_withSrc hdst ..
    · split
      · exact failed_withSrc hdst ..
      · exact delivered_withSrc hdst ..

theorem escapeStep_withSrc (h : SameInput env s src) (hs : escapeStep env c s = .next t) :
    sequencerStep env c (s.withSrc src) = .next (t.withSrc src) := by
  obtain ⟨b, hb, hcase⟩ := escapeStep_next hs
  have hb' := (runningStage_withSrc c .escape s src).trans hb
  rcases hcase with ⟨hr, hfin⟩ | ⟨hr, hunit⟩
  · rw [escape_end env hb' hr]
    exact escapeFinish_withSrc (running_dst_ne_src hb) hfin
  · rw [← h.readByte hb hr] at hunit
    rw [escape_byte env hb' hr]
    exact emitUnit_withSrc hunit

theorem unescapeStep_withSrc (h : SameInput env s src) (hs : unescapeStep env c s = .next t) :
    sequencerStep env c (s.withSrc src) = .next (t.withSrc src) := by
  obtain ⟨b, hb, hcase⟩ := unescapeStep_next hs
  have hb' := (runningStage_withSrc c .unescape s src).trans hb
  rcases hcase with ⟨hr, rfl⟩ | ⟨hr, hcase⟩
  · rw [unescape_last env hb' hr, ← State.withSrc_stageReturn]
    rfl
  · have hm := h.readByte hb hr
    rcases hcase with ⟨hlit, hunit⟩ | ⟨hmark, hlast, rfl⟩ | ⟨hmark, hpair, hunit⟩
    · rw [← hm] at hlit hunit
      rw [unescape_literal env hb' hr hlit]
      exact consumeUnit_withSrc hunit
    · exact unescape_lone env hb' hlast (hm ▸ hmark)
    · rw [← hm] at hmark hunit
      rw [← h.readByte hb hpair] at hunit
      rw [unescape_pair env hb' hpair hmark]
      exact consumeUnit_withSrc hunit

theorem sequencerStep_withSrc (h : SameInput env s src) (hs : sequencerStep env c s = .next t) :
    sequencerStep env c (s.withSrc src) = .next (t.withSrc src) := by
  obtain ⟨b, hb, -⟩ := sequencerStep_frame hs
  have hb' := (runningStage_withSrc c s.stage s src).trans hb
  cases hst : s.stage with
  | none => simp [sequencerStep, hst] at hs
  | compress =>
    rw [hst] at hb hb'
    cases (compress_step env hb).symm.trans hs
    rw [compress_step env hb', compressed_withSrc h hb]
  | decompress =>
    rw [hst] at hb hb'
    cases (decompress_step env hb).symm.trans hs
    rw [decompress_step env hb', decompressed_withSrc h hb]
  | escape => exact escapeStep_withSrc h (by simpa only [sequencerStep, hst] using hs)
  | unescape => exact unescapeStep_withSrc h (by simpa only [sequencerStep, hst] using hs)

/-! ### A command with other contents of `SRC` -/

theorem runToDone_withSrc : ∀ {n : Nat} {s : State}, SameInput env s src →
    runToDone env c n s = .next t → runToDone env c n (s.withSrc src) = .next (t.withSrc src)
  | 0, s, _, hs => by
    unfold runToDone at hs
    split at hs
    · cases hs
    · next hp =>
      cases hs
      exact runToDone_idle (s := t.withSrc src) hp 0
  | n + 1, s, h, hs => by
    unfold runToDone at hs
    split at hs
    · next hp =>
      split at hs
      · next u hu =>
        rw [runToDone_step (s := s.withSrc src) hp (sequencerStep_withSrc h hu)]
        exact runToDone_withSrc (h.of_blockFrame (sequencerStep_blockFrame hu)) hs
      · cases hs
      · cases hs
    · next hp =>
      cases hs
      exact runToDone_idle (s := t.withSrc src) hp _

theorem runCommand_withSrc (h : SameInput env s src) (hs : runCommand env c s = .next t) :
    runCommand env c (s.withSrc src) = .next (t.withSrc src) := by
  by_cases hp : s.phase = .busy
  · cases (runCommand_of_busy hp).symm.trans hs
    exact runCommand_of_busy hp
  · rw [runCommand_of_not_busy hp] at hs
    rw [runCommand_of_not_busy (s := s.withSrc src) hp, beginCommand_withSrc]
    exact runToDone_withSrc (h.of_blockFrame (beginCommand_blockFrame c s)) hs

end WithSrc

/-- Settles O36: the command takes the same steps, every byte of `SRC` it reads being below `SRC_LEN`. -/
theorem sourceBeyondLengthNotRead : Obligations.SourceBeyondLengthNotRead := by
  intro c s t src hs h
  rw [exec_command] at hs ⊢
  exact runCommand_withSrc h hs

end Sys2Proof.Machine
end

section
/-! SUPPORT. The encodings (spec 30 R80 to R91): the three formats decode what they encode and encode what
they decode, the first byte of a code unit decides it, and two command codes are reserved. -/

namespace Sys2Proof

/-! ### Bytes by their value -/

theorem isMarker_iff {b : Byte} : isMarker b = true ↔ 245 ≤ b.toNat ∧ b.toNat ≤ 248 := by
  simp only [isMarker, isMarkerIn, Config.markers, Bool.or_eq_true, beq_iff_eq, ← BitVec.toNat_inj,
    BitVec.reduceToNat]
  omega

theorem needsEscape_iff {b : Byte} : needsEscape b = true ↔
    b.toNat = 0 ∨ b.toNat = 34 ∨ b.toNat = 92 ∨ 245 ≤ b.toNat ∧ b.toNat ≤ 248 := by
  rw [← isMarker_iff]
  simp [needsEscape, needsEscapeIn, isMarker, Config.nul, Config.quote, Config.backslash,
    ← BitVec.toNat_inj, or_assoc]

theorem markers_admissible : Config.markers.Admissible := by decide

/-- The marker of bucket `i` (R6). -/
theorem markers_nth (i : Fin 4) : Config.markers.nth i = BitVec.ofNat 8 (245 + i.val) := by
  fin_cases i <;> rfl

theorem eq_nth_of_toNat {m : Byte} {i : Fin 4} (h : m.toNat = 245 + i.val) :
    m = Config.markers.nth i := by
  rw [markers_nth, ← h, BitVec.ofNat_toNat, BitVec.setWidth_eq]

theorem isMarker_nth (i : Fin 4) : isMarker (Config.markers.nth i) = true := isMarkerIn_nth _ i

theorem bucket_nth (i : Fin 4) : bucket (Config.markers.nth i) = i := bucketIn_nth markers_admissible i

theorem nth_bucket {m : Byte} (hm : isMarker m = true) : Config.markers.nth (bucket m) = m := by
  have h := isMarker_iff.1 hm
  obtain ⟨i, rfl⟩ : ∃ i, m = Config.markers.nth i :=
    ⟨⟨m.toNat - 245, by omega⟩, eq_nth_of_toNat (Nat.add_sub_cancel' h.1).symm⟩
  rw [bucket_nth]

/-! ### The fields of a payload -/

theorem payloadByte_toNat (hi : BitVec 2) (low6 : BitVec 6) :
    (payloadByte hi low6).toNat = 64 * hi.toNat + low6.toNat := by
  rw [payloadByte, BitVec.toNat_append, ← Nat.shiftLeft_add_eq_or_of_lt low6.isLt, Nat.shiftLeft_eq,
    Nat.mul_comm]

theorem payloadHi_payloadByte (hi : BitVec 2) (low6 : BitVec 6) :
    payloadHi (payloadByte hi low6) = hi := by
  apply BitVec.eq_of_toNat_eq
  simp only [payloadHi, BitVec.extractLsb'_toNat, payloadByte_toNat, Nat.shiftRight_eq_div_pow]
  omega

theorem payloadLow6_payloadByte (hi : BitVec 2) (low6 : BitVec 6) :
    payloadLow6 (payloadByte hi low6) = low6 := by
  apply BitVec.eq_of_toNat_eq
  simp only [payloadLow6, BitVec.extractLsb'_toNat, payloadByte_toNat, Nat.shiftRight_zero]
  omega

/-! ### Commands -/

theorem commandOf_eq_some {op : BitVec 3} {c : Command} (h : commandOf op = some c) : op = c.code := by
  revert op c
  decide


theorem commandOf_eq_none_iff : ∀ {op : BitVec 3}, commandOf op = none ↔ op = 0 ∨ op = 7 := by decide

theorem decode_command (c : Command) : decode (.cmd c.code) = .ok c.instr := by
  simp [decode, decodeCommand, Machine.commandOf_code]

theorem encode_command (c : Command) : encode c.instr = .cmd c.code := by cases c <;> rfl

theorem wellFormed_command (c : Command) : c.instr.wellFormed = true := by cases c <;> rfl

/-! ### Code units -/

/-- The row LIT admits exactly the bytes that are no marker (R83). -/
theorem wellFormed_lit_iff {v : Byte} : (Instr.lit v).wellFormed = true ↔ isMarker v = false := by
  have hv := v.isLt
  rw [← Bool.not_eq_true, isMarker_iff]
  simp only [Instr.wellFormed, inRanges, litRanges, List.any_cons, List.any_nil, Bool.or_false,
    Bool.or_eq_true, Bool.and_eq_true, decide_eq_true_eq]
  omega

theorem wellFormed_pairUnit (i : Fin 4) (hi : BitVec 2) (low6 : BitVec 6) :
    (pairUnit i hi low6).wellFormed = true := by
  fin_cases i <;> rfl

theorem encode_pairUnit (i : Fin 4) (hi : BitVec 2) (low6 : BitVec 6) :
    encode (pairUnit i hi low6) = .unit [Config.markers.nth i, payloadByte hi low6] := by
  fin_cases i <;> rfl

/-- A byte that is no marker is a unit by itself (R83, R90). -/
theorem decodeUnit_lit {v : Byte} (hv : isMarker v = false) (rest : List Byte) :
    decodeUnit (v :: rest) = .ok (.lit v, rest) := by
  simp [decodeUnit, hv]

/-- A marker takes the next byte as its payload, whatever it is (R84, R90). -/
theorem decodeUnit_pair (i : Fin 4) (hi : BitVec 2) (low6 : BitVec 6) (rest : List Byte) :
    decodeUnit (Config.markers.nth i :: payloadByte hi low6 :: rest) = .ok (pairUnit i hi low6, rest) := by
  simp [decodeUnit, isMarker_nth, bucket_nth, payloadHi_payloadByte, payloadLow6_payloadByte]

/-- All that the front of a stream can decode to. -/
theorem decodeUnit_ok {bytes rest : List Byte} {i : Instr} (h : decodeUnit bytes = .ok (i, rest)) :
    (∃ v, isMarker v = false ∧ i = .lit v ∧ bytes = v :: rest)
      ∨ ∃ k hi low6, i = pairUnit k hi low6
        ∧ bytes = Config.markers.nth k :: payloadByte hi low6 :: rest := by
  unfold decodeUnit at h
  split at h
  · cases h
  · next m tail =>
    split at h
    · next hm =>
      split at h
      · cases h
      · next p tail' =>
        cases h
        exact .inr ⟨bucket m, payloadHi p, payloadLow6 p, rfl,
          by rw [nth_bucket hm, Machine.payloadByte_parts]⟩
    · next hm =>
      cases h
      exact .inl ⟨m, by simpa using hm, rfl, rfl⟩

/-! ### Input classes -/

/-- The row of an input class. -/
def InputClass.instr : InputClass → Byte → Instr
  | .q0 => .eQ0
  | .bs => .eBs
  | .mk => .eMk
  | .lit => .eLit

theorem decodeInput_eq (b : Byte) : decodeInput b = (classOf b).instr b := by
  unfold decodeInput
  cases classOf b <;> rfl

theorem encode_input (k : InputClass) (b : Byte) : encode (k.instr b) = .input b := by
  cases k <;> rfl

/-- The class of a byte by its value (R91). -/
theorem classOf_eq (b : Byte) : classOf b =
    if b.toNat = 0 ∨ b.toNat = 34 then .q0 else if b.toNat = 92 then .bs
    else if 245 ≤ b.toNat ∧ b.toNat ≤ 248 then .mk else .lit := by
  simp only [classOf, isMarker_iff, Config.nul, Config.quote, Config.backslash, ← BitVec.toNat_inj,
    BitVec.reduceToNat]

/-- The rows of the four classes share the bytes out among them: each admits its own class (R91). -/
theorem wellFormed_input_iff {k : InputClass} {b : Byte} :
    (k.instr b).wellFormed = true ↔ classOf b = k := by
  have hb := b.isLt
  rw [classOf_eq]
  cases k
  all_goals
    simp only [InputClass.instr, Instr.wellFormed, inRanges, literalInputRanges, List.contains_cons,
      List.any_cons, Bool.or_eq_true, Bool.and_eq_true, decide_eq_true_eq, beq_iff_eq]
    split_ifs <;> simp <;> omega


/-! ### The two round trips -/

theorem decode_unit {bytes : List Byte} {i : Instr} (h : decodeUnit bytes = .ok (i, [])) :
    decode (.unit bytes) = .ok i := by
  simp [decode, h]

theorem decode_encode_pairUnit (k : Fin 4) (hi : BitVec 2) (low6 : BitVec 6) :
    decode (encode (pairUnit k hi low6)) = .ok (pairUnit k hi low6) := by
  rw [encode_pairUnit]
  exact decode_unit (decodeUnit_pair k hi low6 [])

theorem decode_encode_input {k : InputClass} {b : Byte} (h : (k.instr b).wellFormed = true) :
    decode (encode (k.instr b)) = .ok (k.instr b) := by
  rw [encode_input, decode, decodeInput_eq, wellFormed_input_iff.1 h]

/-- Settles O1, by the format of the instruction: a command by its code, a unit by its first byte, an
input byte by its class. -/
theorem decodeEncodeRoundTrip : Obligations.DecodeEncodeRoundTrip := by
  intro i hi
  cases i with
  | compress => exact decode_command .compress
  | decompress => exact decode_command .decompress
  | escape => exact decode_command .escape
  | unescape => exact decode_command .unescape
  | encode => exact decode_command .encode
  | decode => exact decode_command .decode
  | lit v => exact decode_unit (decodeUnit_lit (wellFormed_lit_iff.1 hi) [])
  | esc0 h low6 => exact decode_encode_pairUnit 0 h low6
  | esc1 h low6 => exact decode_encode_pairUnit 1 h low6
  | esc2 h low6 => exact decode_encode_pairUnit 2 h low6
  | esc3 h low6 => exact decode_encode_pairUnit 3 h low6
  | eQ0 b => exact decode_encode_input (k := .q0) hi
  | eBs b => exact decode_encode_input (k := .bs) hi
  | eMk b => exact decode_encode_input (k := .mk) hi
  | eLit b => exact decode_encode_input (k := .lit) hi

/-- Settles O2, by the format of the bits: each decoder says which instruction they are. -/
theorem encodeDecodeRoundTrip : Obligations.EncodeDecodeRoundTrip := by
  intro w i h
  cases w with
  | cmd op =>
    cases hc : commandOf op with
    | none => simp [decode, decodeCommand, hc] at h
    | some c =>
      obtain rfl := commandOf_eq_some hc
      cases (decode_command c).symm.trans h
      exact ⟨wellFormed_command c, encode_command c⟩
  | unit bytes =>
    rcases decodeUnit_ok (Machine.decodeUnit_of_decode h) with
      ⟨v, hv, rfl, rfl⟩ | ⟨k, hi, low6, rfl, rfl⟩
    · exact ⟨wellFormed_lit_iff.2 hv, rfl⟩
    · exact ⟨wellFormed_pairUnit k hi low6, encode_pairUnit k hi low6⟩
  | input b =>
    rw [decode, decodeInput_eq] at h
    cases h
    exact ⟨wellFormed_input_iff.2 rfl, encode_input _ b⟩

/-! ### Reserved codes, sample words and the first-byte map -/

/-- Settles O3: a code is refused when it selects no command. -/
theorem reservedCodesSelectNothing : Obligations.ReservedCodesSelectNothing := by
  intro op
  rw [← commandOf_eq_none_iff]
  cases h : commandOf op <;> simp [decodeCommand, h]

/-- Settles O4: two command codes, and words that are the encoded forms of their instructions. -/
theorem wordsDecode : Obligations.WordsDecode :=
  ⟨rfl, rfl, decodeEncodeRoundTrip (.lit 0x41) rfl,
    decodeEncodeRoundTrip (.esc0 0b10 0b100010) rfl, decodeEncodeRoundTrip (.esc3 0b10 0b110111) rfl,
    decodeEncodeRoundTrip (.eBs 0x5C) rfl, decodeEncodeRoundTrip (.eMk 0xF7) rfl⟩

/-- Settles O5: a literal's byte is no marker, and the marker of a pair is the one of its number. -/
theorem firstByteDecidesUnit : Obligations.FirstByteDecidesUnit := by
  intro m rest
  have hpair (i : Fin 4) (hm : m.toNat = 245 + i.val) (hi : BitVec 2) (low6 : BitVec 6) :
      decodeUnit (m :: payloadByte hi low6 :: rest) = .ok (pairUnit i hi low6, rest) := by
    obtain rfl : m = Config.markers.nth i := eq_nth_of_toNat hm
    exact decodeUnit_pair i hi low6 rest
  refine ⟨fun hm => decodeUnit_lit ?_ rest, fun hi low6 => ⟨fun hm => hpair 0 hm hi low6,
    fun hm => hpair 1 hm hi low6, fun hm => hpair 2 hm hi low6, fun hm => hpair 3 hm hi low6⟩⟩
  rw [← Bool.not_eq_true, isMarker_iff]
  omega

end Sys2Proof
end

section
/-! SUPPORT. The greedy parse of a stream into code units (spec 30 R82, R89). -/

namespace Sys2Proof

theorem parseUnits_lit {v : Byte} (hv : isMarker v = false) (t : List Byte) :
    parseUnits (v :: t) = (parseUnits t).map (.lit v :: ·) := by
  cases t <;> simp [parseUnits, hv]

theorem parseUnits_pair {m : Byte} (hm : isMarker m = true) (p : Byte) (t : List Byte) :
    parseUnits (m :: p :: t)
      = (parseUnits t).map (pairUnit (bucket m) (payloadHi p) (payloadLow6 p) :: ·) := by
  simp [parseUnits, hm]

theorem parseUnits_marker {m : Byte} (hm : isMarker m = true) : parseUnits [m] = none := by
  simp [parseUnits, hm]

/-- A sequence that parses, then one marker byte (R89). -/
def LoneMarkerAtEnd (t : List Byte) : Prop :=
  ∃ front m, t = front ++ [m] ∧ isMarker m = true ∧ (parseUnits front).isSome = true

theorem LoneMarkerAtEnd.singleton {m : Byte} (hm : isMarker m = true) : LoneMarkerAtEnd [m] :=
  ⟨[], m, rfl, hm, rfl⟩

theorem LoneMarkerAtEnd.lit {v : Byte} {t : List Byte} (hv : isMarker v = false)
    (h : LoneMarkerAtEnd t) : LoneMarkerAtEnd (v :: t) := by
  obtain ⟨front, m, rfl, hm, hfront⟩ := h
  exact ⟨v :: front, m, rfl, hm, by simpa [parseUnits_lit hv] using hfront⟩

theorem LoneMarkerAtEnd.pair {m : Byte} {t : List Byte} (hm : isMarker m = true) (p : Byte)
    (h : LoneMarkerAtEnd t) : LoneMarkerAtEnd (m :: p :: t) := by
  obtain ⟨front, n, rfl, hn, hfront⟩ := h
  exact ⟨m :: p :: front, n, rfl, hn, by simpa [parseUnits_pair hm] using hfront⟩

/-- What fails to parse ends in a lone marker: each unit at the front leaves a stream that fails. -/
theorem loneMarkerAtEnd_of_parseUnits {t : List Byte} (h : parseUnits t = none) :
    LoneMarkerAtEnd t := by
  induction t using parseUnits.induct with
  | case1 => cases h
  | case2 m hm => exact .singleton hm
  | case3 m hm => simp [parseUnits, hm] at h
  | case4 m p t hm ih =>
    rw [parseUnits_pair hm, Option.map_eq_none_iff] at h
    exact .pair hm p (ih h)
  | case5 m p t hm ih =>
    rw [Bool.not_eq_true] at hm
    rw [parseUnits_lit hm, Option.map_eq_none_iff] at h
    exact .lit hm (ih h)

/-- After units that parse, a marker by itself does not. -/
theorem parseUnits_append_marker {m : Byte} (hm : isMarker m = true) {front : List Byte}
    (h : (parseUnits front).isSome = true) : parseUnits (front ++ [m]) = none := by
  induction front using parseUnits.induct with
  | case1 => exact parseUnits_marker hm
  | case2 v hv => simp [parseUnits_marker hv] at h
  | case3 v hv => simp [parseUnits_lit (Bool.not_eq_true _ ▸ hv), parseUnits_marker hm]
  | case4 v p t hv ih =>
    rw [parseUnits_pair hv, Option.isSome_map] at h
    simp [parseUnits_pair hv, ih h]
  | case5 v p t hv ih =>
    rw [Bool.not_eq_true] at hv
    rw [parseUnits_lit hv, Option.isSome_map] at h
    rw [List.cons_append, parseUnits_lit hv, ih h, Option.map_none]

/-- Settles O6, by induction along the parse in either direction. -/
theorem onlyLoneMarkerFailsToParse : Obligations.OnlyLoneMarkerFailsToParse := by
  refine fun t => ⟨loneMarkerAtEnd_of_parseUnits, ?_⟩
  rintro ⟨front, m, rfl, hm, hfront⟩
  exact parseUnits_append_marker hm hfront

end Sys2Proof
end

section
/-! SUPPORT. The pair of a reserved byte, and the escape as an injective map (spec 30 R92, R98; 43 R183). -/

namespace Sys2Proof

theorem escapeOne_of_reserved {b : Byte} (hb : needsEscape b = true) :
    escapeOne b = [Config.markers.nth ⟨b.toNat / 64, by have := b.isLt; omega⟩, payloadOf b] :=
  if_pos hb

/-- Settles O7: the escape of one byte is its bucket's marker and its payload. -/
theorem reservedByteEmitsItsBucketsMarker : Obligations.ReservedByteEmitsItsBucketsMarker := by
  intro b hb m p
  have hbucket : b.toNat / 64 < 4 := by have := b.isLt; omega
  have hm : m = Config.markers.nth ⟨b.toNat / 64, hbucket⟩ := (markers_nth ⟨_, hbucket⟩).symm
  have hp : p = payloadOf b := rfl
  refine ⟨?_, ?_, fun c s => ?_⟩
  · have hvalues := needsEscape_iff.1 hb
    omega
  · rw [hm, hp, unbiasIn, bucketIn_nth markers_admissible, pairValue_payloadOf]
  · rw [Machine.inputByte_eq, escapeOne_of_reserved hb, hm, hp]

/-- The escape of one byte decodes to it (R98). -/
theorem unescapeFn_escapeOne (b : Byte) : unescapeFn (escapeOne b) = some [b] := by
  rw [← List.append_nil (escapeOne b)]
  exact unescapeFnIn_escapeOneIn_append markers_admissible b []

theorem unescapeFn_escapeFn (x : List Byte) : unescapeFn (escapeFn x) = some x :=
  unescapeInvertsEscape _ markers_admissible x

/-- Settles O50: what the decoder gives back cannot have come from two inputs. The decoder itself ignores
the high bits of a payload, so it is not injective. -/
theorem escapeInjective : Obligations.EscapeInjective := by
  refine ⟨fun b hb => ?_, fun b b' _ _ h => ?_, fun x x' h => ?_,
    [0xF5, 0x80], [0xF5, 0x00], [0x00], by decide, by decide, by decide⟩
  · have hpair := escapeOne_of_reserved hb
    exact ⟨_, _, hpair, isMarker_nth _, hpair ▸ unescapeFn_escapeOne b⟩
  · simpa [unescapeFn_escapeOne] using congrArg unescapeFn h
  · simpa [unescapeFn_escapeFn] using congrArg unescapeFn h

end Sys2Proof
end

section
/-! SUPPORT. The bits of a payload that no unit looks at (spec 30 R93; 42 R160), and a START with a reserved
code (30 R81; 60 R207). -/

namespace Sys2Proof.Machine

/-! ### The two high bits of a payload -/

theorem pairValue_payloadByte (i : Fin 4) (hi : BitVec 2) (low6 : BitVec 6) :
    pairValue i (payloadByte hi low6) = BitVec.ofNat 8 (Config.base i + low6.toNat) := by
  rw [pairValue, payloadByte_toNat, Nat.mul_add_mod, Nat.mod_eq_of_lt low6.isLt]

/-- A pair by itself consumes two bytes that stand for its base and the six low bits (R152 to R155). -/
theorem exec_pairUnit_value (i : Fin 4) (hi : BitVec 2) (low6 : BitVec 6) (s : State) :
    exec (pairUnit i hi low6) s
      = underCommand s fun c => consumeUnit c 2 (BitVec.ofNat 8 (Config.base i + low6.toNat)) s := by
  rw [← pairValue_payloadByte i hi low6]
  fin_cases i <;> rfl

theorem exec_pairUnit_hi (i : Fin 4) (hi hi' : BitVec 2) (low6 : BitVec 6) (s : State) :
    exec (pairUnit i hi low6) s = exec (pairUnit i hi' low6) s :=
  (exec_pairUnit_value i hi low6 s).trans (exec_pairUnit_value i hi' low6 s).symm

/-- Settles O53: the value of a pair is made of its marker and the six low bits. -/
theorem payloadHighBitsIgnored : Obligations.PayloadHighBitsIgnored :=
  fun hi hi' low6 s => ⟨exec_pairUnit_hi 0 hi hi' low6 s, exec_pairUnit_hi 1 hi hi' low6 s,
    exec_pairUnit_hi 2 hi hi' low6 s, exec_pairUnit_hi 3 hi hi' low6 s⟩

/-! ### START with a reserved code -/

theorem refusedWith_refuse (s : State) (code : Status) :
    RefusedWith s (s.clearResults.refuse code) code :=
  ⟨rfl, ⟨rfl, rfl⟩, rfl, rfl, ⟨rfl, rfl, rfl⟩, ⟨rfl, rfl, rfl, rfl⟩, ⟨rfl, rfl⟩, rfl, fun _ _ _ _ => rfl⟩

theorem hostStart_of_none {s : State} (hb : s.phase ≠ .busy) (hc : commandOf s.op = none) :
    hostStart s = s.clearResults.refuse .badCommand := by
  simp [hostStart, hb, hc, refuseReserved]

/-- Settles O31: as a host move or as a whole command, the step is the START that refuses. -/
theorem badCommandRefused : Obligations.BadCommandRefused := by
  intro s ts hp hop hturns
  have hc : commandOf s.op = none := commandOf_eq_none_iff.2 hop
  have hstep : step s = .next (hostStart { s with turns := ts }) := by
    rcases hturns with h | h
    · exact step_of_host h
    · exact (step_of_command h).trans (commandMove_of_none hc)
  rw [hostStart_of_none (s := { s with turns := ts }) hp hc] at hstep
  exact ⟨_, hstep, refusedWith_refuse _ _⟩

end Sys2Proof.Machine
end

section
/-! SUPPORT. The two engine stages (spec 40 R110 to R119): what an engine stage that ends its command leaves, and
COMPRESS and DECOMPRESS, which are one such stage each. -/

namespace Sys2Proof.Machine

open Sys2Proof.Claims

/-! ### Commands that are accepted -/

/-- A command that is not refused runs from START's end (R41, R189). -/
theorem runCommand_of_accepted {env : Config.Environment} {c : Command} {s : State} (hp : s.phase ≠ .busy)
    (hstart : startRefusal c s = none) :
    runCommand env c s = runToDone env c (stepLimit s) (s.clearResults.accept c) := by
  rw [runCommand_of_not_busy hp, beginCommand_of_accepted hstart]

/-! ### An engine stage that ends its command -/

/-- What an engine stage that ends its command leaves, failed or not (R119, R178). -/
structure EngineEnd (b : Binding) (s t : State) : Prop where
  completed : Completed t
  frame : Frame b.dst 0 b.cap s t
  draws : t.draws = s.draws + 1
  trunc : t.trunc = s.trunc
  rp : t.rp = s.rp
  wp : t.wp = s.wp
  midLen : t.midLen = s.midLen
  others : ∀ sp, sp ≠ b.dst → t.buffer sp = s.buffer sp

section EngineEnd
variable {c : Command} {b : Binding} {s t : State} {code : Status}

theorem engineEnd_initFailed (hcode : code ≠ .malformedEscape) :
    EngineEnd b s (s.drawn.raise c code) where
  completed := ⟨rfl, rfl⟩
  frame := (Frame.drawn ..).trans (.raise ..)
  draws := rfl
  trunc := rfl
  rp := rfl
  wp := rfl
  midLen := by simp [hcode]
  others _ _ := rfl

theorem engineEnd_failed (hdst : b.dst ≠ .src) (draw : Nat) (hcode : code ≠ .malformedEscape) :
    EngineEnd b s ((s.drawn.havoc b.dst 0 b.cap draw).raise c code) where
  completed := ⟨rfl, rfl⟩
  frame := (Frame.drawn ..).trans ((Frame.havoc _ hdst le_rfl le_rfl).trans (.raise ..))
  draws := by simp
  trunc := by simp
  rp := by simp
  wp := by simp
  midLen := by simp [hcode]
  others sp hsp := by simp [State.havoc_buffer, hsp]

/-- A delivery within the capacity writes within the capacity (R119). -/
theorem deliver_frame (hdst : b.dst ≠ .src) {out : List Byte} (hout : out.length ≤ b.cap) (draw : Nat) :
    Frame b.dst 0 b.cap s (s.drawn.deliver b out draw) :=
  (Frame.drawn ..).trans
    ((Frame.store _ hdst le_rfl (by omega)).trans (.havoc _ hdst (Nat.zero_le _) le_rfl))

theorem engineEnd_delivered (hdst : b.dst ≠ .src) {out : List Byte} (hout : out.length ≤ b.cap)
    (draw : Nat) : EngineEnd b s ((s.drawn.deliver b out draw).complete out.length) where
  completed := ⟨rfl, rfl⟩
  frame := (deliver_frame hdst hout draw).trans
    (.of_buffers _ _ _ ⟨rfl, rfl, rfl, rfl⟩ ⟨rfl, rfl⟩ fun _ => rfl)
  draws := by simp
  trunc := by simp
  rp := by simp
  wp := by simp
  midLen := by simp
  others sp hsp := by simp [deliver_buffer, hsp]

theorem EngineEnd.commandFrame (h : EngineEnd b s t) : CommandFrame s t :=
  ⟨h.completed, h.frame.operands, h.frame.host, h.frame.src⟩

theorem EngineEnd.cursorsZero (h : EngineEnd b s t) (hz : CursorsZero s) : CursorsZero t := by
  obtain ⟨hr, hw, hm⟩ := hz
  exact ⟨h.rp.trans hr, h.wp.trans hw, h.midLen.trans hm⟩

/-- What a failed engine stage reports (R178, R210). -/
theorem failedWith_raise (htrunc : s.trunc = false) (hcode : code ≠ .malformedEscape) :
    FailedWith (s.raise c code) code := by
  simp [FailedWith, htrunc, hcode]

/-- What is read of a delivery when its command has completed (R119, R246). -/
theorem output_complete_deliver (env : Config.Environment) (hdst : b.dst = .dst) (out : List Byte)
    (draw : Nat) : ((s.deliver b out draw).complete out.length).output env = out := by
  rw [State.output, State.readBytes_congr env _ _ (State.complete_buffer ..), ← hdst]
  exact deliver_readBytes env s b out draw

end EngineEnd

/-! ### The compress stage -/

/-- The three ways a compress stage over the compressed bytes `z` fails, in the order of R212. -/
inductive CompressFailure (env : Config.Environment) (z : List Byte) (draw cap : Nat) (t : State) : Prop
  | init (hinit : env.initOk draw = false) (hfail : FailedWith t .compEngineInitFailed)
  | tooSmall (hinit : env.initOk draw = true) (hlen : cap < z.length)
      (hfail : FailedWith t .compBufferTooSmall)
  | step (hinit : env.initOk draw = true) (hlen : z.length ≤ cap) (hstep : env.stepOk draw = false)
      (hfail : FailedWith t .compEngineStepFailed)

/-- What makes a compress stage deliver: healthy draws and room for the compressed bytes (R115). -/
structure CompressSucceeds (env : Config.Environment) (z : List Byte) (draw cap : Nat) : Prop where
  init : env.initOk draw = true
  room : z.length ≤ cap
  step : env.stepOk draw = true

section Compress
variable {env : Config.Environment} {c : Command} {b : Binding} {s t : State} {z : List Byte}
  {draw cap : Nat}

theorem CompressFailure.status_ne_ok (h : CompressFailure env z draw cap t) : t.status ≠ .ok := by
  rcases h with ⟨-, hfail⟩ | ⟨-, -, hfail⟩ | ⟨-, -, -, hfail⟩ <;> simp [hfail.1]

theorem CompressSucceeds.not_failure (h : CompressSucceeds env z draw cap) :
    ¬ CompressFailure env z draw cap t := by
  rintro (⟨hinit, -⟩ | ⟨-, hlen, -⟩ | ⟨-, -, hstep, -⟩)
  · simp [h.init] at hinit
  · exact Nat.not_lt.2 h.room hlen
  · simp [h.step] at hstep

/-- A choice between the outcomes in the order of R212 takes the failure's branch. -/
theorem CompressFailure.outcome {p q r d : Prop} (h : CompressFailure env z draw cap t)
    (hp : env.initOk draw = false → FailedWith t .compEngineInitFailed → p)
    (hq : FailedWith t .compBufferTooSmall → q) (hr : FailedWith t .compEngineStepFailed → r) :
    if env.initOk draw = false then p else if cap < z.length then q
    else if env.stepOk draw = false then r else d := by
  rcases h with ⟨hinit, hfail⟩ | ⟨hinit, hlen, hfail⟩ | ⟨hinit, hlen, hstep, hfail⟩
  · rw [if_pos hinit]
    exact hp hinit hfail
  · rw [if_neg (by simp [hinit]), if_pos hlen]
    exact hq hfail
  · rw [if_neg (by simp [hinit]), if_neg (Nat.not_lt.2 hlen), if_pos hstep]
    exact hr hfail

/-- A choice between the outcomes in the order of R212 takes the last branch. -/
theorem CompressSucceeds.outcome {p q r d : Prop} (h : CompressSucceeds env z draw cap) (hd : d) :
    if env.initOk draw = false then p else if cap < z.length then q
    else if env.stepOk draw = false then r else d := by
  rw [if_neg (by simp [h.init]), if_neg (Nat.not_lt.2 h.room), if_neg (by simp [h.step])]
  exact hd

theorem compressed_buffer_of_initFailed (hinit : env.initOk s.draws = false) (sp : Space) :
    (compressed env c b s).buffer sp = s.buffer sp := by
  simp [compressed, hinit]

/-- All that a running compress stage can do: fail, which ends its command, or deliver (R115, R119). -/
theorem compressed_cases (hb : binding c .compress s = some b) (htrunc : s.trunc = false)
    (hz : z = env.deflate (s.readBytes env b.src b.len)) :
    (EngineEnd b s (compressed env c b s)
        ∧ CompressFailure env z s.draws b.cap (compressed env c b s))
      ∨ (CompressSucceeds env z s.draws b.cap
        ∧ compressed env c b s = (s.drawn.deliver b z s.draws).stageReturn c .compress z.length) := by
  obtain ⟨-, hdst, -⟩ := binding_spaces hb
  have hfail {code : Status} (hcode : code ≠ .malformedEscape) :
      FailedWith ((s.drawn.havoc b.dst 0 b.cap s.draws).raise c code) code :=
    failedWith_raise (by simp [htrunc]) hcode
  simp only [compressed, ← hz]
  split_ifs with hinit hlen hstep
  · exact .inl ⟨engineEnd_initFailed nofun, .init hinit (failedWith_raise htrunc nofun)⟩
  · exact .inl ⟨engineEnd_failed hdst _ nofun, .tooSmall (by simpa using hinit) hlen (hfail nofun)⟩
  · exact .inl ⟨engineEnd_failed hdst _ nofun,
      .step (by simpa using hinit) (Nat.not_lt.1 hlen) hstep (hfail nofun)⟩
  · exact .inr ⟨⟨by simpa using hinit, Nat.not_lt.1 hlen, by simpa using hstep⟩, rfl⟩

/-- COMPRESS is one compress stage (R117). -/
theorem runCommand_compress (hp : s.phase ≠ .busy) :
    runCommand env .compress s
      = .next (compressed env .compress s.srcToDst (s.clearResults.accept .compress)) := by
  have hb : runningStage .compress .compress (s.clearResults.accept .compress) = some s.srcToDst :=
    runningStage_accept rfl
  have hdone := (compressed_phase (env := env) hb).resolve_right (by simp)
  rw [runCommand_of_accepted hp rfl, stepLimit]
  exact runToDone_of_last _ rfl (compress_step env hb) (by simp [hdone])

/-- How a COMPRESS ends (R117). -/
theorem compress_cases (env : Config.Environment) (s : State) :
    let t := compressed env .compress s.srcToDst (s.clearResults.accept .compress)
    let z := env.deflate (s.input env)
    EngineEnd s.srcToDst (s.clearResults.accept .compress) t
      ∧ (CompressFailure env z s.draws s.dstCap t
        ∨ CompressSucceeds env z s.draws s.dstCap ∧ t.status = .ok ∧ t.len = z.length
          ∧ t.output env = z) := by
  intro t z
  rcases compressed_cases (env := env) (c := .compress) (b := s.srcToDst)
    (s := s.clearResults.accept .compress) (z := z) rfl rfl rfl with ⟨hend, hfail⟩ | ⟨hok, ht⟩
  · exact ⟨hend, .inl hfail⟩
  · rw [show t = _ from ht]
    exact ⟨engineEnd_delivered (b := s.srcToDst) nofun hok.room _,
      .inr ⟨hok, rfl, rfl, output_complete_deliver env rfl ..⟩⟩

end Compress

/-- Settles O24: the command is one compress stage, which fails in one of three ways or delivers. -/
theorem compressCompletes : Obligations.CompressCompletes := by
  intro s hp env z
  obtain ⟨hend, hout⟩ := compress_cases env s
  refine ⟨_, runCommand_compress hp, hend.commandFrame, hend.trunc, hend.cursorsZero ⟨rfl, rfl, rfl⟩,
    hend.draws, hend.others .mid nofun, hend.frame.kept, ?_⟩
  rcases hout with hfail | ⟨hok, hout⟩
  · exact hfail.outcome (fun hinit hinitFailed => ⟨hinitFailed,
      compressed_buffer_of_initFailed (s := s.clearResults.accept .compress) hinit .dst⟩) id id
  · exact hok.outcome hout

/-! ### The decompress stage -/

/-- How a decompress stage over the bytes `y` ends: `s` is the state it runs in (R116, R119). -/
def DecompressOutcome (env : Config.Environment) (y : List Byte) (s t : State) : Prop :=
  if env.initOk s.draws = false then FailedWith t .decEngineInitFailed ∧ t.dst = s.dst
  else
    match env.inflate y with
    | none => FailedWith t .decTruncated
    | some x =>
      if s.dstCap < x.length then FailedWith t .decTruncated
      else t.status = .ok ∧ t.len = x.length ∧ t.output env = x

section Decompress
variable {env : Config.Environment} {c : Command} {b : Binding} {s t : State} {x y : List Byte}

/-- Only the draw, the capacity and the bytes of `DST` of the state it runs in matter. -/
theorem decompressOutcome_congr {s' : State} (hdraws : s'.draws = s.draws) (hcap : s'.dstCap = s.dstCap)
    (hdst : s'.dst = s.dst) : DecompressOutcome env y s' t = DecompressOutcome env y s t := by
  simp only [DecompressOutcome, hdraws, hcap, hdst]

theorem DecompressOutcome.of_some (h : DecompressOutcome env y s t) (hinit : env.initOk s.draws = true)
    (hx : env.inflate y = some x) (hroom : x.length ≤ s.dstCap) :
    t.status = .ok ∧ t.len = x.length ∧ t.output env = x := by
  simpa [DecompressOutcome, hinit, hx, Nat.not_lt.2 hroom] using h

theorem DecompressOutcome.of_none (h : DecompressOutcome env y s t) (hinit : env.initOk s.draws = true)
    (hx : env.inflate y = none) : FailedWith t .decTruncated := by
  simpa [DecompressOutcome, hinit, hx] using h

/-- All that a running decompress stage can do; it ends its command (R116, R119). -/
theorem decompressed_cases (hb : binding c .decompress s = some b) (htrunc : s.trunc = false)
    (hy : s.readBytes env b.src b.len = y) :
    EngineEnd b s (decompressed env c b s) ∧ DecompressOutcome env y s (decompressed env c b s) := by
  obtain ⟨hdst, hcap⟩ : b.dst = .dst ∧ b.cap = s.dstCap := by
    rcases binding_decompress hb with ⟨-, rfl⟩ | ⟨-, rfl⟩ <;> exact ⟨rfl, rfl⟩
  have hsrc : b.dst ≠ .src := by simp [hdst]
  have hfail : EngineEnd b s ((s.drawn.havoc b.dst 0 b.cap s.draws).raise c .decTruncated)
      ∧ FailedWith ((s.drawn.havoc b.dst 0 b.cap s.draws).raise c .decTruncated) .decTruncated :=
    ⟨engineEnd_failed hsrc _ nofun, failedWith_raise (by simp [htrunc]) nofun⟩
  simp only [decompressed, DecompressOutcome, hy, ← hcap]
  split_ifs with hinit
  · exact ⟨engineEnd_initFailed nofun, failedWith_raise htrunc nofun, rfl⟩
  · cases env.inflate y with
    | none => exact hfail
    | some x =>
      dsimp only
      split_ifs with hlen
      · exact hfail
      · rw [stageReturn_decompress]
        exact ⟨engineEnd_delivered hsrc (Nat.not_lt.1 hlen) _, rfl, rfl,
          output_complete_deliver env hdst ..⟩

/-- DECOMPRESS is one decompress stage (R118). -/
theorem runCommand_decompress (hp : s.phase ≠ .busy) :
    runCommand env .decompress s
      = .next (decompressed env .decompress s.srcToDst (s.clearResults.accept .decompress)) := by
  rw [runCommand_of_accepted hp rfl, stepLimit]
  exact runToDone_of_last _ rfl (decompress_step env (runningStage_accept rfl))
    (by simp [decompressed_phase])

/-- How a DECOMPRESS ends (R118). -/
theorem decompress_cases (env : Config.Environment) (s : State) :
    let t := decompressed env .decompress s.srcToDst (s.clearResults.accept .decompress)
    EngineEnd s.srcToDst (s.clearResults.accept .decompress) t
      ∧ DecompressOutcome env (s.input env) s t :=
  decompressed_cases (s := s.clearResults.accept .decompress) rfl rfl rfl

end Decompress

/-- Settles O25: the command is one decompress stage. -/
theorem decompressCompletes : Obligations.DecompressCompletes := by
  intro s hp env
  obtain ⟨hend, hout⟩ := decompress_cases env s
  exact ⟨_, runCommand_decompress hp, hend.commandFrame, hend.trunc, hend.cursorsZero ⟨rfl, rfl, rfl⟩,
    hend.draws, hend.others .mid nofun, hend.frame.kept, hout⟩

/-- Settles O59: a COMPRESS that ended `OK` left the compressed input, which P1 inflates to the input. -/
theorem decompressAfterCompressRestores : Obligations.DecompressAfterCompressRestores := by
  intro env hlossless s t s2 hp ht hok hp2 hlen hinput hroom hinit
  cases (runCommand_compress hp).symm.trans ht
  obtain ⟨-, hfail | ⟨-, -, -, hz⟩⟩ := compress_cases env s
  · exact absurd hok hfail.status_ne_ok
  · have hx : env.inflate (s2.input env) = some (s.input env) := by rw [hinput, hz, hlossless]
    have hxlen : (s.input env).length = s.srcLen := readBytes_length ..
    have hout := (decompress_cases env s2).2.of_some hinit hx (by rwa [hxlen])
    rw [hxlen] at hout
    exact ⟨_, runCommand_decompress hp2, hout⟩

end Sys2Proof.Machine
end

section
/-! SUPPORT. The two scans as whole stages (spec 41 R138, R142; 42 R158, R163): the state a scan that starts at
the front of its source ends in, whatever command it belongs to. -/

namespace Sys2Proof

/-! ### The length of an escape -/

theorem fullLen_append (x y : List Byte) : fullLen (x ++ y) = fullLen x + fullLen y := by
  simp [fullLen, escapeFn, escapeFnIn]

theorem fullLen_take_le (x : List Byte) (k : Nat) : fullLen (x.take k) ≤ fullLen x := by
  conv_rhs => rw [← List.take_append_drop k x, fullLen_append]
  exact Nat.le_add_right ..

/-- Where the whole escape fits, all of the input is taken (R142). -/
theorem LongestFit.eq_length {x : List Byte} {room k : Nat} (h : LongestFit x room k)
    (hroom : fullLen x ≤ room) : k = x.length := by
  obtain ⟨hk, -, hstop⟩ := h
  by_contra hne
  have hlt := hstop (by omega)
  have hle := fullLen_take_le x (k + 1)
  omega

namespace Machine

open Sys2Proof.Claims

/-! ### Frames in a row -/

section Frames
variable {s t u : State}

theorem SameOperands.trans (h1 : SameOperands s t) (h2 : SameOperands t u) : SameOperands s u := by
  obtain ⟨hop, hlen, hdst, hmid⟩ := h1
  obtain ⟨hop', hlen', hdst', hmid'⟩ := h2
  exact ⟨hop'.trans hop, hlen'.trans hlen, hdst'.trans hdst, hmid'.trans hmid⟩

theorem SameHost.trans (h1 : SameHost s t) (h2 : SameHost t u) : SameHost s u :=
  ⟨h2.1.trans h1.1, h2.2.trans h1.2⟩

theorem BytesKept.trans {p q r : Space → Nat → Prop} (h1 : BytesKept s t p) (h2 : BytesKept t u q)
    (hp : ∀ sp i, p sp i → r sp i) (hq : ∀ sp i, q sp i → r sp i) : BytesKept s u r :=
  fun env sp i hr => (h2 env sp i fun h => hr (hq sp i h)).trans (h1 env sp i fun h => hr (hp sp i h))

/-- What is read away from the changed bytes. -/
theorem BytesKept.readBytes {env : Config.Environment} {changed : Space → Nat → Prop}
    (h : BytesKept s t changed) {sp : Space} {n : Nat} (hn : ∀ i, i < n → ¬ changed sp i) :
    t.readBytes env sp n = s.readBytes env sp n :=
  List.map_congr_left fun i hi => h env sp i (hn i (List.mem_range.1 hi))

end Frames

/-! ### The escape stage -/

/-- What an escape stage leaves that starts with its cursors at 0; it ends its command (R137, R142). -/
structure EscapeEnd (env : Config.Environment) (b : Binding) (s t : State) : Prop where
  completed : Completed t
  operands : SameOperands s t
  host : SameHost s t
  draws : t.draws = s.draws
  midLen : t.midLen = s.midLen
  others : ∀ sp, sp ≠ b.dst → t.buffer sp = s.buffer sp
  bytes : BytesKept s t fun sp i => sp = b.dst ∧ i ≤ t.len
  output : EscapedOutput env (s.readBytes env b.src b.len) b.cap t

section Escape
variable {env : Config.Environment} {c : Command} {b : Binding} {s u : State}

/-- The flag is set exactly when a byte is left (R136). -/
theorem truncated_if_left {x : List Byte} {k : Nat} (htrunc : u.trunc = false) :
    (if x.drop k = [] then u else u.truncated) = { u with trunc := decide (k < x.length) } := by
  by_cases hk : k < x.length
  · simp [hk, List.drop_eq_nil_iff, State.truncated]
  · simp [hk, List.drop_eq_nil_iff, Nat.not_lt.1 hk, ← htrunc]

/-- The finish after a scan that consumed all that fits (R137). -/
theorem escapeEnd_of_scanned {t : State} (hdst : b.dst = .dst) (hscan : Scanned b s u)
    (hfit : LongestFit (s.readBytes env b.src b.len) (b.cap - 1) u.rp)
    (hwp : u.wp = fullLen ((s.readBytes env b.src b.len).take u.rp))
    (hread : u.readBytes env b.dst u.wp = escapeFn ((s.readBytes env b.src b.len).take u.rp))
    (hfin : ScanFinished b { u with trunc := decide (u.rp < b.len) } t)
    (htrunc : t.trunc = decide (u.rp < b.len))
    (hothers : ∀ sp, sp ≠ b.dst → t.buffer sp = u.buffer sp) : EscapeEnd env b s t := by
  obtain ⟨hok, hdone, hrp, hwp', hlen, hmidLen, hterm, hbytes, hops, hhost, hdraws⟩ := hfin
  dsimp only at hrp hwp' hlen hmidLen hterm hdraws
  have hkept : BytesKept u t fun sp i => sp = b.dst ∧ i = u.wp := hbytes
  refine
    { completed := hdone
      operands := hscan.operands.trans hops
      host := hscan.host.trans hhost
      draws := hdraws.trans hscan.draws
      midLen := hmidLen.trans hscan.midLen
      others := fun sp hsp => (hothers sp hsp).trans (hscan.others sp hsp)
      bytes := hscan.bytes.trans hkept (by rintro sp i ⟨h, -, hi⟩; exact ⟨h, by omega⟩)
        (by rintro sp i ⟨h, hi⟩; exact ⟨h, by omega⟩)
      output := ⟨hok, hwp'.trans hlen.symm, hrp ▸ hfit, by rw [hlen, hrp, hwp], ?_, ?_, ?_⟩ }
  · rw [State.output, hlen, hrp, ← hdst, hkept.readBytes (by rintro i hi ⟨-, h⟩; omega), hread]
  · simp [htrunc, hrp]
  · rw [hlen, ← hdst, hterm]

/-- A running escape stage from the front of its source (R138). -/
theorem runToDone_escape_end (hb : runningStage c .escape s = some b) (hcap : 1 ≤ b.cap)
    (hr : s.rp = 0) (hw : s.wp = 0) (htrunc : s.trunc = false) {n : Nat} (hn : b.len < n) :
    ∃ t, runToDone env c n s = .next t ∧ EscapeEnd env b s t := by
  obtain ⟨u, k, hk, hrun, hscan, hrp, hahead, hwp, hroom, hread, hstop⟩ :=
    escape_scan env c b _ s hb (ahead_start env b s hr) hcap (by omega)
  obtain rfl : k = u.rp := by omega
  rw [hw, Nat.zero_add] at hwp hstop
  have hu := hscan.running hb
  have hlast := escape_last env hu hahead hcap hroom (not_fits_of_stopped hwp hstop)
  rw [truncated_if_left (hscan.trunc.trans htrunc), readBytes_length] at hlast
  have hdst : b.dst = .dst := by
    rcases binding_escape (runningStage_some.1 hb).2.2 with ⟨-, rfl⟩ | ⟨-, rfl⟩ <;> rfl
  have hend := escapeEnd_of_scanned (env := env) hdst hscan ⟨hk, hwp ▸ hroom, hstop⟩ hwp
    (by simpa [hw, State.readBytes] using hread) (scanFinished_complete b _) (by simp)
    fun sp hsp => by rw [State.complete_buffer, State.store_buffer, if_neg hsp]; rfl
  rw [readBytes_length] at hk
  obtain ⟨m, rfl⟩ : ∃ m, n = u.rp + (m + 1) := ⟨n - u.rp - 1, by omega⟩
  exact ⟨_, (hrun _).trans (runToDone_of_last m (runningStage_some.1 hu).1 hlast (by simp)), hend⟩

end Escape

/-- With room for the whole escape and the terminator nothing is left out (R140). -/
theorem escapedOutput_of_room {env : Config.Environment} {x : List Byte} {cap : Nat} {t : State}
    (h : EscapedOutput env x cap t) (hroom : fullLen x ≤ cap - 1) :
    t.trunc = false ∧ t.len = fullLen x ∧ t.output env = escapeFn x := by
  obtain ⟨-, -, hfit, hlen, hout, htrunc, -⟩ := h
  rw [hfit.eq_length hroom, List.take_length] at hlen hout
  refine ⟨?_, hlen, hout⟩
  simpa [hfit.eq_length hroom] using htrunc

/-! ### The unescape stage -/

section Unescape
variable {env : Config.Environment} {c : Command} {b : Binding} {s : State} {y : List Byte} {n : Nat}

/-- A running unescape stage whose source decodes, from the front of it to its return (R157, R163). -/
theorem runToDone_unescape_of_some (hb : runningStage c .unescape s = some b) (hcap : b.len ≤ b.cap)
    (hr : s.rp = 0) (hw : s.wp = 0) (hn : b.len < n)
    (hy : unescapeFn (s.readBytes env b.src b.len) = some y) :
    ∃ u m, n ≤ b.len + 1 + m
      ∧ runToDone env c n s = runToDone env c m (u.stageReturn c .unescape u.wp)
      ∧ Scanned b s u ∧ u.rp = b.len ∧ u.wp = y.length ∧ u.readBytes env b.dst u.wp = y := by
  obtain ⟨u, k, y', hk, hrun, hscan, hwp, -, hread, ⟨hfin, hy'⟩ | ⟨-, -, -, hnone, -⟩⟩ :=
    unescape_scan env c b _ s hb (ahead_start env b s hr) (by omega) hcap
  · cases hy.symm.trans hy'
    have hu := hscan.running hb
    rw [readBytes_length] at hk
    obtain ⟨m, rfl⟩ : ∃ m, n = k + (m + 1) := ⟨n - k - 1, by omega⟩
    refine ⟨u, m, by omega, ?_, hscan, hfin, by omega, by simpa [hw, State.readBytes] using hread⟩
    rw [hrun, runToDone_step (runningStage_some.1 hu).1 (unescape_last env hu hfin)]
  · simp [hy] at hnone

/-- A running unescape stage whose source does not decode, from the front of it to the lone marker at its
end (R156, R163). -/
theorem runToDone_unescape_of_none (hb : runningStage c .unescape s = some b) (hcap : b.len ≤ b.cap)
    (hr : s.rp = 0) (hw : s.wp = 0) (hn : b.len < n)
    (hnone : unescapeFn (s.readBytes env b.src b.len) = none) :
    ∃ u, runToDone env c n s = .next (u.raise c .malformedEscape) ∧ Scanned b s u
      ∧ u.rp + 1 = b.len
      ∧ unescapeFn ((s.readBytes env b.src b.len).take (b.len - 1))
          = some (u.readBytes env b.dst u.wp) := by
  obtain ⟨u, k, y, hk, hrun, hscan, -, -, hread, ⟨-, hy⟩ | ⟨hfin, hmarker, -, -, hy⟩⟩ :=
    unescape_scan env c b _ s hb (ahead_start env b s hr) (by omega) hcap
  · simp [hnone] at hy
  · have hu := hscan.running hb
    rw [readBytes_length] at hk
    obtain ⟨m, rfl⟩ : ∃ m, n = k + (m + 1) := ⟨n - k - 1, by omega⟩
    have hread : u.readBytes env b.dst u.wp = y := by simpa [hw, State.readBytes] using hread
    refine ⟨u, ?_, hscan, hfin, by simpa [hread] using hy⟩
    rw [hrun]
    exact runToDone_of_last m (runningStage_some.1 hu).1 (unescape_lone env hu hfin hmarker) (by simp)

end Unescape

end Machine

end Sys2Proof
end

section
/-! SUPPORT. ENCODE and DECODE, which run an engine stage and a scan in a row (spec 43 R170 to R172), and what
DECODE makes of the text of an ENCODE (43 R182; 70 R244). -/

namespace Sys2Proof.Machine

open Sys2Proof.Claims

/-! ### ENCODE -/

/-- The state in which the compress stage of an ENCODE hands the bytes `z` over to the escape stage (R171). -/
def encodeHandover (z : List Byte) (s : State) : State :=
  ((s.clearResults.accept .encode).drawn.deliver s.srcToMid z s.draws).stageReturn .encode .compress z.length

/-- What an ENCODE leaves whose compress stage delivered `z`: `MID` holds `z`, and `DST` the escape of what
fits of it (R171). -/
structure EncodeSuccess (env : Config.Environment) (z : List Byte) (s t : State) : Prop where
  frame : CommandFrame s t
  draws : t.draws = s.draws + 1
  bytes : BytesKept s t fun sp i => sp = .mid ∧ i < s.midCap ∨ sp = .dst ∧ t.status = .ok ∧ i ≤ t.len
  midLen : t.midLen = z.length
  mid : t.readBytes env .mid z.length = z
  output : EscapedOutput env z s.dstCap t

section Encode
variable {env : Config.Environment} {s t : State} {z : List Byte}

theorem encodeHandover_readBytes : (encodeHandover z s).readBytes env .mid z.length = z := by
  rw [encodeHandover, State.readBytes_congr env _ _ (State.stageReturn_buffer ..)]
  exact deliver_readBytes env _ s.srcToMid z _

theorem encodeHandover_running :
    runningStage .encode .escape (encodeHandover z s) = some ⟨.mid, z.length, .dst, s.dstCap⟩ :=
  runningStage_some.2 (by simp [encodeHandover, State.stageReturn, binding, State.midToDst])

theorem encodeHandover_frame (hroom : z.length ≤ s.midCap) :
    Frame .mid 0 s.midCap s (encodeHandover z s) :=
  have hstart : Frame .mid 0 s.midCap s (s.clearResults.accept .encode) :=
    .of_buffers _ _ _ ⟨rfl, rfl, rfl, rfl⟩ ⟨rfl, rfl⟩ fun _ => rfl
  (hstart.trans (deliver_frame (b := s.srcToMid) nofun hroom s.draws)).trans (.stageReturn ..)

/-- From the hand-over on, an ENCODE is an escape stage over `MID[0..MID_LEN)` (R171). -/
theorem encodeSuccess_of_escapeEnd (hroom : z.length ≤ s.midCap)
    (h : EscapeEnd env ⟨.mid, z.length, .dst, s.dstCap⟩ (encodeHandover z s) t) :
    EncodeSuccess env z s t := by
  have hframe := encodeHandover_frame hroom
  have hout := encodeHandover_readBytes (env := env) (z := z) (s := s) ▸ h.output
  exact
    { frame := ⟨h.completed, hframe.operands.trans h.operands, hframe.host.trans h.host,
        (h.others .src nofun).trans hframe.src⟩
      draws := h.draws.trans (by simp [encodeHandover, State.stageReturn])
      bytes := hframe.kept.trans h.bytes (fun _ _ => .inl) fun _ _ hi => .inr ⟨hi.1, hout.1, hi.2⟩
      midLen := h.midLen.trans (by simp [encodeHandover, State.stageReturn])
      mid := (State.readBytes_congr env _ _ (h.others .mid nofun)).trans encodeHandover_readBytes
      output := hout }

/-- How an ENCODE ends: with its compress stage, or with the escape of what that delivered (R171). -/
theorem encode_cases (env : Config.Environment) (hp : s.phase ≠ .busy) (hcap : s.dstCap ≠ 0)
    (hz : z = env.deflate (s.input env)) :
    (let s' := s.clearResults.accept .encode
      let t := compressed env .encode s.srcToMid s'
      runCommand env .encode s = .next t ∧ EngineEnd s.srcToMid s' t
        ∧ CompressFailure env z s.draws s.midCap t)
      ∨ CompressSucceeds env z s.draws s.midCap
        ∧ ∃ t, runCommand env .encode s = .next t ∧ EncodeSuccess env z s t := by
  have hb : runningStage .encode .compress (s.clearResults.accept .encode) = some s.srcToMid :=
    runningStage_accept rfl
  have hrun : runCommand env .encode s = runToDone env .encode (s.srcLen + s.midCap + 1)
      (compressed env .encode s.srcToMid (s.clearResults.accept .encode)) := by
    rw [runCommand_of_accepted hp (by simp [startRefusal, hcap]), stepLimit]
    exact runToDone_step rfl (compress_step env hb)
  rcases compressed_cases (env := env) (c := .encode) (b := s.srcToMid)
    (s := s.clearResults.accept .encode) rfl rfl hz with ⟨hend, hfail⟩ | ⟨hok, hhand⟩
  · exact .inl ⟨hrun.trans (runToDone_idle (by simp [hend.completed.1]) _), hend, hfail⟩
  · have hhand : compressed env .encode s.srcToMid (s.clearResults.accept .encode)
      = encodeHandover z s := hhand
    have hlen : z.length < s.srcLen + s.midCap + 1 := by
      have := hok.room
      simp only [State.srcToMid] at this
      omega
    obtain ⟨t, ht, hend⟩ := runToDone_escape_end (env := env) (encodeHandover_running (z := z) (s := s))
      (Nat.one_le_iff_ne_zero.2 hcap) rfl rfl rfl hlen
    exact .inr ⟨hok, t, by rw [hrun, hhand, ht], encodeSuccess_of_escapeEnd hok.room hend⟩

end Encode

/-- Settles O28: the compress stage fails in one of three ways, or the escape stage follows it. -/
theorem encodeCompletes : Obligations.EncodeCompletes := by
  intro s hp hcap env z
  rcases encode_cases env hp hcap rfl with ⟨hrun, hend, hfail⟩ | ⟨hok, t, hrun, ht⟩
  · refine ⟨_, hrun, hend.commandFrame, hend.draws,
      fun env sp i hi => hend.frame.kept env sp i fun h => hi (.inl h), ?_⟩
    have hzero := hend.cursorsZero ⟨rfl, rfl, rfl⟩
    exact hfail.outcome (fun hinit hinitFailed => ⟨hinitFailed, hzero,
      compressed_buffer_of_initFailed (s := s.clearResults.accept .encode) hinit .mid⟩) (⟨·, hzero⟩)
      (⟨·, hzero⟩)
  · exact ⟨t, hrun, ht.frame, ht.draws, ht.bytes, hok.outcome ⟨ht.midLen, ht.mid, ht.output⟩⟩

/-! ### DECODE -/

/-- A DECODE whose text decodes to `y` is about to run its decompress stage in `u` (R172). -/
structure DecodeHandover (env : Config.Environment) (y : List Byte) (s u : State) : Prop where
  operands : SameOperands s u
  host : SameHost s u
  src : u.src = s.src
  dst : u.dst = s.dst
  draws : u.draws = s.draws
  running : runningStage .decode .decompress u = some u.midToDst
  trunc : u.trunc = false
  rp : u.rp = s.srcLen
  wp : u.wp = y.length
  midLen : u.midLen = y.length
  mid : u.readBytes env .mid y.length = y
  bytes : BytesKept s u fun sp i => sp = .mid ∧ i < y.length

section Decode
variable {env : Config.Environment} {s t u : State} {y : List Byte}

/-- DECODE's first stage, from START (R172). -/
theorem decode_started (env : Config.Environment) (hp : s.phase ≠ .busy) (hcap : s.srcLen ≤ s.midCap) :
    runningStage .decode .unescape (s.clearResults.accept .decode) = some s.srcToMid
      ∧ runCommand env .decode s
        = runToDone env .decode (s.srcLen + s.midCap + 2) (s.clearResults.accept .decode) :=
  ⟨runningStage_accept rfl,
    runCommand_of_accepted hp (by simp [startRefusal, Nat.not_lt.2 hcap])⟩

/-- A DECODE of a text that decodes ends with its decompress stage (R172). -/
theorem decode_of_some (hp : s.phase ≠ .busy) (hcap : s.srcLen ≤ s.midCap)
    (hy : unescapeFn (s.input env) = some y) :
    ∃ u, DecodeHandover env y s u
      ∧ runCommand env .decode s = .next (decompressed env .decode u.midToDst u) := by
  obtain ⟨hb, hrun⟩ := decode_started env hp hcap
  obtain ⟨v, m, hm, hv, hscan, hrp, hwp, hread⟩ := runToDone_unescape_of_some
    (n := s.srcLen + s.midCap + 2) hb hcap rfl rfl (by simp only [State.srcToMid]; omega) hy
  have hu : runningStage .decode .decompress (v.stageReturn .decode .unescape v.wp)
      = some (v.stageReturn .decode .unescape v.wp).midToDst :=
    runningStage_some.2 ⟨hscan.phase, rfl, rfl⟩
  refine ⟨v.stageReturn .decode .unescape v.wp,
    { operands := hscan.operands
      host := hscan.host
      src := hscan.others .src nofun
      dst := hscan.others .dst nofun
      draws := hscan.draws
      running := hu
      trunc := hscan.trunc
      rp := hrp
      wp := hwp
      midLen := hwp
      mid := hwp ▸ hread
      bytes := fun env sp i hi => hscan.bytes env sp i fun ⟨h, _, hlt⟩ => hi ⟨h, hwp ▸ hlt⟩ }, ?_⟩
  obtain ⟨k, rfl⟩ : ∃ k, m = k + 1 := ⟨m - 1, by simp only [State.srcToMid] at hm; omega⟩
  rw [hrun, hv]
  exact runToDone_of_last k hscan.phase (decompress_step env hu) (by simp [decompressed_phase])

/-- What the decompress stage of a DECODE leaves (R172). -/
theorem DecodeHandover.decompressed_end (h : DecodeHandover env y s u) :
    EngineEnd u.midToDst u (decompressed env .decode u.midToDst u)
      ∧ DecompressOutcome env y s (decompressed env .decode u.midToDst u) := by
  obtain ⟨hend, hout⟩ := decompressed_cases (env := env) (y := y) (runningStage_some.1 h.running).2.2
    h.trunc (by simp only [State.midToDst, h.midLen, h.mid])
  exact ⟨hend, (decompressOutcome_congr h.draws h.operands.2.2.1 h.dst) ▸ hout⟩

/-- A DECODE of a text that does not decode ends at the lone marker (R156, R172). -/
theorem decode_of_none (hp : s.phase ≠ .busy) (hcap : s.srcLen ≤ s.midCap)
    (hnone : unescapeFn (s.input env) = none) :
    ∃ u, Scanned s.srcToMid (s.clearResults.accept .decode) u
      ∧ runCommand env .decode s = .next (u.raise .decode .malformedEscape) ∧ u.rp + 1 = s.srcLen
      ∧ unescapeFn ((s.input env).take (s.srcLen - 1)) = some (u.readBytes env .mid u.wp) := by
  obtain ⟨hb, hrun⟩ := decode_started env hp hcap
  obtain ⟨u, hu, hscan, hrp, htake⟩ := runToDone_unescape_of_none
    (n := s.srcLen + s.midCap + 2) hb hcap rfl rfl (by simp only [State.srcToMid]; omega) hnone
  exact ⟨u, hscan, hrun.trans hu, hrp, htake⟩

end Decode

/-- Settles O29: the text does not decode, and the command ends at its lone marker, or the decompress stage
runs over what it decodes to. -/
theorem decodeCompletes : Obligations.DecodeCompletes := by
  intro s hp hcap env
  cases hy : unescapeFn (s.input env) with
  | none =>
    obtain ⟨u, hscan, hrun, hrp, htake⟩ := decode_of_none hp hcap hy
    refine ⟨_, hrun, ⟨⟨rfl, rfl⟩, hscan.operands, hscan.host, hscan.others .src nofun⟩, hscan.trunc, rfl,
      fun env sp i hi => hscan.bytes env sp i fun ⟨h, _, hlt⟩ => hi (.inl ⟨h, hlt⟩), ?_⟩
    exact ⟨rfl, rfl, hscan.others .dst nofun, hscan.draws, hrp, htake⟩
  | some y =>
    obtain ⟨u, hu, hrun⟩ := decode_of_some hp hcap hy
    obtain ⟨hend, hout⟩ := hu.decompressed_end
    obtain ⟨hdone, hops, hhost, hsrc⟩ := hend.commandFrame
    have hmidLen := hend.midLen.trans hu.midLen
    refine ⟨_, hrun, ⟨hdone, hu.operands.trans hops, hu.host.trans hhost, hsrc.trans hu.src⟩,
      hend.trunc.trans hu.trunc, (hend.wp.trans hu.wp).trans hmidLen.symm,
      hu.bytes.trans hend.frame.kept (fun _ _ hi => .inl ⟨hi.1, hmidLen ▸ hi.2⟩)
        (fun _ _ hi => .inr ⟨hi.1, hu.operands.2.2.1 ▸ hi.2⟩), ?_⟩
    exact ⟨hend.draws.trans (by rw [hu.draws]), hend.rp.trans hu.rp, hmidLen,
      (State.readBytes_congr env _ _ (hend.others .mid nofun)).trans hu.mid, hout⟩

/-! ### DECODE of the text of an ENCODE -/

/-- DECODE of the escape of `z` is a decompress stage over `z` (R164, R172). -/
theorem decode_of_escape {env : Config.Environment} {s : State} {z : List Byte} (hp : s.phase ≠ .busy)
    (hcap : s.srcLen ≤ s.midCap) (htext : s.input env = escapeFn z) :
    ∃ t, runCommand env .decode s = .next t ∧ DecompressOutcome env z s t := by
  obtain ⟨u, hu, hrun⟩ := decode_of_some hp hcap (htext ▸ unescapeFn_escapeFn z)
  exact ⟨_, hrun, hu.decompressed_end.2⟩

/-- Settles O58: with the capacities of R182 the text is the whole escape of the compressed input, which
DECODE unescapes and P1 inflates. -/
theorem decodeAfterEncodeRestores : Obligations.DecodeAfterEncodeRestores := by
  intro env hlossless hhealthy s hp x z text hmid hdst
  have hok : CompressSucceeds env z s.draws s.midCap := ⟨(hhealthy _).1, hmid, (hhealthy _).2⟩
  rcases encode_cases (z := z) env hp (by omega) rfl with ⟨-, -, hfail⟩ | ⟨-, t, hrun, ht⟩
  · exact absurd hfail hok.not_failure
  · have hlen : fullLen z = text.length := rfl
    obtain ⟨htrunc, htlen, hout⟩ := escapedOutput_of_room ht.output (by omega)
    refine ⟨t, hrun, ht.output.1, htrunc, htlen, hout, fun s2 hp2 hlen2 htext hmid2 hdst2 => ?_⟩
    obtain ⟨u, hrun2, hu⟩ := decode_of_escape hp2 (by omega) htext
    exact ⟨u, hrun2, hu.of_some (hhealthy _).1 (hlossless x) hdst2⟩

/-- Settles O60: the text of a truncated ENCODE is the escape of a proper initial part of the compressed input,
which by P3 does not inflate. -/
theorem truncatedTextDoesNotDecode : Obligations.TruncatedTextDoesNotDecode := by
  intro env hprefix s t s2 hp hrun hok htrunc hp2 hlen2 htext hmid2 hinit
  have hcap : s.dstCap ≠ 0 := by
    intro hcap
    have hrefuse : startRefusal .encode s = some .badCapacity := by simp [startRefusal, hcap]
    rw [runCommand_of_not_busy hp, beginCommand_of_refused hrefuse, runToDone_idle (by simp)] at hrun
    cases hrun
    simp at hok
  rcases encode_cases env hp hcap rfl with ⟨hrun', -, hfail⟩ | ⟨-, t', hrun', ht⟩
  · cases hrun'.symm.trans hrun
    exact absurd hok hfail.status_ne_ok
  · cases hrun'.symm.trans hrun
    obtain ⟨-, -, -, -, hout, hleft, -⟩ := ht.output
    obtain ⟨u, hrun2, hu⟩ := decode_of_escape hp2 (by omega) (htext.trans hout)
    have hfail := hu.of_none hinit (hprefix _ _ (hleft.1 htrunc))
    exact ⟨u, hrun2, hfail.1, hfail.2.1⟩

end Sys2Proof.Machine
end

section
/-! SUPPORT. The bytes of an escape (spec 41 R140 to R142): which they can be, and how many. -/

namespace Sys2Proof

/-! ### The escape of one byte -/

theorem escapeOne_of_literal {b : Byte} (hb : needsEscape b = false) : escapeOne b = [b] :=
  if_neg (by simpa [needsEscape] using hb)

/-- The pair of a reserved byte by the number of its bucket (R98). -/
theorem escapeOne_of_bucket {b : Byte} (hb : needsEscape b = true) {i : Nat} (hi : b.toNat / 64 = i) :
    escapeOne b = [BitVec.ofNat 8 (245 + i), BitVec.ofNat 8 (128 + b.toNat % 64)] := by
  rw [escapeOne_of_reserved hb, markers_nth, ← hi]
  rfl

/-- Every byte of an escape is a byte that needs none, or one of the two bytes of a pair (R142). -/
theorem mem_escapeOne {v b : Byte} (hv : v ∈ escapeOne b) :
    needsEscape b = false ∧ v = b
      ∨ needsEscape b = true ∧ (v.toNat = 245 + b.toNat / 64 ∨ v.toNat = 128 + b.toNat % 64) := by
  cases hb : needsEscape b with
  | false => exact .inl ⟨rfl, by simpa [escapeOne_of_literal hb] using hv⟩
  | true =>
    rw [escapeOne_of_bucket hb rfl, List.mem_pair] at hv
    have hlt := b.isLt
    refine .inr ⟨rfl, hv.imp ?_ ?_⟩ <;>
      rintro rfl <;> rw [BitVec.toNat_ofNat] <;> omega

theorem mem_escapeFn {v : Byte} {x : List Byte} : v ∈ escapeFn x ↔ ∃ b ∈ x, v ∈ escapeOne b :=
  List.mem_flatMap

/-- No byte of an escape is the terminator, the quote, the backslash or the marker `M2`: no reserved byte
lies in bucket 2 (R141, R180). -/
theorem toNat_of_mem_escapeFn {v : Byte} {x : List Byte} (hv : v ∈ escapeFn x) :
    v.toNat ≠ 0 ∧ v.toNat ≠ 34 ∧ v.toNat ≠ 92 ∧ v.toNat ≠ 247 := by
  obtain ⟨b, -, hv⟩ := mem_escapeFn.1 hv
  rcases mem_escapeOne hv with ⟨hb, rfl⟩ | ⟨hb, hv⟩
  · rw [← Bool.not_eq_true, needsEscape_iff] at hb
    omega
  · rw [needsEscape_iff] at hb
    omega

/-- Settles O52: `M2` is the marker of bucket 2, which no reserved byte lies in. -/
theorem escapeNeverEmitsM2 : Obligations.EscapeNeverEmitsM2 := by
  intro x hv
  obtain ⟨-, -, -, hne⟩ := toNat_of_mem_escapeFn hv
  exact hne rfl

/-! ### The length of an escape -/

/-- Settles O51, by induction on the sequence: each byte becomes one or two. -/
theorem escapeSizeBounds : Obligations.EscapeSizeBounds := by
  intro x
  induction x with
  | nil => exact ⟨le_rfl, le_rfl⟩
  | cons b x ih =>
    rw [Machine.fullLen_cons, List.length_cons]
    rcases Machine.escapeOne_length b with h | h <;> omega

/-- A proper initial part of a sequence has a shorter escape. -/
theorem fullLen_take_lt_iff {x : List Byte} {k : Nat} (hk : k ≤ x.length) :
    fullLen (x.take k) < fullLen x ↔ k < x.length := by
  have hsplit := fullLen_append (x.take k) (x.drop k)
  rw [List.take_append_drop] at hsplit
  have hdrop := escapeSizeBounds (x.drop k)
  rw [List.length_drop] at hdrop
  omega

/-- Where input is left, at most one byte of room is: a byte's escape takes at most two (R140). -/
theorem LongestFit.room_le {x : List Byte} {room k : Nat} (h : LongestFit x room k) (hk : k < x.length) :
    room ≤ fullLen (x.take k) + 1 := by
  obtain ⟨-, -, hstop⟩ := h
  have hstop := hstop hk
  rw [Machine.fullLen_take_succ x k hk] at hstop
  rcases Machine.escapeOne_length x[k] with h | h <;> omega

/-! ### Escapes are safe text -/

theorem unitInBand_pairUnit (i : Fin 4) (low6 : BitVec 6) : unitInBand (pairUnit i 0b10 low6) = true := by
  fin_cases i <;> rfl

/-- The encoder's payloads lie in 128 to 191 (R92). -/
theorem payloadHi_payloadOf (b : Byte) : payloadHi (payloadOf b) = 0b10 := by
  apply BitVec.eq_of_toNat_eq
  simp only [payloadHi, payloadOf, Config.payloadBias, BitVec.extractLsb'_toNat, BitVec.toNat_ofNat,
    BitVec.reduceToNat, Nat.shiftRight_eq_div_pow]
  omega

/-- The escape of one byte, at the front of any stream, parses as one unit, with its payload in band. -/
theorem parseUnits_escapeOne_append (b : Byte) (t : List Byte) :
    ∃ u, unitInBand u = true ∧ parseUnits (escapeOne b ++ t) = (parseUnits t).map (u :: ·) := by
  cases hb : needsEscape b with
  | false =>
    rw [escapeOne_of_literal hb]
    exact ⟨.lit b, rfl, parseUnits_lit (isMarkerIn_of_needsEscapeIn hb) t⟩
  | true =>
    rw [escapeOne_of_reserved hb]
    refine ⟨_, ?_, parseUnits_pair (isMarker_nth _) (payloadOf b) t⟩
    rw [payloadHi_payloadOf]
    exact unitInBand_pairUnit ..

theorem parseUnits_escapeFn (x : List Byte) :
    ∃ us, parseUnits (escapeFn x) = some us ∧ us.all unitInBand = true := by
  induction x with
  | nil => exact ⟨[], rfl, rfl⟩
  | cons b x ih =>
    obtain ⟨us, hparse, hus⟩ := ih
    obtain ⟨u, hu, happend⟩ := parseUnits_escapeOne_append b (escapeFn x)
    exact ⟨u :: us, by rw [Machine.escapeFn_cons, happend, hparse, Option.map_some], by simp [hu, hus]⟩

/-- Every escape meets the safe-text invariant (R180, R181). -/
theorem safeText_escapeFn (x : List Byte) : safeText (escapeFn x) = true := by
  obtain ⟨us, hparse, hus⟩ := parseUnits_escapeFn x
  simp only [safeText, hparse, hus, Bool.and_true, List.all_eq_true]
  intro v hv
  obtain ⟨hnul, hquote, hbackslash, -⟩ := toNat_of_mem_escapeFn hv
  simp [Config.nul, Config.quote, Config.backslash, ← BitVec.toNat_inj, hnul, hquote, hbackslash]

end Sys2Proof
end

section
/-! SUPPORT. The four input classes in a running escape scan (spec 41 R132 to R137). -/

namespace Sys2Proof.Machine

open Sys2Proof.Claims

section Classes
variable {b : Byte} {k : InputClass}

/-- An instruction of a byte's own class emits the byte's escape (R131). -/
theorem exec_input {c : Command} {s : State} (hc : commandOf s.op = some c) (hk : classOf b = k) :
    exec (k.instr b) s = emitUnit c (escapeOne b) s := by
  rw [← hk, ← decodeInput_eq, exec_decodeInput hc, inputByte_eq]

theorem Scanned.onlyCursorsMove {bd : Binding} {s t : State} (h : Scanned bd s t) : OnlyCursorsMove s t :=
  ⟨h.operands, h.host, h.draws, h.phase, h.stage, h.midLen, h.status, h.trunc, h.len⟩

/-- A byte whose escape fits below the terminator's slot is consumed (R132 to R135). -/
theorem inputRuns_of_class (hk : classOf b = k) : InputRuns (k.instr b) (escapeOne b) := by
  intro s c bd hc hb hr hfit
  have hscan := Scanned.store bd s (escapeOne b) 1
  have hwp : ((s.store bd.dst s.wp (escapeOne b)).advance 1 (escapeOne b).length).wp
      = s.wp + (escapeOne b).length := by simp
  refine ⟨_, (exec_input hc hk).trans (emitUnit_of_fits hb hr hfit), by simp, hwp, fun env j hj => ?_,
    hwp ▸ hscan.bytes, hscan.onlyCursorsMove⟩
  rw [State.readByte_congr env _ _ (State.advance_buffer ..), readByte_store,
    if_pos ⟨rfl, by omega, by omega⟩, Nat.add_sub_cancel_left]

/-- A byte whose escape does not fit sets `TRUNC` and finishes the scan (R136, R137). -/
theorem inputTruncates_of_class {n : Nat} (hk : classOf b = k) (hn : (escapeOne b).length = n) :
    InputTruncates (k.instr b) n := by
  subst hn
  intro s c bd hc hb hr hw hfit
  have hfinish := (emitUnit_of_not_fits hb hr hfit).trans (escapeFinish_of_lt (s := s.truncated) hw)
  exact ⟨_, (exec_input hc hk).trans hfinish, by simp, scanFinished_complete bd s.truncated⟩

/-! ### The bytes of each class (R91) -/

theorem classOf_q0 (hb : b = 0x00 ∨ b = 0x22) : classOf b = .q0 := by
  rcases hb with rfl | rfl <;> rfl

theorem escapeOne_q0 (hb : b = 0x00 ∨ b = 0x22) :
    escapeOne b = [0xF5, BitVec.ofNat 8 (128 + b.toNat % 64)] := by
  rcases hb with rfl | rfl <;> rfl

theorem classOf_mk (hb : 245 ≤ b.toNat ∧ b.toNat ≤ 248) : classOf b = .mk := by
  rw [classOf_eq, if_neg (by omega), if_neg (by omega), if_pos hb]

theorem escapeOne_mk (hb : 245 ≤ b.toNat ∧ b.toNat ≤ 248) :
    escapeOne b = [0xF8, BitVec.ofNat 8 (128 + b.toNat % 64)] :=
  escapeOne_of_bucket (needsEscape_iff.2 (by omega)) (i := 3) (by omega)

theorem classOf_lit (hb : needsEscape b = false) : classOf b = .lit := by
  rw [← Bool.not_eq_true, needsEscape_iff] at hb
  rw [classOf_eq, if_neg (by omega), if_neg (by omega), if_neg (by omega)]

end Classes

/-- Settles O20: on each class's own bytes the escape is the pair of the byte's bucket. -/
theorem escapedClassesEmitPair : Obligations.EscapedClassesEmitPair := by
  refine fun b => ⟨fun hb => ?_, ?_, fun hb => ?_⟩
  · exact escapeOne_q0 hb ▸ inputRuns_of_class (classOf_q0 hb)
  · rintro rfl
    exact inputRuns_of_class (b := 0x5C) (k := .bs) rfl
  · exact escapeOne_mk hb ▸ inputRuns_of_class (classOf_mk hb)

/-- Settles O21: the escape of a byte that needs none is the byte. -/
theorem literalClassEmitsByte : Obligations.LiteralClassEmitsByte := fun _ hb =>
  escapeOne_of_literal hb ▸ inputRuns_of_class (classOf_lit hb)

/-- Settles O22: the escapes of the three reserved classes are two bytes long, a literal's is one. -/
theorem unitsThatDoNotFitTruncate : Obligations.UnitsThatDoNotFitTruncate := by
  refine fun b => ⟨fun hb => ?_, ?_, fun hb => ?_, fun hb => ?_⟩
  · exact inputTruncates_of_class (classOf_q0 hb) (congrArg List.length (escapeOne_q0 hb))
  · rintro rfl
    exact inputTruncates_of_class (b := 0x5C) (k := .bs) rfl rfl
  · exact inputTruncates_of_class (classOf_mk hb) (congrArg List.length (escapeOne_mk hb))
  · exact inputTruncates_of_class (classOf_lit hb) (congrArg List.length (escapeOne_of_literal hb))

end Sys2Proof.Machine
end

section
/-! SUPPORT. ESCAPE, and the output of ESCAPE and ENCODE (spec 41 R139 to R143; 43 R180 to R184). -/

namespace Sys2Proof.Machine

open Sys2Proof.Claims

section Commands
variable {env : Config.Environment} {c : Command} {s t : State} {x : List Byte} {cap : Nat}

/-! ### ESCAPE -/

/-- ESCAPE is one escape stage over `SRC[0..SRC_LEN)` (R139). -/
theorem runCommand_escape (env : Config.Environment) (hp : s.phase ≠ .busy) (hcap : s.dstCap ≠ 0) :
    ∃ t, runCommand env .escape s = .next t
      ∧ EscapeEnd env s.srcToDst (s.clearResults.accept .escape) t := by
  rw [runCommand_of_accepted hp (by simp [startRefusal, hcap])]
  exact runToDone_escape_end (runningStage_accept rfl) (Nat.one_le_iff_ne_zero.2 hcap) rfl rfl rfl
    (by simp only [stepLimit, State.srcToDst]; omega)

/-! ### What an ESCAPE or ENCODE wrote -/

/-- A refused START does not end `OK` (R41, R208). -/
theorem startRefusal_of_ok (hp : s.phase ≠ .busy) (ht : runCommand env c s = .next t)
    (hok : t.status = .ok) : startRefusal c s = none := by
  cases hstart : startRefusal c s with
  | none => rfl
  | some code =>
    rw [runCommand_of_not_busy hp, beginCommand_of_refused hstart, runToDone_idle (by simp)] at ht
    cases ht
    obtain rfl : code = .ok := hok
    cases c <;> simp [startRefusal] at hstart

theorem escapedOutput_of_escape (hp : s.phase ≠ .busy) (hcap : s.dstCap ≠ 0)
    (ht : runCommand env .escape s = .next t) : EscapedOutput env (s.input env) s.dstCap t := by
  obtain ⟨t', ht', hend⟩ := runCommand_escape env hp hcap
  cases ht'.symm.trans ht
  exact hend.output

/-- An ENCODE that ends `OK` ran both its stages (R171, R178). -/
theorem encodeSuccess_of_ok (hp : s.phase ≠ .busy) (hcap : s.dstCap ≠ 0)
    (ht : runCommand env .encode s = .next t) (hok : t.status = .ok) :
    EncodeSuccess env (env.deflate (s.input env)) s t := by
  rcases encode_cases env hp hcap rfl with ⟨ht', -, hfail⟩ | ⟨-, t', ht', hsuccess⟩
  · cases ht'.symm.trans ht
    exact absurd hok hfail.status_ne_ok
  · cases ht'.symm.trans ht
    exact hsuccess

theorem escapedOutput_of_ok (hp : s.phase ≠ .busy)
    (ht : runCommand env .escape s = .next t ∨ runCommand env .encode s = .next t)
    (hok : t.status = .ok) : ∃ x, EscapedOutput env x s.dstCap t := by
  rcases ht with ht | ht
  · have hcap : s.dstCap ≠ 0 := by simpa [startRefusal] using startRefusal_of_ok hp ht hok
    exact ⟨_, escapedOutput_of_escape hp hcap ht⟩
  · have hcap : s.dstCap ≠ 0 := by simpa [startRefusal] using startRefusal_of_ok hp ht hok
    exact ⟨_, (encodeSuccess_of_ok hp hcap ht hok).output⟩

theorem readByte_mem_output {i : Nat} (hi : i < t.len) : t.readByte env .dst i ∈ t.output env :=
  List.mem_map_of_mem (List.mem_range.2 hi)

/-! ### Truncation -/

/-- Truncated is what ended with input left (R136, R143, R209). -/
theorem encodeTruncated_iff_left (h : EscapedOutput env x cap t) :
    t.encodeTruncated = true ↔ t.rp < x.length := by
  obtain ⟨hok, -, -, -, -, htrunc, -⟩ := h
  simpa [State.encodeTruncated, hok] using htrunc

theorem len_lt_iff_left (h : EscapedOutput env x cap t) :
    t.len < fullLen x ↔ t.rp < x.length := by
  obtain ⟨-, -, hfit, hlen, -, -, -⟩ := h
  rw [hlen, fullLen_take_lt_iff hfit.1]

/-- Without room for the whole escape and the terminator, input is left and the room is used up but for at
most one byte (R140, R184). -/
theorem escapedOutput_of_short (h : EscapedOutput env x cap t) (hcap : cap ≠ 0)
    (hroom : cap - 1 < fullLen x) :
    t.trunc = true ∧ t.len < fullLen x ∧ cap ≤ t.len + 2 ∧ t.len + 1 ≤ cap := by
  have hleft := len_lt_iff_left h
  obtain ⟨-, -, hfit, hlen, -, htrunc, -⟩ := h
  have ⟨_, hbelow, _⟩ := hfit
  have hrp : t.rp < x.length := hleft.1 (by omega)
  have hused := hfit.room_le hrp
  exact ⟨htrunc.2 hrp, hleft.2 hrp, by omega, by omega⟩

/-! ### UNESCAPE -/

/-- An UNESCAPE of a text that decodes to `y` leaves `y` (R159, R163). -/
theorem unescape_of_some {y : List Byte} (hp : s.phase ≠ .busy) (hcap : s.srcLen ≤ s.dstCap)
    (hy : unescapeFn (s.input env) = some y) :
    ∃ u, Scanned s.srcToDst (s.clearResults.accept .unescape) u
      ∧ runCommand env .unescape s = .next (u.complete u.wp) ∧ u.rp = s.srcLen ∧ u.wp = y.length
      ∧ u.readBytes env .dst u.wp = y := by
  obtain ⟨u, m, -, hrun, hscan, hrp, hwp, hread⟩ := runToDone_unescape_of_some (n := stepLimit s)
    (s := s.clearResults.accept .unescape) (b := s.srcToDst) (runningStage_accept rfl) hcap rfl rfl
    (by simp only [stepLimit, State.srcToDst]; omega) hy
  refine ⟨u, hscan, ?_, hrp, hwp, hread⟩
  rw [runCommand_of_accepted hp (by simp [startRefusal, Nat.not_lt.2 hcap]), hrun]
  exact runToDone_idle (by simp [State.stageReturn]) m

end Commands

/-- Settles O26: the command is one escape stage. -/
theorem escapeCompletes : Obligations.EscapeCompletes := by
  intro s hp hcap env
  obtain ⟨t, ht, hend⟩ := runCommand_escape env hp hcap
  exact ⟨t, ht, ⟨hend.completed, hend.operands, hend.host, hend.others .src nofun⟩, hend.midLen,
    hend.draws, hend.others .mid nofun, hend.output, hend.bytes⟩

/-- Settles O54: the output is an escape, and every escape is safe text without a zero byte. -/
theorem outputIsSafeText : Obligations.OutputIsSafeText := by
  intro env s t hp ht hok
  obtain ⟨x, -, -, -, -, hout, -, hterm⟩ := escapedOutput_of_ok hp ht hok
  refine ⟨hout ▸ safeText_escapeFn _, ⟨_, hout⟩, hterm, fun i hi hzero => ?_⟩
  obtain ⟨hne, -⟩ := toNat_of_mem_escapeFn (hout ▸ readByte_mem_output (env := env) hi)
  exact hne (by rw [hzero]; rfl)

/-- Settles O55, by whether the whole escape and the terminator fit. -/
theorem truncationThreshold : Obligations.TruncationThreshold := by
  intro s t hp hcap ht n
  have hout := escapedOutput_of_escape hp hcap ht
  refine ⟨escapedOutput_of_short hout hcap, fun hroom => ?_⟩
  obtain ⟨htrunc, hlen, -⟩ := escapedOutput_of_room hout hroom
  exact ⟨htrunc, hlen⟩

/-- Settles O56: each of the three says that input of the escape stage is left. -/
theorem truncationIsDetectable : Obligations.TruncationIsDetectable := by
  refine fun env s t hp hcap => ⟨fun ht => ?_, fun ht hok => ?_⟩
  · have hout := escapedOutput_of_escape hp hcap ht
    have htrunc := encodeTruncated_iff_left hout
    exact ⟨by rwa [State.input, readBytes_length] at htrunc, htrunc.trans (len_lt_iff_left hout).symm⟩
  · have hsuccess := encodeSuccess_of_ok hp hcap ht hok
    rw [hsuccess.midLen]
    exact encodeTruncated_iff_left hsuccess.output

/-- Settles O57: the text is the escape of what ESCAPE consumed, which unescaping inverts. -/
theorem unescapeAfterEscapeRestores : Obligations.UnescapeAfterEscapeRestores := by
  intro s t s2 hp hcap ht hp2 hlen2 htext hroom
  obtain ⟨-, -, ⟨hrp, -⟩, -, hout, htrunc, -⟩ := escapedOutput_of_escape hp hcap ht
  obtain ⟨u, -, hu, -, hwp, hread⟩ := unescape_of_some hp2 (by omega)
    (by rw [htext, hout, unescapeFn_escapeFn])
  refine ⟨_, hu, rfl, ?_, ?_, fun hfull => ?_⟩
  · rw [State.complete_len, hwp, List.length_take, Nat.min_eq_left hrp]
  · rw [State.output, State.complete_len, State.readBytes_congr _ _ _ (State.complete_buffer ..), hread]
  · rw [State.input, readBytes_length] at hrp htrunc
    simp only [hfull, Bool.false_eq_true, false_iff] at htrunc
    omega

end Sys2Proof.Machine
end

section
/-! SUPPORT. The five code units in a running unescape scan, and UNESCAPE (spec 42 R151 to R156, R159, R163). -/

namespace Sys2Proof.Machine

open Sys2Proof.Claims

/-! ### MALFORMED_ESCAPE -/

/-- Raising MALFORMED_ESCAPE records the cursor where its command reports it (R156, R210). -/
theorem raisedMalformed_raise (c : Command) (s : State) :
    RaisedMalformed c s (s.raise c .malformedEscape) := by
  refine ⟨rfl, ⟨rfl, rfl⟩, rfl, rfl, rfl, ?_, ?_, ⟨rfl, rfl, rfl, rfl⟩, ⟨rfl, rfl⟩, rfl, fun _ _ _ _ => rfl⟩
  all_goals
    rintro rfl
    simp

/-- Settles O15: the step is the scan's last one, which raises. -/
theorem stepRaisesAtLoneMarker : Obligations.StepRaisesAtLoneMarker := fun s c _ hturns hc hb hend hm =>
  ⟨_, (step_of_running hturns hc hb).trans (unescape_lone _ hb hend hm), raisedMalformed_raise c s⟩

/-! ### Code units -/

section Units
variable {i : Instr} {size : Nat} {v : Byte}

/-- A unit run by itself is consumed under the command that `OP` selects. -/
def ConsumesUnit (i : Instr) (size : Nat) (v : Byte) : Prop :=
  ∀ s, exec i s = underCommand s fun c => consumeUnit c size v s

theorem consumesUnit_lit (v : Byte) : ConsumesUnit (.lit v) 1 v := fun _ => rfl

theorem ConsumesUnit.exec (h : ConsumesUnit i size v) {c : Command} {s : State}
    (hc : commandOf s.op = some c) : exec i s = consumeUnit c size v s := by
  simp [h s, underCommand, hc]

theorem ConsumesUnit.runs (h : ConsumesUnit i size v) (hsize : 1 ≤ size) : UnitRuns i size v.toNat := by
  intro s c b hc hb hwhole hroom
  have hscan := Scanned.store b s [v] size
  refine ⟨_, (h.exec hc).trans (consumeUnit_of_whole hb (by omega) hwhole hroom), by simp, by simp,
    fun env => ?_, fun env sp j hj => hscan.bytes env sp j ?_, hscan.onlyCursorsMove⟩
  · rw [State.readByte_congr env _ _ (State.advance_buffer ..), readByte_store]
    simp
  · rintro ⟨hsp, hle, hlt⟩
    simp only [List.length_singleton, State.advance_wp, State.store_wp] at hlt
    exact hj ⟨hsp, by omega⟩

theorem ConsumesUnit.trapsAtEnd (h : ConsumesUnit i 2 v) : UnitTrapsAtEnd i := fun s c _ hc hb hend =>
  ⟨_, (h.exec hc).trans (consumeUnit_of_cut hb (by omega) (by omega)), raisedMalformed_raise c s⟩

end Units

/-- A pair writes its base plus the six low bits, which fit a byte, or traps (R152 to R156). -/
theorem pairUnit_runs_and_traps (i : Fin 4) (hi : BitVec 2) (low6 : BitVec 6) :
    UnitRuns (pairUnit i hi low6) 2 (Config.base i + low6.toNat)
      ∧ UnitTrapsAtEnd (pairUnit i hi low6) := by
  have hunit : ConsumesUnit _ _ _ := exec_pairUnit_value i hi low6
  have hvalue : (BitVec.ofNat 8 (Config.base i + low6.toNat)).toNat = Config.base i + low6.toNat :=
    Nat.mod_eq_of_lt (by have := i.isLt; have := low6.isLt; simp only [Config.base]; omega)
  exact ⟨hvalue ▸ hunit.runs (by decide), hunit.trapsAtEnd⟩

/-- Settles O18: a literal is a unit of one byte that stands for itself. -/
theorem litCopies : Obligations.LitCopies := fun v _ => (consumesUnit_lit v).runs (by decide)

/-- Settles O19: each pair is the unit of its bucket. -/
theorem pairsRebuild : Obligations.PairsRebuild := fun hi low6 =>
  ⟨pairUnit_runs_and_traps 0 hi low6, pairUnit_runs_and_traps 1 hi low6,
    pairUnit_runs_and_traps 2 hi low6, pairUnit_runs_and_traps 3 hi low6⟩

/-! ### UNESCAPE -/

section Unescape
variable {env : Config.Environment} {s : State}

/-- An UNESCAPE of a text that does not decode ends at the lone marker (R156, R159). -/
theorem unescape_of_none (hp : s.phase ≠ .busy) (hcap : s.srcLen ≤ s.dstCap)
    (hnone : unescapeFn (s.input env) = none) :
    ∃ u, Scanned s.srcToDst (s.clearResults.accept .unescape) u
      ∧ runCommand env .unescape s = .next (u.raise .unescape .malformedEscape) ∧ u.rp + 1 = s.srcLen
      ∧ unescapeFn ((s.input env).take (s.srcLen - 1)) = some (u.readBytes env .dst u.wp) := by
  obtain ⟨u, hrun, hscan, hrp, htake⟩ := runToDone_unescape_of_none (n := stepLimit s)
    (s := s.clearResults.accept .unescape) (b := s.srcToDst) (runningStage_accept rfl) hcap rfl rfl
    (by simp only [stepLimit, State.srcToDst]; omega) hnone
  refine ⟨u, hscan, ?_, hrp, htake⟩
  rw [runCommand_of_accepted hp (by simp [startRefusal, Nat.not_lt.2 hcap]), hrun]

/-- Whatever an UNESCAPE ends with, its scan has moved to some `u`, and `LEN` is the `WP` there (R156, R159). -/
theorem unescape_cases (env : Config.Environment) (hp : s.phase ≠ .busy) (hcap : s.srcLen ≤ s.dstCap) :
    ∃ u code, Scanned s.srcToDst (s.clearResults.accept .unescape) u
      ∧ runCommand env .unescape s = .next { u.complete u.wp with status := code }
      ∧ (code = .ok ∧ u.rp = s.srcLen
          ∧ unescapeFn (s.input env) = some (u.readBytes env .dst u.wp)
        ∨ code = .malformedEscape ∧ u.rp + 1 = s.srcLen ∧ unescapeFn (s.input env) = none
          ∧ unescapeFn ((s.input env).take (s.srcLen - 1)) = some (u.readBytes env .dst u.wp)) := by
  cases hy : unescapeFn (s.input env) with
  | some y =>
    obtain ⟨u, hscan, hrun, hrp, -, hread⟩ := unescape_of_some hp hcap hy
    exact ⟨u, .ok, hscan, hrun, .inl ⟨rfl, hrp, congrArg some hread.symm⟩⟩
  | none =>
    obtain ⟨u, hscan, hrun, hrp, htake⟩ := unescape_of_none hp hcap hy
    exact ⟨u, .malformedEscape, hscan, hrun, .inr ⟨rfl, hrp, rfl, htake⟩⟩

end Unescape

/-- Settles O27: both ends leave what the scan left; they differ in `STATUS` and in what was left to read. -/
theorem unescapeCompletes : Obligations.UnescapeCompletes := by
  intro s hp hcap env
  obtain ⟨u, code, hscan, hrun, hend⟩ := unescape_cases env hp hcap
  refine ⟨_, hrun, ⟨⟨rfl, rfl⟩, hscan.operands, hscan.host, hscan.others .src nofun⟩, hscan.midLen,
    hscan.draws, hscan.trunc, hscan.others .mid nofun, rfl,
    fun env sp i hi => hscan.bytes env sp i fun ⟨hsp, _, hlt⟩ => hi ⟨hsp, hlt⟩, ?_⟩
  rcases hend with ⟨hok, hrp, hy⟩ | ⟨hcode, hrp, hnone, htake⟩
  · rw [hy]
    exact ⟨hok, hrp, rfl⟩
  · rw [hnone]
    exact ⟨hcode, hrp, htake⟩

end Sys2Proof.Machine
end

section
/-! SUPPORT. A START with a capacity its command cannot work with (spec 43 R179; 60 R208). -/

namespace Sys2Proof.Machine

/-- The capacities that tests 2 to 4 of START's validation refuse, in terms of the command (R179). -/
theorem startRefusal_badCapacity {c : Command} {s : State}
    (h : (c = .escape ∨ c = .encode) ∧ s.dstCap = 0 ∨ c = .unescape ∧ s.dstCap < s.srcLen
      ∨ c = .decode ∧ s.midCap < s.srcLen) : startRefusal c s = some .badCapacity := by
  rcases h with ⟨rfl | rfl, hcap⟩ | ⟨rfl, hcap⟩ | ⟨rfl, hcap⟩ <;> exact if_pos hcap

/-- A command that is refused ends with START (R41, R189). -/
theorem runCommand_of_refused {env : Config.Environment} {c : Command} {s : State} {code : Status}
    (hp : s.phase ≠ .busy) (hstart : startRefusal c s = some code) :
    runCommand env c s = .next (s.clearResults.refuse code) := by
  rw [runCommand_of_not_busy hp, beginCommand_of_refused hstart]
  exact runToDone_idle (by simp) _

theorem hostStart_of_refused {c : Command} {s : State} {code : Status} (hp : s.phase ≠ .busy)
    (hc : commandOf s.op = some c) (hstart : startRefusal c s = some code) :
    hostStart s = s.clearResults.refuse code :=
  (hostStart_of_some hp hc).trans (beginCommand_of_refused hstart)

/-- Settles O30: each capacity meets its test of START's validation, and the START that refuses is the whole
command as well as the host's move. -/
theorem badCapacityRefused : Obligations.BadCapacityRefused := by
  intro c s hp hcap
  refine ⟨⟨_, (exec_command c s).trans (runCommand_of_refused hp (startRefusal_badCapacity hcap)),
    refusedWith_refuse _ _⟩, fun ts hop hturns => ?_⟩
  have hstep : step s = .next (hostStart { s with turns := ts }) := step_of_host hturns
  rw [hostStart_of_refused (s := { s with turns := ts }) hp (hop ▸ commandOf_code c)
    (startRefusal_badCapacity hcap)] at hstep
  exact ⟨_, hstep, refusedWith_refuse _ _⟩

end Sys2Proof.Machine
end

section
/-! SUPPORT. How many sequencer steps each command takes from START to `DONE` (spec 70 R247). -/

namespace Sys2Proof.Machine

open Sys2Proof.Claims

section Bounds
variable {env : Config.Environment} {c : Command} {b : Binding} {s t : State}

/-- A last step into `DONE`, whatever steps are to spare. -/
theorem runToDone_done_of_last (n : Nat) (hb : s.phase = .busy) (hs : sequencerStep env c s = .next t)
    (ht : t.phase = .done) : ∃ t, runToDone env c (n + 1) s = .next t ∧ t.phase = .done :=
  ⟨t, runToDone_of_last n hb hs (by simp [ht]), ht⟩

/-- A decompress stage takes one step and ends its command (R116). -/
theorem runToDone_decompress_done (n : Nat) (hb : runningStage c .decompress s = some b) :
    ∃ t, runToDone env c (n + 1) s = .next t ∧ t.phase = .done :=
  runToDone_done_of_last n (runningStage_some.1 hb).1 (decompress_step env hb) decompressed_phase

/-- The compress stage of a COMPRESS takes one step and ends it (R115, R117). -/
theorem runToDone_compress_done (n : Nat) (hb : runningStage .compress .compress s = some b) :
    ∃ t, runToDone env .compress (n + 1) s = .next t ∧ t.phase = .done :=
  runToDone_done_of_last n (runningStage_some.1 hb).1 (compress_step env hb)
    ((compressed_phase hb).resolve_right (by simp))

/-- An unescape stage from the front of its source takes a step for each byte and one for its finish, and
the decompress stage of a DECODE one more (R157, R158, R172). -/
theorem runToDone_unescape_done (hb : runningStage c .unescape s = some b) (hcap : b.len ≤ b.cap)
    (hr : s.rp = 0) (hw : s.wp = 0) {n : Nat} (hn : b.len < n) (hn' : c = .decode → b.len + 1 < n) :
    ∃ t, runToDone env c n s = .next t ∧ t.phase = .done := by
  cases hy : unescapeFn (s.readBytes env b.src b.len) with
  | none =>
    obtain ⟨u, hrun, -⟩ := runToDone_unescape_of_none hb hcap hr hw hn hy
    exact ⟨_, hrun, rfl⟩
  | some y =>
    obtain ⟨u, m, hm, hrun, hscan, -⟩ := runToDone_unescape_of_some hb hcap hr hw hn hy
    obtain ⟨hp, -, hbind⟩ := runningStage_some.1 (hscan.running hb)
    rw [hrun]
    rcases binding_unescape hbind with ⟨rfl, -⟩ | ⟨rfl, -⟩
    · exact ⟨_, runToDone_idle (by simp [State.stageReturn]) m, rfl⟩
    · obtain ⟨k, rfl⟩ : ∃ k, m = k + 1 := ⟨m - 1, by have := hn' rfl; omega⟩
      exact runToDone_decompress_done k (runningStage_some.2 ⟨hp, rfl, rfl⟩)

/-- An ENCODE takes one step for its compress stage, which may fail, then one for each byte of `MID` and one
for the finish (R138, R171). -/
theorem runToDone_encode_done (env : Config.Environment) (hcap : s.dstCap ≠ 0) :
    ∃ t, runToDone env .encode (t.midLen + 2) (s.clearResults.accept .encode) = .next t
      ∧ t.phase = .done := by
  have hb : runningStage .encode .compress (s.clearResults.accept .encode) = some s.srcToMid :=
    runningStage_accept rfl
  have hstep := compress_step env hb
  rcases compressed_cases (env := env) (c := .encode) (b := s.srcToMid)
    (s := s.clearResults.accept .encode) rfl rfl rfl with ⟨hend, -⟩ | ⟨-, hhand⟩
  · have hdone := hend.completed.1
    exact ⟨_, runToDone_of_last _ rfl hstep (by simp [hdone]), hdone⟩
  · obtain ⟨t, ht, hend⟩ := runToDone_escape_end (env := env) (encodeHandover_running (s := s))
      (Nat.one_le_iff_ne_zero.2 hcap) rfl rfl rfl (Nat.lt_succ_self _)
    refine ⟨t, ?_, hend.completed.1⟩
    rw [runToDone_step rfl (hstep.trans (congrArg _ hhand)), hend.midLen]
    exact ht

/-- A command that START accepts is `DONE` within its bound (R247). -/
theorem runToDone_accept_done (env : Config.Environment) (hstart : startRefusal c s = none) :
    ∃ t, runToDone env c (stepsAtMost c s t) (s.clearResults.accept c) = .next t ∧ t.phase = .done := by
  cases c with
  | compress => exact runToDone_compress_done 0 (runningStage_accept rfl)
  | decompress => exact runToDone_decompress_done 0 (runningStage_accept rfl)
  | escape =>
    have hcap : s.dstCap ≠ 0 := by simpa [startRefusal] using hstart
    obtain ⟨t, ht, hend⟩ := runToDone_escape_end (env := env)
      (runningStage_accept (c := .escape) (s := s) rfl) (Nat.one_le_iff_ne_zero.2 hcap) rfl rfl rfl
      (Nat.lt_succ_self _)
    exact ⟨t, ht, hend.completed.1⟩
  | unescape =>
    have hcap : s.srcLen ≤ s.dstCap := by simpa [startRefusal] using hstart
    exact runToDone_unescape_done (runningStage_accept rfl) hcap rfl rfl (Nat.lt_succ_self _) nofun
  | encode => exact runToDone_encode_done env (by simpa [startRefusal] using hstart)
  | decode =>
    have hcap : s.srcLen ≤ s.midCap := by simpa [startRefusal] using hstart
    exact runToDone_unescape_done (b := s.srcToMid) (runningStage_accept rfl) hcap rfl rfl
      (Nat.lt_add_of_pos_right Nat.two_pos) fun _ => Nat.lt_succ_self _

/-- From START on, every command is `DONE` within its bound; a refused one already is (R179, R247). -/
theorem beginCommand_done (env : Config.Environment) (c : Command) (s : State) :
    ∃ t, runToDone env c (stepsAtMost c s t) (beginCommand c s) = .next t ∧ t.phase = .done := by
  cases hstart : startRefusal c s with
  | some code =>
    rw [beginCommand_of_refused hstart]
    exact ⟨_, runToDone_idle (by simp) _, rfl⟩
  | none =>
    rw [beginCommand_of_accepted hstart]
    exact runToDone_accept_done env hstart

end Bounds

/-- Settles O34: the command is `DONE` within its bound, and with no move queued the machine's steps are the
sequencer's. -/
theorem commandTerminates : Obligations.CommandTerminates := by
  intro c s hp hop hturns
  have hc : commandOf s.op = some c := hop ▸ commandOf_code c
  obtain ⟨t, ht, hdone⟩ := beginCommand_done Config.environment c s
  refine ⟨t, ?_, hdone⟩
  rw [hostStart_of_some hp hc]
  exact core_run_of_runToDone (by rw [beginCommand_turns, hturns]) (by rw [beginCommand_op, hc]) ht

end Sys2Proof.Machine
end
